-- ==== Sys2Proof/Word.lean ====
section
/-! DEFINITION. The words of the block: 32-bit stream words, bytes of a byte transport, binary32 patterns, dibits. -/

namespace Sys2Proof

/-- A word of the command input, of the record output or of the register space (R84). -/
abbrev Word := BitVec 32

/-- A byte of a transport that carries words as bytes (R85). -/
abbrev Byte := BitVec 8

/-- The bit pattern of an IEEE 754 binary32 value; an f32 is carried as its pattern in one word (R7, R84). -/
abbrev F32 := BitVec 32

/-- A dibit `b1 b0`: a 2-bit value 0 to 3 (R7). -/
abbrev Dibit := BitVec 2

/-- OPCODE, bits [31:24] of a command word (R111). -/
abbrev Opcode := BitVec 8

/-- OPERAND, bits [23:0] of a command word (R111). -/
abbrev Operand := BitVec 24

end Sys2Proof
end

