-- ==== Sys2Proof/Syntax.lean ====
section
/-! DEFINITION. The syntax of the command input: one constructor for each row of spec/opcode_table.json (R112). -/

namespace Sys2Proof

/-- A command with its payload (R110, R112). OPERAND bits that a row reserves are fields too, because a reserved bit
that is 1 raises RESERVED_NONZERO (R119 (c)); the internal operation ids and the illegal opcodes carry the bits that their
row leaves free, because the FAULT record carries the whole command word (R126). -/
inductive Instr where
  /-- CONFIGURE (R113): SYMBOL_RATE in OPERAND, SPS in the payload. -/
  | configure (rate : Operand) (spsWord : Word)
  /-- SAMPLES (R114): TS_LO, TS_HI and the N sample words; N is the length of the list. -/
  | samples (tsLo tsHi : Word) (data : List Word)
  /-- FLUSH (R115). -/
  | flush (reserved : Operand)
  /-- RESET (R116). -/
  | reset (reserved : Operand)
  /-- READ_REG (R117): OPERAND[23:8] reserved, OPERAND[7:0] the address. -/
  | readReg (reserved : BitVec 16) (addr : BitVec 8)
  -- internal operation ids 0x80 to 0x9B (R118)
  | equalize (x : Operand)
  | unwrap (x : Operand)
  | eqSymbol (x : Operand)
  | eqConfigure (x : Operand)
  | eqReset (x : Operand)
  | eqApply (x : Operand)
  | idealPhase (x : Operand)
  | toSymbol (x : Operand)
  | bitDistance (x : Operand)
  | softScore (x : Operand)
  | hardErrors (x : Operand)
  | stddev (x : Operand)
  | scoreAt (x : Operand)
  | measure (x : Operand)
  | optimize (x : Operand)
  | prebias (x : Operand)
  | sampleStep (x : Operand)
  | symbolStep (x : Operand)
  | timingNudge (x : Operand)
  | syncCheck (x : Operand)
  | acceptSync (x : Operand)
  | coastSync (x : Operand)
  | recordPush (x : Operand)
  | framerSync (x : Operand)
  | framerDibit (x : Operand)
  | dispatch (x : Operand)
  | frameTimestamp (x : Operand)
  | datapathReset (x : Operand)
  /-- The reserved internal ids 0x9C to 0x9F (R112). -/
  | reservedInternal (low : BitVec 26)
  -- illegal opcodes (R112), named by their range
  | illegal00 (x : Operand)
  | illegal06 (low : BitVec 25)
  | illegal08 (low : BitVec 27)
  | illegal10 (low : BitVec 28)
  | illegal20 (low : BitVec 29)
  | illegal40 (low : BitVec 30)
  | illegalA0 (low : BitVec 29)
  | illegalC0 (low : BitVec 30)
deriving DecidableEq, Repr

end Sys2Proof
end

