-- ==== Sys2Proof/WellFormed.lean ====
section
/-! DEFINITION. Which terms of the syntax have an encoding. -/

namespace Sys2Proof

/-- An instruction that has an encoding. The field widths of `Instr` are the widths of the encoding; what remains to
check is that the sample count N of SAMPLES fits its 24-bit field (R112: 0 to 2^24 - 1). -/
def Instr.wellFormed : Instr → Bool
  | .samples _ _ data => decide (data.length < 2 ^ 24)
  | _ => true

end Sys2Proof
end

