-- ==== Sys2Proof/Decode.lean ====
section
/-! DEFINITION. The decoder and the encoder of the command input (R110 to R119, R129), and the byte order of a byte
transport (R85). Both are written from the opcode map of R112. -/

namespace Sys2Proof

/-! ### The fields of a command word (R111) -/

/-- OPCODE = bits [31:24]. -/
def opcodeOf (w : Word) : Opcode := w.extractLsb' 24 8

/-- OPERAND = bits [23:0]. -/
def operandOf (w : Word) : Operand := w.extractLsb' 0 24

/-- The command word with this OPCODE and this OPERAND. -/
def opWord (op : Opcode) (x : Operand) : Word := op ++ x

/-- How many payload words follow a command word: known from that word alone (R129). -/
def payloadLength (w : Word) : Nat :=
  match (opcodeOf w).toNat with
  | 0x01 => 1
  | 0x02 => 2 + (operandOf w).toNat
  | _ => 0

/-! ### Decoding -/

/-- Why no command can be read yet; in both cases the block waits (R110). -/
inductive DecodeStop where
  /-- The input is empty. -/
  | noCommandWord
  /-- The stream ends inside a payload. -/
  | payloadCutShort
deriving DecidableEq, Repr

/-- What the decoder answers: a command and the words after it, or why there is none. -/
inductive Decoded where
  | command (i : Instr) (rest : List Word)
  | stop (why : DecodeStop)
deriving DecidableEq, Repr

/-- The opcodes that R112 gives in ranges: the reserved internal ids and the illegal opcodes, told apart by the leading bits
that are the same over a row of spec/opcode_table.json. -/
def decodeRange (w : Word) : Instr :=
  if w.extractLsb' 26 6 = 39#6 then .reservedInternal (w.extractLsb' 0 26)
  else if w.extractLsb' 25 7 = 3#7 then .illegal06 (w.extractLsb' 0 25)
  else if w.extractLsb' 27 5 = 1#5 then .illegal08 (w.extractLsb' 0 27)
  else if w.extractLsb' 28 4 = 1#4 then .illegal10 (w.extractLsb' 0 28)
  else if w.extractLsb' 29 3 = 1#3 then .illegal20 (w.extractLsb' 0 29)
  else if w.extractLsb' 30 2 = 1#2 then .illegal40 (w.extractLsb' 0 30)
  else if w.extractLsb' 29 3 = 5#3 then .illegalA0 (w.extractLsb' 0 29)
  else .illegalC0 (w.extractLsb' 0 30)

/-- The command of a command word and its payload (R112, R118, R119). -/
def decodeCommand (w : Word) (payload : List Word) : Instr :=
  let x := operandOf w
  match (opcodeOf w).toNat with
  | 0x00 => .illegal00 x
  | 0x01 => .configure x (payload.getD 0 0#32)
  | 0x02 => .samples (payload.getD 0 0#32) (payload.getD 1 0#32) (payload.drop 2)
  | 0x03 => .flush x
  | 0x04 => .reset x
  | 0x05 => .readReg (x.extractLsb' 8 16) (x.extractLsb' 0 8)
  | 0x80 => .equalize x
  | 0x81 => .unwrap x
  | 0x82 => .eqSymbol x
  | 0x83 => .eqConfigure x
  | 0x84 => .eqReset x
  | 0x85 => .eqApply x
  | 0x86 => .idealPhase x
  | 0x87 => .toSymbol x
  | 0x88 => .bitDistance x
  | 0x89 => .softScore x
  | 0x8A => .hardErrors x
  | 0x8B => .stddev x
  | 0x8C => .scoreAt x
  | 0x8D => .measure x
  | 0x8E => .optimize x
  | 0x8F => .prebias x
  | 0x90 => .sampleStep x
  | 0x91 => .symbolStep x
  | 0x92 => .timingNudge x
  | 0x93 => .syncCheck x
  | 0x94 => .acceptSync x
  | 0x95 => .coastSync x
  | 0x96 => .recordPush x
  | 0x97 => .framerSync x
  | 0x98 => .framerDibit x
  | 0x99 => .dispatch x
  | 0x9A => .frameTimestamp x
  | 0x9B => .datapathReset x
  | _ => decodeRange w

/-- Reads one command off the front of the input: the command word and exactly the payload that it fixes (R110). -/
def decode : List Word → Decoded
  | [] => .stop .noCommandWord
  | w :: rest =>
    if rest.length < payloadLength w then .stop .payloadCutShort
    else .command (decodeCommand w (rest.take (payloadLength w))) (rest.drop (payloadLength w))

/-! ### Encoding -/

/-- The command word of an instruction (R112 to R119). -/
def commandWord : Instr → Word
  | .configure rate _ => opWord 0x01#8 rate
  | .samples _ _ data => opWord 0x02#8 (BitVec.ofNat 24 data.length)
  | .flush x => opWord 0x03#8 x
  | .reset x => opWord 0x04#8 x
  | .readReg reserved addr => opWord 0x05#8 (reserved ++ addr)
  | .equalize x => opWord 0x80#8 x
  | .unwrap x => opWord 0x81#8 x
  | .eqSymbol x => opWord 0x82#8 x
  | .eqConfigure x => opWord 0x83#8 x
  | .eqReset x => opWord 0x84#8 x
  | .eqApply x => opWord 0x85#8 x
  | .idealPhase x => opWord 0x86#8 x
  | .toSymbol x => opWord 0x87#8 x
  | .bitDistance x => opWord 0x88#8 x
  | .softScore x => opWord 0x89#8 x
  | .hardErrors x => opWord 0x8A#8 x
  | .stddev x => opWord 0x8B#8 x
  | .scoreAt x => opWord 0x8C#8 x
  | .measure x => opWord 0x8D#8 x
  | .optimize x => opWord 0x8E#8 x
  | .prebias x => opWord 0x8F#8 x
  | .sampleStep x => opWord 0x90#8 x
  | .symbolStep x => opWord 0x91#8 x
  | .timingNudge x => opWord 0x92#8 x
  | .syncCheck x => opWord 0x93#8 x
  | .acceptSync x => opWord 0x94#8 x
  | .coastSync x => opWord 0x95#8 x
  | .recordPush x => opWord 0x96#8 x
  | .framerSync x => opWord 0x97#8 x
  | .framerDibit x => opWord 0x98#8 x
  | .dispatch x => opWord 0x99#8 x
  | .frameTimestamp x => opWord 0x9A#8 x
  | .datapathReset x => opWord 0x9B#8 x
  | .reservedInternal low => 39#6 ++ low
  | .illegal00 x => opWord 0x00#8 x
  | .illegal06 low => 3#7 ++ low
  | .illegal08 low => 1#5 ++ low
  | .illegal10 low => 1#4 ++ low
  | .illegal20 low => 1#3 ++ low
  | .illegal40 low => 1#2 ++ low
  | .illegalA0 low => 5#3 ++ low
  | .illegalC0 low => 3#2 ++ low

/-- The payload words of an instruction (R113, R114). -/
def payloadOf : Instr → List Word
  | .configure _ spsWord => [spsWord]
  | .samples tsLo tsHi data => tsLo :: tsHi :: data
  | _ => []

/-- The words of an instruction: its command word, then its payload (R110). -/
def encode (i : Instr) : List Word := commandWord i :: payloadOf i

/-! ### The byte transport (R85) -/

/-- A word as bytes, least significant byte first (R85). -/
def bytesOfWord (w : Word) : List Byte :=
  [w.extractLsb' 0 8, w.extractLsb' 8 8, w.extractLsb' 16 8, w.extractLsb' 24 8]

/-- The word of four bytes, least significant byte first (R85). -/
def wordOfBytes (b0 b1 b2 b3 : Byte) : Word := b3 ++ b2 ++ b1 ++ b0

/-- The whole words of a byte sequence; bytes past the last whole word are no word yet. -/
def wordsOfBytes : List Byte → List Word
  | b0 :: b1 :: b2 :: b3 :: rest => wordOfBytes b0 b1 b2 b3 :: wordsOfBytes rest
  | _ => []

/-- The decoder on the bytes of a transport. -/
def decodeBytes (bytes : List Byte) : Decoded := decode (wordsOfBytes bytes)

/-! ### The opcode table's words -/

/-- The words of the instruction whose first `nbits` bits are `w`, bit 0 the least significant bit of the first word, and whose
bits above are 0: as many words as its command word fixes (R129). -/
def tableWords (nbits w : Nat) : List Word :=
  let bits := w % 2 ^ nbits
  (List.range (1 + payloadLength (BitVec.ofNat 32 bits))).map fun j => BitVec.ofNat 32 (bits >>> (32 * j))

/-- The instruction that the decoder reads from those words, laid out as the bytes of the transport. -/
def decodeTableWord (nbits w : Nat) : Option Instr :=
  match decodeBytes ((tableWords nbits w).flatMap bytesOfWord) with
  | .command i [] => some i
  | _ => none

end Sys2Proof
end

