-- ==== Sys2Proof/Config.lean ====
section
/-! DEFINITION. What an implementation of the block fixes (R5): the OPEN parameters, the integer constants the source
gives, and the free values of what the spec leaves open. -/

namespace Sys2Proof

/-- The parameters of R5 that have no value in the source ("a model takes it as an argument"), and SYNC_HOLDOFF (D43).
They are fixed when the block is instantiated and no command changes them (log 1). -/
structure Params where
  /-- SYNC_PATTERN, L dibits, oldest first. -/
  syncPattern : List Dibit
  /-- CONTROL_PATTERN, absent or L dibits. -/
  controlPattern : Option (List Dibit)
  /-- FRAME_BITS, even, 2 to 2^23 - 2. -/
  frameBits : Nat
  /-- MIN_STEP, in samples, above 0. -/
  minStep : F32
  /-- NOISE_STDDEV_MAX, at least 0. -/
  noiseStddevMax : F32
  /-- PREBIAS_NOISE_MAX, at least 0. -/
  prebiasNoiseMax : F32
  /-- PREBIAS_GAIN, in (0, 1]. -/
  prebiasGain : F32
  /-- NUDGE_MAX, in samples, at least 0. -/
  nudgeMax : F32
  /-- DELAY_SYMBOLS. -/
  delaySymbols : Nat
  /-- RECORD_ENABLE. -/
  recordEnable : Bool
  /-- SOFT_OUT_ENABLE. -/
  softOutEnable : Bool
  /-- SYNC_HOLDOFF, default L (D43). -/
  syncHoldoff : Nat
deriving DecidableEq, Repr

/-- L, the length of SYNC_PATTERN in symbols (R5). -/
def Params.len (c : Params) : Nat := c.syncPattern.length

/-- The parameter set of 95_test_vectors.md section 0 (its SYNC_PATTERN is item G2 of 93_implementation_defined.md;
MIN_STEP is its value at SPS 4).
DESIGN CHOICE (log 1), unsafe: an OPEN parameter has no value in the spec. -/
def Params.examples : Params where
  syncPattern := [3, 0, 3, 1, 3, 3, 1, 1, 2, 1]
  controlPattern := none
  frameBits := 8
  minStep := 0x3D800000#32
  noiseStddevMax := 0x3F800000#32
  prebiasNoiseMax := 0x3F800000#32
  prebiasGain := 0x3F000000#32
  nudgeMax := 0#32
  delaySymbols := 0
  recordEnable := false
  softOutEnable := false
  syncHoldoff := 10

namespace Config

/-- PREBIAS_SAMPLES (R5). -/
def prebiasSamples : Nat := 400
/-- SYNC_INTERVAL, in symbols (R5). -/
def syncInterval : Nat := 384
/-- COAST_MAX_BIT_ERRORS (R5). -/
def coastMaxBitErrors : Nat := 10
/-- LOSS_SYMBOLS (R5, 90_conflicts.md C1). -/
def lossSymbols : Nat := 800
/-- COARSE_STEP_DIV (R5): the coarse search starts with step SPS/8. -/
def coarseStepDiv : Nat := 8
/-- FINE_STEP_DIV (R5): the fine search starts with step SPS/16. -/
def fineStepDiv : Nat := 16
/-- The last register address; 0x1D to 0xFF are reserved (R50). -/
def lastRegister : BitVec 8 := 0x1C#8

/-- FREE VALUE: the sign and the payload of the NaN that an invalid operation on these operands gives. IEEE 754 leaves
them open and no run of the block holds a NaN (R10). UNVERIFIED, safe (log 5). -/
opaque nanBits : F32 → F32 → BitVec 23

/-- FREE VALUE: `floor` of a NaN or an infinity, which R9 defines for finite values only. Safe (log 6). -/
opaque floorNonFinite : F32 → Int

/-- FREE VALUE: SMP(j) for j at or above r, which no rule reads (R81). Safe (log 7). -/
opaque unreceivedSample : Nat → F32

/-- FREE VALUE: the quotient of a frame timestamp at `symbol_rate` 0; R297 (d) says that it never arises. Safe (log 8). -/
opaque timestampQuotientAtRateZero : Nat → Nat

end Config

end Sys2Proof
end

