-- ==== Sys2Proof/Machine/Binary32.lean ====
section
/-! DEFINITION. IEEE 754 binary32 arithmetic on bit patterns (R8, R10): each operation computes the exact result on integers
and rounds it once, to nearest, ties to even. -/

namespace Sys2Proof.Machine

/-! ### The fields and the classes of a pattern -/

/-- The sign bit. -/
def F32.sign (v : F32) : Bool := v.getLsbD 31

/-- The biased exponent field. -/
def F32.expField (v : F32) : Nat := (v.extractLsb' 23 8).toNat

/-- The fraction field. -/
def F32.fracField (v : F32) : Nat := (v.extractLsb' 0 23).toNat

/-- Neither an infinity nor a NaN. -/
def F32.isFinite (v : F32) : Bool := decide (F32.expField v ≠ 255)

/-- A NaN. -/
def F32.isNaN (v : F32) : Bool := decide (F32.expField v = 255 ∧ F32.fracField v ≠ 0)

/-- An infinity. -/
def F32.isInf (v : F32) : Bool := decide (F32.expField v = 255 ∧ F32.fracField v = 0)

/-- A zero of either sign. -/
def F32.isZero (v : F32) : Bool := decide (F32.expField v = 0 ∧ F32.fracField v = 0)

/-- The integer significand of a finite value: the value is ± significand × 2 ^ exponent. -/
def F32.significand (v : F32) : Nat :=
  if F32.expField v = 0 then F32.fracField v else F32.fracField v + 2 ^ 23

/-- The exponent of the least significant bit of a finite value's significand. -/
def F32.exponent (v : F32) : Int := (max (F32.expField v) 1 : Nat) - 150

/-- The significand with the value's sign. -/
def F32.signedSignificand (v : F32) : Int :=
  if F32.sign v then -(F32.significand v : Int) else (F32.significand v : Int)

/-- The number that a finite pattern stands for (R7). -/
def F32.value (v : F32) : ℚ := (F32.signedSignificand v : ℚ) * (2 : ℚ) ^ F32.exponent v

/-! ### Making patterns -/

/-- The zero of this sign. -/
def F32.zero (sign : Bool) : F32 := if sign then 0x80000000#32 else 0x00000000#32

/-- The infinity of this sign. -/
def F32.inf (sign : Bool) : F32 := if sign then 0xFF800000#32 else 0x7F800000#32

/-- The quiet NaN that an invalid operation on `a` and `b` gives; its sign and payload are free (log 5). -/
def F32.nan (a b : F32) : F32 :=
  let free := Config.nanBits a b
  0x7FC00000#32 ||| ((free.extractLsb' 22 1).zeroExtend 32 <<< 31) ||| (free.extractLsb' 0 22).zeroExtend 32

/-- The magnitude pattern nearest to `m × 2 ^ q`, ties to even, for `m` with a sticky flag (`sticky` says that the exact
value lies strictly between `m` and `m + 1` times 2 ^ q). A magnitude past the largest finite one becomes infinity. -/
def F32.roundMagnitude (m : Nat) (q : Int) (sticky : Bool) : Nat :=
  let bitLength : Nat := Nat.log2 m + 1
  -- the exponent of the last place that the result keeps
  let e : Int := max ((bitLength : Int) + q - 24) (-149)
  let kept : Nat :=
    if e ≤ q then m * 2 ^ (q - e).toNat
    else
      let d := (e - q).toNat
      let low := m % 2 ^ d
      let half := 2 ^ (d - 1)
      let floorPart := m / 2 ^ d
      if low > half ∨ (low = half ∧ (sticky = true ∨ floorPart % 2 = 1)) then floorPart + 1 else floorPart
  if m = 0 then 0 else min ((e + 149).toNat * 2 ^ 23 + kept) 0x7F800000

/-- The correctly rounded pattern of ± `m × 2 ^ q`. -/
def F32.round (sign : Bool) (m : Nat) (q : Int) (sticky : Bool) : F32 :=
  F32.zero sign ||| BitVec.ofNat 32 (F32.roundMagnitude m q sticky)

/-! ### Sign operations (exact) -/

/-- Negation: the sign bit flips. -/
def F32.neg (v : F32) : F32 := v ^^^ 0x80000000#32

/-- Magnitude: the sign bit is cleared. -/
def F32.abs (v : F32) : F32 := v &&& 0x7FFFFFFF#32

/-! ### Comparison (IEEE: false if an operand is a NaN, and the zeros are equal) -/

/-- The position of a pattern on the number line; the order of non-NaN values is the order of their keys. -/
def F32.key (v : F32) : Int :=
  let mag := (F32.abs v).toNat
  if F32.sign v then -(mag : Int) else (mag : Int)

def F32.lt (a b : F32) : Bool := !F32.isNaN a && !F32.isNaN b && decide (F32.key a < F32.key b)

def F32.le (a b : F32) : Bool := !F32.isNaN a && !F32.isNaN b && decide (F32.key a ≤ F32.key b)

def F32.eq (a b : F32) : Bool := !F32.isNaN a && !F32.isNaN b && decide (F32.key a = F32.key b)

/-! ### The rounded operations of R8 -/

/-- Addition. -/
def F32.add (a b : F32) : F32 :=
  if F32.isNaN a || F32.isNaN b then F32.nan a b
  else if F32.isInf a then (if F32.isInf b && F32.sign a != F32.sign b then F32.nan a b else a)
  else if F32.isInf b then b
  else
    let q := min (F32.exponent a) (F32.exponent b)
    let sum : Int := F32.signedSignificand a * 2 ^ (F32.exponent a - q).toNat
      + F32.signedSignificand b * 2 ^ (F32.exponent b - q).toNat
    -- an exact zero sum is +0 unless both operands are negative
    if sum = 0 then F32.zero (F32.sign a && F32.sign b)
    else F32.round (decide (sum < 0)) sum.natAbs q false

/-- Subtraction is addition of the negated operand. -/
def F32.sub (a b : F32) : F32 :=
  if F32.isNaN a || F32.isNaN b then F32.nan a b else F32.add a (F32.neg b)

/-- Multiplication. -/
def F32.mul (a b : F32) : F32 :=
  let sign := F32.sign a != F32.sign b
  if F32.isNaN a || F32.isNaN b then F32.nan a b
  else if F32.isInf a || F32.isInf b then
    (if F32.isZero a || F32.isZero b then F32.nan a b else F32.inf sign)
  else F32.round sign (F32.significand a * F32.significand b) (F32.exponent a + F32.exponent b) false

/-- Division. The quotient is taken with 64 further bits, more than rounding needs, and a sticky flag for the rest. -/
def F32.div (a b : F32) : F32 :=
  let sign := F32.sign a != F32.sign b
  if F32.isNaN a || F32.isNaN b then F32.nan a b
  else if F32.isInf a then (if F32.isInf b then F32.nan a b else F32.inf sign)
  else if F32.isInf b then F32.zero sign
  else if F32.isZero b then (if F32.isZero a then F32.nan a b else F32.inf sign)
  else
    let n := F32.significand a * 2 ^ 64
    let d := F32.significand b
    F32.round sign (n / d) (F32.exponent a - 64 - F32.exponent b) (decide (n % d ≠ 0))

/-- The integer square root below `2 ^ k`, bit by bit from above: the largest `x` with `root ≤ x < root + 2 ^ k` and
`x * x ≤ n`. -/
def F32.isqrt : Nat → Nat → Nat → Nat
  | 0, _, root => root
  | k + 1, n, root =>
    if (root + 2 ^ k) * (root + 2 ^ k) ≤ n then F32.isqrt k n (root + 2 ^ k) else F32.isqrt k n root

/-- Square root: of a negative value invalid, of a zero that zero. -/
def F32.sqrt (v : F32) : F32 :=
  if F32.isNaN v then F32.nan v v
  else if F32.isZero v then v
  else if F32.sign v then F32.nan v v
  else if F32.isInf v then v
  else
    -- widen to at least 64 bits with an even exponent
    let widen : Nat := 64 + (F32.exponent v % 2).toNat
    let n := F32.significand v * 2 ^ widen
    let root := F32.isqrt 48 n 0
    F32.round false root ((F32.exponent v - (widen : Int)) / 2) (decide (root * root ≠ n))

/-! ### Integers -/

/-- The greatest integer at or below a finite value (R9). -/
def F32.floor (v : F32) : Int :=
  if F32.isFinite v then
    if 0 ≤ F32.exponent v then F32.signedSignificand v * 2 ^ (F32.exponent v).toNat
    else F32.signedSignificand v / 2 ^ (-F32.exponent v).toNat
  else Config.floorNonFinite v

/-- An integer as an f32, correctly rounded; exact below 2 ^ 24 in magnitude. -/
def F32.ofInt (z : Int) : F32 := F32.round (decide (z < 0)) z.natAbs 0 false

end Sys2Proof.Machine
end

