-- ==== Sys2Proof/Machine/Numerics.lean ====
section
/-! DEFINITION. The parameter NUMERICS (R5, R8): what the arithmetic rules need of a number type, and its default BINARY32.
All the pseudocode is written once over it ("the same pseudocode is read over the real numbers", R8): the machine runs it at
`words32`, and Machine/RealNumerics.lean holds the reading REAL. -/

namespace Sys2Proof.Machine

/-- The named real constants of R5 and R8. -/
inductive RealConst where
  | zero | one | two
  /-- π -/
  | pi
  /-- 2π -/
  | twoPi
  /-- π/2, the quadrant boundary (R181). -/
  | halfPi
  /-- BALANCE_LIMIT = π/3. -/
  | balanceLimit
  /-- π/4 -/
  | quarterPi
  /-- 3π/4 -/
  | threeQuarterPi
  /-- RECAL_THRESHOLD = π/8. -/
  | recalThreshold
  /-- GAIN_REF_SPS = 5.208. -/
  | gainRefSps
  /-- GAIN_REF = 5.7. -/
  | gainRef
  /-- GAIN_HALF_RANGE = 0.5. -/
  | gainHalfRange
  /-- LOOP_GAIN = 0.15. -/
  | loopGain
  /-- SYNC_DETECT_THRESHOLD = 40.0. -/
  | syncDetectThreshold
  /-- OPTIMIZED_THRESHOLD = 40.0. -/
  | optimizedThreshold
  /-- SPS_MIN = 2.0. -/
  | spsMin
  /-- SPS_MAX = 32.0. -/
  | spsMax
  /-- SAMPLE_MAX_ABS = 2^20. -/
  | sampleMaxAbs
deriving DecidableEq, Repr

/-- A number type with the operations of R8 and R9 and the comparisons of R10. -/
structure Numerics (α : Type) where
  add : α → α → α
  sub : α → α → α
  mul : α → α → α
  div : α → α → α
  sqrt : α → α
  neg : α → α
  abs : α → α
  lt : α → α → Bool
  le : α → α → Bool
  eq : α → α → Bool
  /-- The greatest integer at or below a value (R9). -/
  floor : α → Int
  /-- The number nearest to an integer. -/
  ofInt : Int → α
  /-- The number nearest to a named real constant (R8). -/
  const : RealConst → α

/-- The binary32 pattern nearest to each named real constant (R8; the patterns of 40_equalizer.md and 95_test_vectors.md). -/
def binary32Const : RealConst → F32
  | .zero => 0x00000000#32
  | .one => 0x3F800000#32
  | .two => 0x40000000#32
  | .pi => 0x40490FDB#32
  | .twoPi => 0x40C90FDB#32
  | .halfPi => 0x3FC90FDB#32
  | .balanceLimit => 0x3F860A92#32
  | .quarterPi => 0x3F490FDB#32
  | .threeQuarterPi => 0x4016CBE4#32
  | .recalThreshold => 0x3EC90FDB#32
  | .gainRefSps => 0x40A6A7F0#32
  | .gainRef => 0x40B66666#32
  | .gainHalfRange => 0x3F000000#32
  | .loopGain => 0x3E19999A#32
  | .syncDetectThreshold => 0x42200000#32
  | .optimizedThreshold => 0x42200000#32
  | .spsMin => 0x40000000#32
  | .spsMax => 0x42000000#32
  | .sampleMaxAbs => 0x49800000#32

/-- NUMERICS = BINARY32, the default (R8). -/
def binary32 : Numerics F32 where
  add := F32.add
  sub := F32.sub
  mul := F32.mul
  div := F32.div
  sqrt := F32.sqrt
  neg := F32.neg
  abs := F32.abs
  lt := F32.lt
  le := F32.le
  eq := F32.eq
  floor := F32.floor
  ofInt := F32.ofInt
  const := binary32Const

/-- How the block reads its numbers (R8): a NUMERICS, and how the numbers meet the words of the input and of the output. Every
operation of the block is written once over a `Reading`; the machine runs at `words32`, and `reals` reads the same text over
the real numbers (Machine/RealNumerics.lean). -/
structure Reading (α ω : Type) where
  num : Numerics α
  /-- The number that a finite binary32 pattern of the input or of a parameter stands for (R7, R84). -/
  ofPattern : F32 → α
  /-- A word of a record that is no number. -/
  ofWord : Word → ω
  /-- A number of a record (R84). -/
  ofNumber : α → ω
  /-- More iterations than the search of R189 takes from this first step with this MIN_STEP (log 10). -/
  searchFuel : α → α → Nat

/-- More iterations than the search can take at binary32: a move raises the score, of which there are at most 2^32 values, and
each other iteration lowers the step, of which there are at most 2^31 values at or above 0 (R189 (a)). DEDUCED (log 10). -/
def searchFuel : Nat := 2 ^ 33

/-- The reading of the machine: a number is its binary32 pattern and is carried in one word (R7, R84). -/
def words32 : Reading F32 Word where
  num := binary32
  ofPattern v := v
  ofWord w := w
  ofNumber v := v
  searchFuel _ _ := searchFuel

/-- `clamp(v, lo, hi)`: `lo` if v < lo, `hi` if v > hi, else v (R9). -/
def clamp {α : Type} (N : Numerics α) (v lo hi : α) : α :=
  if N.lt v lo then lo else if N.lt hi v then hi else v

/-- The least integer at or above a value, as LOOKAHEAD and HISTORY_MIN use it (R5). -/
def ceil {α : Type} (N : Numerics α) (v : α) : Int := -N.floor (N.neg v)

/-- The sum of a list in order, starting from +0.0 (R8: "Sums over k are accumulated from k = 0 upward"). -/
def sumInOrder {α : Type} (N : Numerics α) (vs : List α) : α := vs.foldl N.add (N.const .zero)

end Sys2Proof.Machine
end

