-- ==== Sys2Proof/Machine/Operands.lean ====
section
/-! DEFINITION. The operand forms of the five host commands (R111 to R117) and the checks that R291 and R293 make of them. -/

namespace Sys2Proof.Machine

/-- SYMBOL_RATE: OPERAND zero-extended, with no scaling (R111, R113). -/
def symbolRateOf (rate : Operand) : BitVec 32 := rate.zeroExtend 32

/-- An f32 operand: the payload word is its pattern (R84), read as a number. -/
def numberOfWord {α ω : Type} (K : Reading α ω) (w : Word) : α := K.ofPattern w

/-- The timestamp of SAMPLES: TS_HI above TS_LO (R114, R292). -/
def timestampOf (tsLo tsHi : Word) : BitVec 64 := tsHi ++ tsLo

/-- The configuration that CONFIGURE accepts (R291): a rate that is not 0 and a finite SPS in [SPS_MIN, SPS_MAX]. -/
def configurationValid {α ω : Type} (K : Reading α ω) (rate : Operand) (spsWord : Word) : Bool :=
  decide (rate ≠ 0#24) && F32.isFinite spsWord
    && !K.num.lt (numberOfWord K spsWord) (K.num.const .spsMin)
    && !K.num.lt (K.num.const .spsMax) (numberOfWord K spsWord)

/-- A sample that SAMPLES accepts (R293): finite, and of magnitude at most SAMPLE_MAX_ABS. -/
def sampleValid {α ω : Type} (K : Reading α ω) (w : Word) : Bool :=
  F32.isFinite w && !K.num.lt (K.num.const .sampleMaxAbs) (K.num.abs (numberOfWord K w))

/-- VALIDATE_SAMPLES: the whole block is checked (R293). -/
def samplesValid {α ω : Type} (K : Reading α ω) (ws : List Word) : Bool := ws.all (sampleValid K)

/-- The reserved OPERAND bits of FLUSH and RESET are all of [23:0] (R119). -/
def reservedOperandClear (x : Operand) : Bool := decide (x = 0#24)

/-- The reserved OPERAND bits of READ_REG are [23:8] (R117, R119). -/
def reservedAddressBitsClear (x : BitVec 16) : Bool := decide (x = 0#16)

/-- An implemented register address, 0x00 to 0x1C (R50). -/
def addressValid (a : BitVec 8) : Bool := decide (a.toNat ≤ Config.lastRegister.toNat)

end Sys2Proof.Machine
end

