-- ==== Sys2Proof/Machine/Records.lean ====
section
/-! DEFINITION. The output records (R120 to R126) and the words that carry them. -/

namespace Sys2Proof.Machine

/-- KIND of a SYNC record (R124, R225). -/
inductive SyncKind where
  | primary
  | control
  | lag
  | coast
deriving DecidableEq, Repr

/-- One record of the block's ordered output (R120). -/
inductive Record (α ω : Type) where
  /-- RESP: a register's address and value (R121). -/
  | resp (addr : BitVec 8) (value : ω)
  /-- SOFT: a hard decision and its soft symbol (R123). -/
  | soft (d : Dibit) (v : α)
  /-- SYNC: kind, recalibration flag, `synchronized` after it, optimisation score, applied shift (R124). -/
  | sync (kind : SyncKind) (recal syncAfter : Bool) (score shift : α)
  /-- FRAME: whether it is complete, its timestamp, its bits in order (R122). -/
  | frame (complete : Bool) (ts : BitVec 64) (bits : List Bool)
  /-- REC: one byte of the delayed recording (R125). -/
  | recording (byte : Byte)
  /-- FAULT: the fault code and the command word that raised it (R126). -/
  | fault (code : BitVec 8) (w : Word)
deriving DecidableEq, Repr

/-- The KIND code (R124). -/
def SyncKind.code : SyncKind → BitVec 2
  | .primary => 0#2
  | .control => 1#2
  | .lag => 2#2
  | .coast => 3#2

/-- One bit of a word. -/
def bitOf (b : Bool) : BitVec 1 := if b then 1#1 else 0#1

/-- A record header: TAG in bits [31:24], INFO in bits [23:0] (R120). -/
def header (tag : BitVec 8) (info : BitVec 24) : Word := tag ++ info

/-- The low and the high word of a 64-bit quantity, the low word first (R84). -/
def wordsOf64 (v : BitVec 64) : List Word := [v.extractLsb' 0 32, v.extractLsb' 32 32]

/-- Payload word `k` of a frame: frame bit `32 k + i` at bit `31 - i`, and 0 past the last bit (R86, R122). -/
def frameWord (bits : List Bool) (k : Nat) : Word :=
  (List.range 32).foldl (fun acc i => acc <<< 1 ||| (bitOf (bits.getD (32 * k + i) false)).zeroExtend 32) 0#32

/-- The frame's bits as words, `ceil(B / 32)` of them (R122). -/
def frameWords (bits : List Bool) : List Word :=
  (List.range ((bits.length + 31) / 32)).map (frameWord bits)

/-- The units of a record in a reading, header first (R120 to R126). -/
def Record.items {α ω : Type} (K : Reading α ω) : Record α ω → List ω
  | .resp addr value => [K.ofWord (header 0x01#8 (addr.zeroExtend 24)), value]
  | .soft d v => [K.ofWord (header 0x02#8 (d.zeroExtend 24)), K.ofNumber v]
  | .sync kind recal syncAfter score shift =>
    [K.ofWord (header 0x03#8 (0#20 ++ bitOf syncAfter ++ bitOf recal ++ kind.code)), K.ofNumber score, K.ofNumber shift]
  | .frame complete ts bits =>
    (header 0x04#8 (bitOf complete ++ BitVec.ofNat 23 bits.length) :: (wordsOf64 ts ++ frameWords bits)).map K.ofWord
  | .recording byte => [K.ofWord (header 0x05#8 (byte.zeroExtend 24))]
  | .fault code w => [K.ofWord (header 0x06#8 (code.zeroExtend 24)), K.ofWord w]

/-- The words of a record of the machine (R120 to R126). -/
def Record.words (record : Record F32 Word) : List Word := record.items words32

end Sys2Proof.Machine
end

