-- ==== Sys2Proof/Machine/State.lean ====
section
/-! DEFINITION. The architectural state of the block (10_state.md) as plain data, the reasons a step can stop, and the
power-on state (R350). -/

namespace Sys2Proof.Machine

/-- The framer's two states (R45). -/
inductive FramerState where
  | idle
  | assembling
deriving DecidableEq, Repr

/-- The sample history's cells (R39, R81): pairs of an absolute sample index and the sample, a binary32 pattern in the machine.
The smallest thing the history addresses is one whole sample (R84). Canonical form: indices strictly rising, and no cell that
holds what an unlisted index reads as (+0.0); see `Memory.wf`. -/
abbrev Memory (α : Type) := List (Nat × α)

/-- The architectural state. Every field of R32 to R47 has its name and width; `input` and `output` are the two word streams
(R110, R120); `params` are the parameters of R5, which no step changes (log 1). `α` is the type of the numbers that NUMERICS
fixes and `ω` that of the units of the output (R8). -/
structure State.Over (α ω : Type) where
  /-- The parameters of R5 that the block was instantiated with. -/
  params : Params
  /-- Words of the command input that have arrived and are not consumed, next word first (R110). -/
  input : List Word
  /-- Words emitted since power-on, oldest first (R120); unbounded (R361). -/
  output : List ω
  -- configuration (R32, R33)
  configured : Bool
  sps : α
  symbolRate : BitVec 32
  gainInitial : α
  gainMin : α
  gainMax : α
  -- equalizer (R34 to R36)
  balance : α
  gain : α
  synchronized : Bool
  -- symbol processor (R37 to R44)
  samplePoint : α
  r : BitVec 64
  p : BitVec 64
  smp : Memory α
  softHist : List α
  lagHist : List α
  hardHist : List Dibit
  symbolsSinceSync : BitVec 32
  prebiasDone : Bool
  totalSymbols : BitVec 32
  syncCount : BitVec 32
  invalidCount : BitVec 32
  lastScorePrimary : α
  lastScoreLag : α
  lastScoreControl : α
  lastCorrectedBits : BitVec 32
  delayFifo : List Dibit
  pack : List Dibit
  -- frame assembler (R45, R46)
  framerState : FramerState
  asmBits : List Bool
  asmOverflow : BitVec 32
  framesDispatched : BitVec 32
  refTs : BitVec 64
  dibitsSinceTs : BitVec 32
  -- fault state (R47)
  fault : Bool
  faultCode : BitVec 8
  faultInfo : BitVec 32
deriving DecidableEq, Repr

/-- The state of the machine: its numbers are binary32 patterns and its output is words (R7, R84). -/
abbrev State := State.Over F32 Word

/-- Why a step stops with a fault of the MODEL: never. The block's own faults (R320) are its sticky fault state, so taking
one is a next state, and a wait for input keeps the state (R110, R335). No definition raises a fault; safe. -/
inductive Fault where
deriving DecidableEq, Repr

/-- Why an instruction is refused. -/
inductive Refusal where
  /-- The instruction of this mnemonic has no meaning yet. Raised only by an arm of `exec` that says so; no arm does; safe. -/
  | notModelled (mnemonic : String)
deriving DecidableEq, Repr

/-- The power-on column of R350 for a block instantiated with these parameters, nothing consumed and nothing emitted; `zero` is
the number 0.0. -/
def State.initial {α ω : Type} (zero : α) (c : Params) : State.Over α ω where
  params := c
  input := []
  output := []
  configured := false
  sps := zero
  symbolRate := 0#32
  gainInitial := zero
  gainMin := zero
  gainMax := zero
  balance := zero
  gain := zero
  synchronized := false
  samplePoint := zero
  r := 0#64
  p := 0#64
  smp := []
  softHist := List.replicate c.len zero
  lagHist := List.replicate c.len zero
  hardHist := List.replicate c.len 0#2
  symbolsSinceSync := 0#32
  prebiasDone := false
  totalSymbols := 0#32
  syncCount := 0#32
  invalidCount := 0#32
  lastScorePrimary := zero
  lastScoreLag := zero
  lastScoreControl := zero
  lastCorrectedBits := 0#32
  delayFifo := []
  pack := []
  framerState := .idle
  asmBits := []
  asmOverflow := 0#32
  framesDispatched := 0#32
  refTs := 0#64
  dibitsSinceTs := 0#32
  fault := false
  faultCode := 0#8
  faultInfo := 0#32

/-- The power-on state of the machine (R350). -/
def State.powerOn (c : Params) : State := State.initial 0#32 c

/-- The machine right after reset: the power-on state (R350) of a block with the example parameters.
DESIGN CHOICE (log 1) for the parameters only. -/
def State.reset : State := State.powerOn Params.examples

end Sys2Proof.Machine
end

