-- ==== Sys2Proof/Machine/Ops.lean ====
section
/-! DEFINITION. The shared operations over the state: the sample history (R81), the output stream (R120), the counters (R297),
taking a fault and leaving the fault state (R322, R325), and the fault gate (R323). -/

namespace Sys2Proof.Machine

variable {α ω : Type}

/-! ### The sample history (R39, R81) -/

/-- What an index that the history does not list reads as: +0.0, the silence of R81. -/
def Memory.unlisted (N : Numerics α) : α := N.const .zero

/-- The sample at an index. -/
def Memory.read (N : Numerics α) : Memory α → Nat → α
  | [], _ => Memory.unlisted N
  | (b, v) :: rest, a => if b = a then v else Memory.read N rest a

/-- The history with `v` at index `a`, in canonical form. -/
def Memory.write [DecidableEq α] (N : Numerics α) : Memory α → Nat → α → Memory α
  | [], a, v => if v = Memory.unlisted N then [] else [(a, v)]
  | (b, w) :: rest, a, v =>
    if a < b then (if v = Memory.unlisted N then (b, w) :: rest else (a, v) :: (b, w) :: rest)
    else if a = b then (if v = Memory.unlisted N then rest else (a, v) :: rest)
    else (b, w) :: Memory.write N rest a v

/-- Every index of the list is above `a`. -/
def Memory.above (a : Nat) (m : Memory α) : Bool := m.all fun cell => decide (a < cell.1)

/-- The canonical form: indices strictly rising, and no cell that holds what an unlisted index reads as. -/
def Memory.wf [DecidableEq α] (N : Numerics α) : Memory α → Bool
  | [] => true
  | (a, v) :: rest => decide (v ≠ Memory.unlisted N) && Memory.above a rest && Memory.wf N rest

/-- SMP(j) (R81): +0.0 below index 0, the sample below r. No rule reads it at or above r; what it is there is free (log 7). -/
def State.Over.sampleAt (K : Reading α ω) (s : State.Over α ω) (j : Int) : α :=
  if j < 0 then Memory.unlisted K.num
  else if j.toNat < s.r.toNat then Memory.read K.num s.smp j.toNat
  else K.ofPattern (Config.unreceivedSample j.toNat)

/-- HistAppend(v) (R81): SMP(r) is v, and r goes up by one. -/
def State.histAppend [DecidableEq α] (K : Reading α ω) (v : α) (s : State.Over α ω) : State.Over α ω :=
  { s with smp := Memory.write K.num s.smp s.r.toNat v, r := s.r + 1#64 }

/-- HistAppend of a block of samples, in order (R292). -/
def State.histAppendAll [DecidableEq α] (K : Reading α ω) (vs : List α) (s : State.Over α ω) : State.Over α ω :=
  vs.foldl (fun t v => State.histAppend K v t) s

/-! ### Streams -/

/-- Emit(record) (R120): the record's words go to the end of the output stream. -/
def State.emit (K : Reading α ω) (record : Record α ω) (s : State.Over α ω) : State.Over α ω :=
  { s with output := s.output ++ record.items K }

/-- The state with the input words of a command consumed (R110). -/
def State.withInput (rest : List Word) (s : State.Over α ω) : State.Over α ω := { s with input := rest }

/-! ### Counters (R9, R297) -/

/-- `wrap32(v)`: v mod 2^32. -/
def wrap32 (v : Nat) : BitVec 32 := BitVec.ofNat 32 v

/-- `sat32(v)`: min(v, 2^32 - 1). -/
def sat32 (v : Nat) : BitVec 32 := BitVec.ofNat 32 (min v (2 ^ 32 - 1))

/-- `wrap64(v)`: v mod 2^64. -/
def wrap64 (v : Nat) : BitVec 64 := BitVec.ofNat 64 v

/-! ### Faults (R320 to R325) -/

/-- The fault causes of R320. -/
inductive FaultCause where
  | illegalOpcode
  | internalOpcode
  | reservedNonzero
  | notConfigured
  | configInvalid
  | sampleNotFinite
  | badRegister
deriving DecidableEq, Repr

/-- The fault codes (R320). -/
def FaultCause.code : FaultCause → BitVec 8
  | .illegalOpcode => 1#8
  | .internalOpcode => 2#8
  | .reservedNonzero => 3#8
  | .notConfigured => 4#8
  | .configInvalid => 5#8
  | .sampleNotFinite => 6#8
  | .badRegister => 7#8

/-- Fault entry, `raise Fault(code, w)` (R322): the fault state takes the code and the command word, one FAULT record is
emitted, and the command has no other effect. -/
def raiseFault (K : Reading α ω) (cause : FaultCause) (w : Word) (s : State.Over α ω) : State.Over α ω :=
  State.emit K (.fault cause.code w) { s with fault := true, faultCode := cause.code, faultInfo := w }

/-- Fault exit (R325): the fault state is cleared. RESET does this after its datapath reset (R294). -/
def clearFault (s : State.Over α ω) : State.Over α ω := { s with fault := false, faultCode := 0#8, faultInfo := 0#32 }

/-- The fault gate (R323): while faulted a command is consumed and ignored. -/
def faultGate (act : State.Over α ω → State.Over α ω) (s : State.Over α ω) : State.Over α ω := if s.fault then s else act s

/-- A command word that only raises a fault: an internal id issued by the host, or an illegal opcode (R119). -/
def raiseOnly (K : Reading α ω) (cause : FaultCause) (w : Word) (s : State.Over α ω) : State.Over α ω :=
  faultGate (raiseFault K cause w) s

end Sys2Proof.Machine
end

