-- ==== Sys2Proof/Machine/IllegalOpcodes.lean ====
section
/-! DEFINITION. The command words that name no operation (R112, R119): the reserved internal ids raise INTERNAL_OPCODE, every
other one ILLEGAL_OPCODE. -/

namespace Sys2Proof.Machine

def execReservedInternal (low : BitVec 26) (s : State) : Host.Outcome State Fault Refusal :=
  .next (raiseOnly words32 .internalOpcode (commandWord (.reservedInternal low)) s)

def execIllegal00 (x : Operand) (s : State) : Host.Outcome State Fault Refusal :=
  .next (raiseOnly words32 .illegalOpcode (commandWord (.illegal00 x)) s)

def execIllegal06 (low : BitVec 25) (s : State) : Host.Outcome State Fault Refusal :=
  .next (raiseOnly words32 .illegalOpcode (commandWord (.illegal06 low)) s)

def execIllegal08 (low : BitVec 27) (s : State) : Host.Outcome State Fault Refusal :=
  .next (raiseOnly words32 .illegalOpcode (commandWord (.illegal08 low)) s)

def execIllegal10 (low : BitVec 28) (s : State) : Host.Outcome State Fault Refusal :=
  .next (raiseOnly words32 .illegalOpcode (commandWord (.illegal10 low)) s)

def execIllegal20 (low : BitVec 29) (s : State) : Host.Outcome State Fault Refusal :=
  .next (raiseOnly words32 .illegalOpcode (commandWord (.illegal20 low)) s)

def execIllegal40 (low : BitVec 30) (s : State) : Host.Outcome State Fault Refusal :=
  .next (raiseOnly words32 .illegalOpcode (commandWord (.illegal40 low)) s)

def execIllegalA0 (low : BitVec 29) (s : State) : Host.Outcome State Fault Refusal :=
  .next (raiseOnly words32 .illegalOpcode (commandWord (.illegalA0 low)) s)

def execIllegalC0 (low : BitVec 30) (s : State) : Host.Outcome State Fault Refusal :=
  .next (raiseOnly words32 .illegalOpcode (commandWord (.illegalC0 low)) s)

end Sys2Proof.Machine
end

