-- ==== Sys2Proof/Machine/DatapathReset.lean ====
section
/-! DEFINITION. DATAPATH_RESET (70_reset_and_hazards.md, R350, R351), and what the host gets when it issues its id (R118). -/

namespace Sys2Proof.Machine

/-- DATAPATH_RESET (R351): every datapath field takes its initial value; the configuration, the fault state, the parameters
and the streams are kept. -/
def opDatapathReset {α ω : Type} (K : Reading α ω) (s : State.Over α ω) : State.Over α ω :=
  let zero := K.num.const .zero
  { s with
    balance := zero, gain := s.gainInitial, synchronized := false
    samplePoint := s.sps
    smp := [], r := 0#64, p := 0#64
    softHist := List.replicate s.params.len zero
    lagHist := List.replicate s.params.len zero
    hardHist := List.replicate s.params.len 0#2
    symbolsSinceSync := 0#32, totalSymbols := 0#32, prebiasDone := false
    syncCount := 0#32, invalidCount := 0#32
    lastScorePrimary := zero, lastScoreLag := zero, lastScoreControl := zero
    lastCorrectedBits := 0#32
    delayFifo := [], pack := []
    framerState := .idle, asmBits := [], asmOverflow := 0#32, framesDispatched := 0#32
    refTs := 0#64, dibitsSinceTs := 0#32 }

/-- The id 0x9B as a host command: INTERNAL_OPCODE (R118, R119). -/
def execDatapathReset (x : Operand) (s : State) : Host.Outcome State Fault Refusal :=
  .next (raiseOnly words32 .internalOpcode (commandWord (.datapathReset x)) s)

end Sys2Proof.Machine
end

