-- ==== Sys2Proof/Machine/Equalizer.lean ====
section
/-! DEFINITION. The equalizer family (40_equalizer.md, R150 to R155): the internal operations EQUALIZE, UNWRAP, EQ_SYMBOL,
EQ_CONFIGURE, EQ_RESET and EQ_APPLY, and what the host gets when it issues their ids (R118). -/

namespace Sys2Proof.Machine

/-! ### The arithmetic rules, over any NUMERICS -/

/-- What the equalizer and detector operations read: the sample history and the corrections. -/
structure Signal (α : Type) where
  /-- SMP (R81). -/
  smp : Int → α
  balance : α
  gain : α
  sps : α

/-- A Correction (R188). -/
structure Correction (α : Type) where
  additionalOffset : α
  timingAdjustment : α
  balAdj : α
  gainAdj : α
  detScore : α
  optScore : α
  correctedBits : Nat
deriving DecidableEq, Repr

/-- EQUALIZE(s) (R150): `(s + balance) * gain`. -/
def equalize {α : Type} (N : Numerics α) (g : Signal α) (s : α) : α := N.mul (N.add s g.balance) g.gain

/-- UNWRAP(e) (R151): one step of 2π, with strict comparisons. -/
def unwrap {α : Type} (N : Numerics α) (e : α) : α :=
  if N.lt (N.const .pi) e then N.sub e (N.const .twoPi)
  else if N.lt e (N.neg (N.const .pi)) then N.add e (N.const .twoPi)
  else e

/-- The equalized and unwrapped sample at an index, as R152 and R223 read it. -/
def eqSample {α : Type} (N : Numerics α) (g : Signal α) (i : Int) : α := unwrap N (equalize N g (g.smp i))

/-- The fractional part of a time's offset, rounded: `off - floor(off)` (R152). -/
def interpolationFraction {α : Type} (N : Numerics α) (off : α) : α := N.sub off (N.ofInt (N.floor off))

/-- EQ_SYMBOL(n, off) (R152): linear interpolation between the two equalized samples around the time (n, off). -/
def eqSymbol {α : Type} (N : Numerics α) (g : Signal α) (n : Int) (off : α) : α :=
  let i := n + N.floor off
  let e1 := eqSample N g i
  let e2 := eqSample N g (i + 1)
  N.add e1 (N.mul (N.sub e2 e1) (interpolationFraction N off))

/-- The gain limits that EQ_CONFIGURE computes (R153). -/
structure GainLimits (α : Type) where
  initial : α
  min : α
  max : α
deriving DecidableEq, Repr

/-- The arithmetic of EQ_CONFIGURE(sps) (R153). -/
def gainLimits {α : Type} (N : Numerics α) (sps : α) : GainLimits α :=
  let ratio := N.div sps (N.const .gainRefSps)
  { initial := N.mul (N.const .gainRef) ratio
    min := N.mul (N.sub (N.const .gainRef) (N.const .gainHalfRange)) ratio
    max := N.mul (N.add (N.const .gainRef) (N.const .gainHalfRange)) ratio }

/-- LOOP_GAIN if synchronized, else 1.0 (R155). -/
def loopFactor {α : Type} (N : Numerics α) (synchronized : Bool) : α :=
  if synchronized then N.const .loopGain else N.const .one

/-- The balance after EQ_APPLY's update (R155). -/
def appliedBalance {α : Type} (N : Numerics α) (synchronized : Bool) (balance balAdj : α) : α :=
  clamp N (N.add balance (N.mul (loopFactor N synchronized) balAdj)) (N.neg (N.const .balanceLimit))
    (N.const .balanceLimit)

/-- The gain after EQ_APPLY's update (R155). -/
def appliedGain {α : Type} (N : Numerics α) (synchronized : Bool) (gain gainAdj lo hi : α) : α :=
  clamp N (N.add gain (N.mul (loopFactor N synchronized) gainAdj)) lo hi

/-- EQ_APPLY's recalibration test (R155): while synchronized, `(1 - LOOP_GAIN) * |balAdj| > RECAL_THRESHOLD`. -/
def recalibrates {α : Type} (N : Numerics α) (synchronized : Bool) (balAdj : α) : Bool :=
  synchronized &&
    N.lt (N.const .recalThreshold) (N.mul (N.sub (N.const .one) (N.const .loopGain)) (N.abs balAdj))

/-! ### The operations on the state -/

variable {α ω : Type}

/-- What the operations read of the state. -/
def State.Over.signal (K : Reading α ω) (s : State.Over α ω) : Signal α where
  smp := s.sampleAt K
  balance := s.balance
  gain := s.gain
  sps := s.sps

/-- EQUALIZE (R150). -/
def opEqualize (K : Reading α ω) (v : α) (s : State.Over α ω) : α := equalize K.num (s.signal K) v

/-- EQ_SYMBOL (R152). -/
def opEqSymbol (K : Reading α ω) (n : Int) (off : α) (s : State.Over α ω) : α := eqSymbol K.num (s.signal K) n off

/-- EQ_CONFIGURE (R153): writes the three gain limits, not `gain`. -/
def opEqConfigure (K : Reading α ω) (sps : α) (s : State.Over α ω) : State.Over α ω :=
  let limits := gainLimits K.num sps
  { s with gainInitial := limits.initial, gainMin := limits.min, gainMax := limits.max }

/-- EQ_RESET (R154): clears `synchronized` and restores `gain`; `balance` is kept. -/
def opEqReset (s : State.Over α ω) : State.Over α ω := { s with synchronized := false, gain := s.gainInitial }

/-- EQ_APPLY (R155): the damped or full update with its clamps, then the recalibration test; answers whether it reset. -/
def opEqApply (K : Reading α ω) (c : Correction α) (s : State.Over α ω) : State.Over α ω × Bool :=
  let updated : State.Over α ω :=
    { s with
      balance := appliedBalance K.num s.synchronized s.balance c.balAdj
      gain := appliedGain K.num s.synchronized s.gain c.gainAdj s.gainMin s.gainMax }
  if recalibrates K.num s.synchronized c.balAdj then (opEqReset updated, true) else (updated, false)

/-! ### The ids as host commands: INTERNAL_OPCODE (R118, R119) -/

def execEqualize (x : Operand) (s : State) : Host.Outcome State Fault Refusal :=
  .next (raiseOnly words32 .internalOpcode (commandWord (.equalize x)) s)

def execUnwrap (x : Operand) (s : State) : Host.Outcome State Fault Refusal :=
  .next (raiseOnly words32 .internalOpcode (commandWord (.unwrap x)) s)

def execEqSymbol (x : Operand) (s : State) : Host.Outcome State Fault Refusal :=
  .next (raiseOnly words32 .internalOpcode (commandWord (.eqSymbol x)) s)

def execEqConfigure (x : Operand) (s : State) : Host.Outcome State Fault Refusal :=
  .next (raiseOnly words32 .internalOpcode (commandWord (.eqConfigure x)) s)

def execEqReset (x : Operand) (s : State) : Host.Outcome State Fault Refusal :=
  .next (raiseOnly words32 .internalOpcode (commandWord (.eqReset x)) s)

def execEqApply (x : Operand) (s : State) : Host.Outcome State Fault Refusal :=
  .next (raiseOnly words32 .internalOpcode (commandWord (.eqApply x)) s)

end Sys2Proof.Machine
end

