-- ==== Sys2Proof/Machine/SyncDetector.lean ====
section
/-! DEFINITION. The dibit primitive, the correlators and the timing optimisation (41_sync_detector.md, R180 to R189), and what
the host gets when it issues their ids (R118). -/

namespace Sys2Proof.Machine

/-! ### The dibit primitive -/

/-- IDEAL_PHASE(d) (R180): b1 is the sign, b0 is 1 for an outer quadrant. -/
def idealPhase {α : Type} (N : Numerics α) (d : Dibit) : α :=
  let magnitude := if d.getLsbD 0 then N.const .threeQuarterPi else N.const .quarterPi
  if d.getLsbD 1 then N.neg magnitude else magnitude

/-- TO_SYMBOL(θ) (R181). -/
def toSymbol {α : Type} (N : Numerics α) (v : α) : Dibit :=
  if N.le (N.const .zero) v then (if N.lt (N.const .halfPi) v then 1#2 else 0#2)
  else (if N.lt v (N.neg (N.const .halfPi)) then 3#2 else 2#2)

/-- BIT_DISTANCE(a, b) (R182): the number of bits that differ. -/
def bitDistance (a b : Dibit) : Nat :=
  let x := a ^^^ b
  (if x.getLsbD 0 then 1 else 0) + (if x.getLsbD 1 then 1 else 0)

/-- The bit distance between two sequences of dibits, place by place (R184, R187). -/
def bitErrors (ds pat : List Dibit) : Nat := (List.zipWith bitDistance ds pat).sum

/-! ### The correlators -/

/-- SOFT_SCORE(hist, pat) (R183): the multiply-accumulate, oldest first, the product rounded and then the sum. -/
def softScore {α : Type} (N : Numerics α) (hist : List α) (pat : List Dibit) : α :=
  sumInOrder N (List.zipWith (fun v d => N.mul v (idealPhase N d)) hist pat)

/-- STDDEV(v) (R185): the population standard deviation and the mean. -/
def stddev {α : Type} (N : Numerics α) (vs : List α) : α × α :=
  let n := N.ofInt vs.length
  let mean := N.div (sumInOrder N vs) n
  let squares := vs.map fun v => let d := N.sub v mean; N.mul d d
  (N.sqrt (N.div (sumInOrder N squares) n), mean)

/-! ### The timing optimisation -/

/-- The offset of symbol instant k of L instants spaced SPS apart that end at `t`: `t - (L - 1 - k) * sps` (R186). -/
def instant {α : Type} (N : Numerics α) (sps t : α) (len k : Nat) : α :=
  N.sub t (N.mul (N.ofInt ((len : Int) - 1 - (k : Int))) sps)

/-- The signal resampled at the L symbol instants that end at the time (n, t), oldest first (R186, R187). -/
def resample {α : Type} (N : Numerics α) (g : Signal α) (len : Nat) (n : Int) (t : α) : List α :=
  (List.range len).map fun k => eqSymbol N g n (instant N g.sps t len k)

/-- SCORE_AT(pat, n, t) (R186). -/
def scoreAt {α : Type} (N : Numerics α) (g : Signal α) (pat : List Dibit) (n : Int) (t : α) : α :=
  softScore N (resample N g pat.length n t) pat

/-- What MEASURE answers (R187). -/
structure Measurement (α : Type) where
  balAdj : α
  gainAdj : α
  correctedBits : Nat
deriving DecidableEq, Repr

/-- MEASURE's computation from the resampled symbols (R187). -/
def measurement {α : Type} (N : Numerics α) (gain : α) (vs : List α) (pat : List Dibit) : Measurement α :=
  let deviations := List.zipWith (fun v d => N.sub v (idealPhase N d)) vs pat
  let err := N.div (sumInOrder N deviations) (N.ofInt pat.length)
  let ideal := sumInOrder N (pat.map fun d => N.abs (idealPhase N d))
  let spread := sumInOrder N (vs.map fun v => N.abs (N.sub v err))
  { balAdj := N.div (N.neg err) gain
    gainAdj :=
      if N.lt (N.const .zero) spread then N.sub (N.mul gain (N.div ideal spread)) gain else N.const .zero
    correctedBits := bitErrors (vs.map (toSymbol N)) pat }

/-- MEASURE(pat, n, t) (R187). -/
def measure {α : Type} (N : Numerics α) (g : Signal α) (pat : List Dibit) (n : Int) (t : α) : Measurement α :=
  measurement N g.gain (resample N g pat.length n t) pat

/-- `sr > s` where a missing candidate counts as -inf (R189). -/
def candidateAbove {α : Type} (N : Numerics α) (candidate : Option α) (s : α) : Bool :=
  match candidate with
  | none => false
  | some v => N.lt s v

/-- `sr >= sl` where a missing candidate counts as -inf (R189). -/
def candidateAtLeast {α : Type} (N : Numerics α) (a b : Option α) : Bool :=
  match a, b with
  | some v, some w => N.le w v
  | some v, none => N.le v v
  | none, some _ => false
  | none, none => true

/-- Where the hill climb of R189 stands. -/
structure Search (α : Type) where
  off : α
  score : α
  step : α
deriving DecidableEq, Repr

/-- One iteration of the loop of R189: to the better neighbour within the window, right on a tie, or halve the step. -/
def searchStep {α : Type} (N : Numerics α) (scoreOf : α → α) (window : α) (c : Search α) : Search α :=
  let right := N.add c.off c.step
  let left := N.sub c.off c.step
  let sr : Option α := if N.le right window then some (scoreOf right) else none
  let sl : Option α := if N.le (N.neg window) left then some (scoreOf left) else none
  if candidateAbove N sr c.score && candidateAtLeast N sr sl then
    { c with off := right, score := sr.getD c.score }
  else if candidateAbove N sl c.score then
    { c with off := left, score := sl.getD c.score }
  else { c with step := N.div c.step (N.const .two) }

/-- The loop of R189: while the step is at least MIN_STEP. The fuel only bounds the recursion (log 10). -/
def search {α : Type} (N : Numerics α) (scoreOf : α → α) (window minStep : α) : Nat → Search α → Search α
  | 0, c => c
  | fuel + 1, c =>
    if N.le minStep c.step then search N scoreOf window minStep fuel (searchStep N scoreOf window c) else c

/-- The search window W and the first step: coarse while synchronized, fine while not (R189, R5). -/
def searchWindow {α : Type} (N : Numerics α) (sps : α) (synchronized : Bool) : α :=
  if synchronized then N.div sps (N.const .two) else sps

def searchFirstStep {α : Type} (N : Numerics α) (sps : α) (synchronized : Bool) : α :=
  N.div sps (N.ofInt (if synchronized then Config.coarseStepDiv else Config.fineStepDiv))

/-- The raw samples from index `lo` to index `hi` (R189). -/
def rawWindow {α : Type} (g : Signal α) (lo hi : Int) : List α :=
  (List.range (hi - lo + 1).toNat).map fun j : Nat => g.smp (lo + (j : Int))

/-- The samples that the pattern reads at zero search offset, for the noise test (R189 (a), D24). -/
def noiseWindow {α : Type} (N : Numerics α) (g : Signal α) (len : Nat) (n : Int) (base : α) : List α :=
  rawWindow g (n + N.floor (N.sub base (N.mul (N.ofInt ((len : Int) - 1)) g.sps))) (n + N.floor base + 1)

/-- What OPTIMIZE answers: a valid Correction, or the INVALID_SYNC_DETECTION sentinel, of which no rule reads a field (R188). -/
abbrev OptimizeResult (α : Type) := Option (Correction α)

/-- `c.valid` (R188). -/
def valid {α : Type} (c : OptimizeResult α) : Bool := c.isSome

/-- OPTIMIZE(pat, add, det, n, mu) (R189). -/
def optimize {α : Type} (N : Numerics α) (g : Signal α) (synchronized : Bool) (noiseMax minStep : α) (fuel : Nat)
    (pat : List Dibit) (add det : α) (n : Int) (mu : α) : OptimizeResult α :=
  let base := N.add mu add
  if N.lt noiseMax (stddev N (noiseWindow N g pat.length n base)).1 then none
  else
    let scoreOf := fun off => scoreAt N g pat n (N.add base off)
    let found := search N scoreOf (searchWindow N g.sps synchronized) minStep fuel
      { off := N.const .zero, score := scoreOf (N.const .zero), step := searchFirstStep N g.sps synchronized }
    if N.lt (N.const .optimizedThreshold) found.score then
      let m := measure N g pat n (N.add base found.off)
      some
        { additionalOffset := add, timingAdjustment := found.off, balAdj := m.balAdj, gainAdj := m.gainAdj
          detScore := det, optScore := found.score, correctedBits := m.correctedBits }
    else none

/-! ### The operations on the state -/

variable {α ω : Type}

/-- HARD_ERRORS() (R184): the last L hard decisions against SYNC_PATTERN, never CONTROL_PATTERN. -/
def opHardErrors (s : State.Over α ω) : Nat := bitErrors s.hardHist s.params.syncPattern

/-- SCORE_AT (R186). -/
def opScoreAt (K : Reading α ω) (pat : List Dibit) (n : Int) (t : α) (s : State.Over α ω) : α :=
  scoreAt K.num (s.signal K) pat n t

/-- MEASURE (R187). -/
def opMeasure (K : Reading α ω) (pat : List Dibit) (n : Int) (t : α) (s : State.Over α ω) : Measurement α :=
  measure K.num (s.signal K) pat n t

/-- OPTIMIZE (R189). -/
def opOptimize (K : Reading α ω) (pat : List Dibit) (add det : α) (n : Int) (mu : α) (s : State.Over α ω) : OptimizeResult α :=
  optimize K.num (s.signal K) s.synchronized (K.ofPattern s.params.noiseStddevMax) (K.ofPattern s.params.minStep)
    (K.searchFuel (searchFirstStep K.num s.sps s.synchronized) (K.ofPattern s.params.minStep)) pat add det n mu

/-! ### The ids as host commands: INTERNAL_OPCODE (R118, R119) -/

def execIdealPhase (x : Operand) (s : State) : Host.Outcome State Fault Refusal :=
  .next (raiseOnly words32 .internalOpcode (commandWord (.idealPhase x)) s)

def execToSymbol (x : Operand) (s : State) : Host.Outcome State Fault Refusal :=
  .next (raiseOnly words32 .internalOpcode (commandWord (.toSymbol x)) s)

def execBitDistance (x : Operand) (s : State) : Host.Outcome State Fault Refusal :=
  .next (raiseOnly words32 .internalOpcode (commandWord (.bitDistance x)) s)

def execSoftScore (x : Operand) (s : State) : Host.Outcome State Fault Refusal :=
  .next (raiseOnly words32 .internalOpcode (commandWord (.softScore x)) s)

def execHardErrors (x : Operand) (s : State) : Host.Outcome State Fault Refusal :=
  .next (raiseOnly words32 .internalOpcode (commandWord (.hardErrors x)) s)

def execStddev (x : Operand) (s : State) : Host.Outcome State Fault Refusal :=
  .next (raiseOnly words32 .internalOpcode (commandWord (.stddev x)) s)

def execScoreAt (x : Operand) (s : State) : Host.Outcome State Fault Refusal :=
  .next (raiseOnly words32 .internalOpcode (commandWord (.scoreAt x)) s)

def execMeasure (x : Operand) (s : State) : Host.Outcome State Fault Refusal :=
  .next (raiseOnly words32 .internalOpcode (commandWord (.measure x)) s)

def execOptimize (x : Operand) (s : State) : Host.Outcome State Fault Refusal :=
  .next (raiseOnly words32 .internalOpcode (commandWord (.optimize x)) s)

end Sys2Proof.Machine
end

