-- ==== Sys2Proof/Machine/Flags.lean ====
section
/-! DEFINITION. The status flags (R48) and the register map (R50). -/

namespace Sys2Proof.Machine

variable {α ω : Type}

/-- STATUS (R50): the flags of R48 in bits [4:0], whether CONTROL_PATTERN is present in bit [5], `fault_code` in bits [15:8];
the other bits read as zero. -/
def statusWord (s : State.Over α ω) : Word :=
  0#16 ++ s.faultCode ++ 0#2
    ++ bitOf s.params.controlPattern.isSome
    ++ bitOf s.prebiasDone
    ++ bitOf (decide (s.framerState = .assembling))
    ++ bitOf s.fault
    ++ bitOf s.synchronized
    ++ bitOf s.configured

/-- REG(a), computed at the read (R50, R295); `none` at the reserved addresses 0x1D to 0xFF. -/
def regValue (K : Reading α ω) (a : BitVec 8) (s : State.Over α ω) : Option ω :=
  match a.toNat with
  | 0x00 => some (K.ofWord (statusWord s))
  | 0x01 => some (K.ofNumber s.sps)
  | 0x02 => some (K.ofWord s.symbolRate)
  | 0x03 => some (K.ofNumber s.gain)
  | 0x04 => some (K.ofNumber s.balance)
  | 0x05 => some (K.ofNumber s.gainMin)
  | 0x06 => some (K.ofNumber s.gainMax)
  | 0x07 => some (K.ofNumber s.gainInitial)
  | 0x08 => some (K.ofNumber s.samplePoint)
  | 0x09 => some (K.ofWord (s.r.extractLsb' 0 32))
  | 0x0A => some (K.ofWord (s.r.extractLsb' 32 32))
  | 0x0B => some (K.ofWord (s.p.extractLsb' 0 32))
  | 0x0C => some (K.ofWord (s.p.extractLsb' 32 32))
  | 0x0D => some (K.ofWord s.symbolsSinceSync)
  | 0x0E => some (K.ofWord s.totalSymbols)
  | 0x0F => some (K.ofWord (wrap32 s.asmBits.length))
  | 0x10 => some (K.ofWord s.framesDispatched)
  | 0x11 => some (K.ofWord s.syncCount)
  | 0x12 => some (K.ofWord s.invalidCount)
  | 0x13 => some (K.ofWord s.faultInfo)
  | 0x14 => some (K.ofNumber s.lastScorePrimary)
  | 0x15 => some (K.ofNumber s.lastScoreLag)
  | 0x16 => some (K.ofNumber s.lastScoreControl)
  | 0x17 => some (K.ofWord (wrap32 (opHardErrors s)))
  | 0x18 => some (K.ofWord s.asmOverflow)
  | 0x19 => some (K.ofWord s.dibitsSinceTs)
  | 0x1A => some (K.ofWord (s.refTs.extractLsb' 0 32))
  | 0x1B => some (K.ofWord (s.refTs.extractLsb' 32 32))
  | 0x1C => some (K.ofWord s.lastCorrectedBits)
  | _ => none

end Sys2Proof.Machine
end

