-- ==== Sys2Proof/Machine/Framer.lean ====
section
/-! DEFINITION. The frame assembler and its lifecycle (43_frame_assembler.md, R260 to R264), and what the host gets when it
issues its ids (R118). -/

namespace Sys2Proof.Machine

variable {α ω : Type}

/-- FRAME_TIMESTAMP() (R263): exact integer arithmetic, then modulo 2^64. The quotient at `symbol_rate` 0, which no run
reaches, is free (log 8). -/
def opFrameTimestamp (s : State.Over α ω) : BitVec 64 :=
  let product := s.dibitsSinceTs.toNat * 1000
  let elapsed :=
    if s.symbolRate = 0#32 then Config.timestampQuotientAtRateZero product else product / s.symbolRate.toNat
  wrap64 (s.refTs.toNat + elapsed)

/-- DISPATCH (R262): one FRAME record with the assembler's bits; it does not write `framer_state`. -/
def opDispatch (K : Reading α ω) (s : State.Over α ω) : State.Over α ω :=
  { State.emit K (.frame (decide (s.asmBits.length = s.params.frameBits)) (opFrameTimestamp s) s.asmBits) s with
    framesDispatched := wrap32 (s.framesDispatched.toNat + 1)
    asmBits := [] }

/-- FRAMER_SYNC, `syncDetected()` (R260). -/
def opFramerSync (K : Reading α ω) (s : State.Over α ω) : State.Over α ω :=
  let t := if s.framerState = .assembling then opDispatch K s else s
  { t with framerState := .assembling, asmBits := [] }

/-- The two bits of a dibit, b1 first (R261, R86). -/
def dibitBits (d : Dibit) : List Bool := [d.getLsbD 1, d.getLsbD 0]

/-- FRAMER_DIBIT(d) (R261). -/
def opFramerDibit (K : Reading α ω) (d : Dibit) (s : State.Over α ω) : State.Over α ω :=
  let t : State.Over α ω := { s with dibitsSinceTs := wrap32 (s.dibitsSinceTs.toNat + 1) }
  if t.framerState = .idle then t
  else if t.params.frameBits ≤ t.asmBits.length then
    { t with asmOverflow := wrap32 (t.asmOverflow.toNat + 1) }
  else
    let u : State.Over α ω := { t with asmBits := t.asmBits ++ dibitBits d }
    if u.asmBits.length = u.params.frameBits then { opDispatch K u with framerState := .idle } else u

/-! ### The ids as host commands: INTERNAL_OPCODE (R118, R119) -/

def execFramerSync (x : Operand) (s : State) : Host.Outcome State Fault Refusal :=
  .next (raiseOnly words32 .internalOpcode (commandWord (.framerSync x)) s)

def execFramerDibit (x : Operand) (s : State) : Host.Outcome State Fault Refusal :=
  .next (raiseOnly words32 .internalOpcode (commandWord (.framerDibit x)) s)

def execDispatch (x : Operand) (s : State) : Host.Outcome State Fault Refusal :=
  .next (raiseOnly words32 .internalOpcode (commandWord (.dispatch x)) s)

def execFrameTimestamp (x : Operand) (s : State) : Host.Outcome State Fault Refusal :=
  .next (raiseOnly words32 .internalOpcode (commandWord (.frameTimestamp x)) s)

end Sys2Proof.Machine
end

