-- ==== Sys2Proof/Machine/SymbolProcessor.lean ====
section
/-! DEFINITION. The symbol processor (42_symbol_processor.md, R220 to R229), and what the host gets when it issues its ids
(R118). -/

namespace Sys2Proof.Machine

/-! ### The arithmetic rules, over any NUMERICS -/

/-- The balance after the nudge of R220, from the measured mean. -/
def prebiasedBalance {α : Type} (N : Numerics α) (prebiasGain balance mean : α) : α :=
  clamp N (N.add balance (N.mul prebiasGain (N.sub (N.neg mean) balance))) (N.neg (N.const .balanceLimit))
    (N.const .balanceLimit)

/-- TIMING_NUDGE(n, mu, d) (R223). -/
def timingNudge {α : Type} (N : Numerics α) (g : Signal α) (nudgeMax : α) (n : Int) (mu : α) (d : Dibit) : α :=
  let zero := N.const .zero
  if N.eq nudgeMax zero then zero
  else
    let i := n + N.floor mu
    let trend := N.sub (eqSample N g (i + 1)) (eqSample N g i)
    if N.eq trend zero then zero
    else if N.lt zero trend == N.lt zero (idealPhase N d) then nudgeMax
    else N.neg nudgeMax

/-- The shift of ACCEPT_SYNC: additionalOffset + timingAdjustment (R226). -/
def correctionShift {α : Type} (N : Numerics α) (c : Correction α) : α := N.add c.additionalOffset c.timingAdjustment

/-- The sample point after ACCEPT_SYNC's shift, at least -SPS (R226). -/
def shiftedSamplePoint {α : Type} (N : Numerics α) (samplePoint shift sps : α) : α :=
  let moved := N.add samplePoint shift
  if N.lt moved (N.neg sps) then N.neg sps else moved

/-- LOOKAHEAD = ceil(SPS) + 2 samples (R229). -/
def lookahead {α : Type} (N : Numerics α) (sps : α) : Int := ceil N sps + 2

/-- HISTORY_MIN = ceil((L + 2.5) × SPS) + 3 samples: what an implementation must keep before `p` (R82). This model keeps the
whole history. -/
def historyMin {α : Type} (N : Numerics α) (len : Nat) (sps : α) : Int :=
  ceil N (N.mul (N.div (N.ofInt (2 * len + 5)) (N.const .two)) sps) + 3

variable {α ω : Type}

/-! ### Step 1: the pre-bias -/

/-- PREBIAS(v) (R220), on the samples of the block, before they are appended. -/
def opPrebias (K : Reading α ω) (v : List α) (s : State.Over α ω) : State.Over α ω :=
  if s.prebiasDone || decide (v.length < Config.prebiasSamples) then s
  else
    let measured := stddev K.num (v.take Config.prebiasSamples)
    let moves := !s.synchronized && K.num.le measured.1 (K.ofPattern s.params.prebiasNoiseMax)
    { s with
      balance :=
        if moves then prebiasedBalance K.num (K.ofPattern s.params.prebiasGain) s.balance measured.2 else s.balance
      prebiasDone := true }

/-! ### The raw-dibit recording -/

/-- A REC byte of four dibits, the first in the high bits (R86, R228). -/
def recByte (ds : List Dibit) : Byte := ds.foldl (fun acc d => acc <<< 2 ||| d.zeroExtend 8) 0#8

/-- The byte assembler takes one dibit and emits a REC record when it has four (R228). -/
def packDibit (K : Reading α ω) (d : Dibit) (s : State.Over α ω) : State.Over α ω :=
  let pack := s.pack ++ [d]
  if pack.length = 4 then State.emit K (.recording (recByte pack)) { s with pack := [] } else { s with pack := pack }

/-- RECORD_PUSH(d) (R228). -/
def opRecordPush (K : Reading α ω) (d : Dibit) (s : State.Over α ω) : State.Over α ω :=
  if s.params.recordEnable then
    let fifo := s.delayFifo ++ [d]
    if s.params.delaySymbols < fifo.length then packDibit K (fifo.headD 0#2) { s with delayFifo := fifo.drop 1 }
    else { s with delayFifo := fifo }
  else s

/-! ### Steps 4 to 6: detection, coast-through and loss of sync -/

/-- TIMING_NUDGE (R223). -/
def opTimingNudge (K : Reading α ω) (n : Int) (mu : α) (d : Dibit) (s : State.Over α ω) : α :=
  timingNudge K.num (s.signal K) (K.ofPattern s.params.nudgeMax) n mu d

/-- ACCEPT_SYNC(c, kind) (R226). -/
def opAcceptSync (K : Reading α ω) (c : Correction α) (kind : SyncKind) (s : State.Over α ω) : State.Over α ω :=
  let applied := opEqApply K c s
  let t := applied.1
  let recal := applied.2
  let shift := correctionShift K.num c
  let u : State.Over α ω :=
    { t with
      samplePoint := shiftedSamplePoint K.num t.samplePoint shift t.sps
      symbolsSinceSync := 0#32
      synchronized := if recal then t.synchronized else true
      syncCount := wrap32 (t.syncCount.toNat + 1) }
  opFramerSync K (State.emit K (.sync kind recal u.synchronized c.optScore shift) u)

/-- COAST_SYNC (R227). -/
def opCoastSync (K : Reading α ω) (s : State.Over α ω) : State.Over α ω :=
  let t : State.Over α ω :=
    { s with symbolsSinceSync := 0#32, synchronized := true, syncCount := wrap32 (s.syncCount.toNat + 1) }
  opFramerSync K (State.emit K (.sync .coast false true (K.num.const .zero) (K.num.const .zero)) t)

/-- One row of DETECTORS with the score it has now (R225). -/
structure Detector (α : Type) where
  kind : SyncKind
  pattern : List Dibit
  additionalOffset : α
  score : α
deriving DecidableEq, Repr

/-- LAG_OFFSET = -SPS/2 (R5, D20). -/
def lagOffset (N : Numerics α) (sps : α) : α := N.neg (N.div sps (N.const .two))

/-- DETECTORS, in order: PRIMARY, CONTROL if CONTROL_PATTERN is present, LAG (R225). -/
def detectors (K : Reading α ω) (s : State.Over α ω) : List (Detector α) :=
  let primary : Detector α := ⟨.primary, s.params.syncPattern, K.num.const .zero, s.lastScorePrimary⟩
  let lag : Detector α := ⟨.lag, s.params.syncPattern, lagOffset K.num s.sps, s.lastScoreLag⟩
  match s.params.controlPattern with
  | some pat => [primary, ⟨.control, pat, K.num.const .zero, s.lastScoreControl⟩, lag]
  | none => [primary, lag]

/-- The detectors tried in order (R224): the first valid Correction is accepted, each invalid one counts. Answers whether one
was accepted. -/
def tryDetectors (K : Reading α ω) (n : Int) (mu : α) : List (Detector α) → State.Over α ω → State.Over α ω × Bool
  | [], s => (s, false)
  | d :: rest, s =>
    if K.num.lt (K.num.const .syncDetectThreshold) d.score then
      match opOptimize K d.pattern d.additionalOffset d.score n mu s with
      | some c =>
        (opAcceptSync K c d.kind { s with lastCorrectedBits := wrap32 c.correctedBits }, true)
      | none => tryDetectors K n mu rest { s with invalidCount := wrap32 (s.invalidCount.toNat + 1) }
    else tryDetectors K n mu rest s

/-- The detection scores of this symbol (R224). -/
def updateScores (K : Reading α ω) (s : State.Over α ω) : State.Over α ω :=
  { s with
    lastScorePrimary := softScore K.num s.softHist s.params.syncPattern
    lastScoreLag := softScore K.num s.lagHist s.params.syncPattern
    lastScoreControl :=
      match s.params.controlPattern with
      | some pat => softScore K.num s.softHist pat
      | none => K.num.const .zero }

/-- The coast test of step 5 (R224): exactly SYNC_INTERVAL symbols, and hard errors within tolerance. -/
def coastDue (s : State.Over α ω) : Bool :=
  decide (s.symbolsSinceSync.toNat = Config.syncInterval) && decide (opHardErrors s ≤ Config.coastMaxBitErrors)

/-- The loss test of step 6 (R224). -/
def syncLost (s : State.Over α ω) : Bool := s.synchronized && decide (Config.lossSymbols < s.symbolsSinceSync.toNat)

/-- SYNC_CHECK(n, mu) (R224). -/
def opSyncCheck (K : Reading α ω) (n : Int) (mu : α) (s : State.Over α ω) : State.Over α ω :=
  let t := updateScores K s
  let tried :=
    if t.params.syncHoldoff ≤ t.symbolsSinceSync.toNat then tryDetectors K n mu (detectors K t) t else (t, false)
  let u := tried.1
  if tried.2 then u
  else if coastDue u then opCoastSync K u
  else if syncLost u then opEqReset u
  else u

/-! ### Step 3: the per-sample and per-symbol loop -/

/-- The histories take the symbol: each drops its oldest entry (R222). -/
def pushHistories (soft : α) (d : Dibit) (lag : α) (s : State.Over α ω) : State.Over α ω :=
  { s with
    softHist := s.softHist.drop 1 ++ [soft]
    hardHist := s.hardHist.drop 1 ++ [d]
    lagHist := s.lagHist.drop 1 ++ [lag] }

/-- The symbol counters and the next symbol instant (R222). -/
def advanceSymbol (N : Numerics α) (nudge : α) (s : State.Over α ω) : State.Over α ω :=
  { s with
    symbolsSinceSync := sat32 (s.symbolsSinceSync.toNat + 1)
    totalSymbols := wrap32 (s.totalSymbols.toNat + 1)
    samplePoint := N.add (N.add s.samplePoint s.sps) nudge }

/-- SYMBOL_STEP(n) (R222): one symbol decision at the time (n, sample_point). -/
def opSymbolStep (K : Reading α ω) (n : Int) (s : State.Over α ω) : State.Over α ω :=
  let mu := s.samplePoint
  let soft := opEqSymbol K n mu s
  let d := toSymbol K.num soft
  let nudge := opTimingNudge K n mu d s
  let s1 := if s.params.softOutEnable then State.emit K (.soft d soft) s else s
  let s2 := opFramerDibit K d s1
  let s3 := opRecordPush K d s2
  let lag := opEqSymbol K n (K.num.sub mu (K.num.div s3.sps (K.num.const .two))) s3
  opSyncCheck K n mu (advanceSymbol K.num nudge (pushHistories soft d lag s3))

/-- SAMPLE_STEP(n) (R221): at most one symbol per sample. -/
def opSampleStep (K : Reading α ω) (n : Int) (s : State.Over α ω) : State.Over α ω :=
  let t : State.Over α ω := { s with samplePoint := K.num.sub s.samplePoint (K.num.const .one) }
  if K.num.lt t.samplePoint (K.num.const .one) then opSymbolStep K n t else t

/-- Sample `p` has its look-ahead: `p + LOOKAHEAD < r` (R229). -/
def samplePending (N : Numerics α) (s : State.Over α ω) : Bool :=
  decide ((s.p.toNat : Int) + lookahead N s.sps < (s.r.toNat : Int))

/-- One iteration of PROCESS_PENDING (R229). -/
def processOne (K : Reading α ω) (s : State.Over α ω) : State.Over α ω :=
  let t := opSampleStep K s.p.toNat s
  { t with p := t.p + 1#64 }

/-- PROCESS_PENDING (R229): while a sample has its look-ahead. Each iteration takes `p` nearer to `r`, so `r - p` iterations
are enough. -/
def processLoop (K : Reading α ω) : Nat → State.Over α ω → State.Over α ω
  | 0, s => s
  | fuel + 1, s => if samplePending K.num s then processLoop K fuel (processOne K s) else s

/-- PROCESS_PENDING (R229). -/
def opProcessPending (K : Reading α ω) (s : State.Over α ω) : State.Over α ω := processLoop K (s.r.toNat - s.p.toNat) s

/-! ### The ids as host commands: INTERNAL_OPCODE (R118, R119) -/

def execPrebias (x : Operand) (s : State) : Host.Outcome State Fault Refusal :=
  .next (raiseOnly words32 .internalOpcode (commandWord (.prebias x)) s)

def execSampleStep (x : Operand) (s : State) : Host.Outcome State Fault Refusal :=
  .next (raiseOnly words32 .internalOpcode (commandWord (.sampleStep x)) s)

def execSymbolStep (x : Operand) (s : State) : Host.Outcome State Fault Refusal :=
  .next (raiseOnly words32 .internalOpcode (commandWord (.symbolStep x)) s)

def execTimingNudge (x : Operand) (s : State) : Host.Outcome State Fault Refusal :=
  .next (raiseOnly words32 .internalOpcode (commandWord (.timingNudge x)) s)

def execSyncCheck (x : Operand) (s : State) : Host.Outcome State Fault Refusal :=
  .next (raiseOnly words32 .internalOpcode (commandWord (.syncCheck x)) s)

def execAcceptSync (x : Operand) (s : State) : Host.Outcome State Fault Refusal :=
  .next (raiseOnly words32 .internalOpcode (commandWord (.acceptSync x)) s)

def execCoastSync (x : Operand) (s : State) : Host.Outcome State Fault Refusal :=
  .next (raiseOnly words32 .internalOpcode (commandWord (.coastSync x)) s)

def execRecordPush (x : Operand) (s : State) : Host.Outcome State Fault Refusal :=
  .next (raiseOnly words32 .internalOpcode (commandWord (.recordPush x)) s)

end Sys2Proof.Machine
end

