-- ==== Sys2Proof/Machine/HostCommands.lean ====
section
/-! DEFINITION. The five host commands (44_host_commands.md, R290 to R296): the checks in the order of R324, then the effect. -/

namespace Sys2Proof.Machine

variable {α ω : Type}

/-! ### CONFIGURE (R291) -/

/-- The effect of a valid CONFIGURE. -/
def configureEffect (K : Reading α ω) (rate : Operand) (sps : α) (s : State.Over α ω) : State.Over α ω :=
  let t := opEqConfigure K sps { s with sps := sps, symbolRate := symbolRateOf rate }
  opDatapathReset K { t with configured := true }

/-- CONFIGURE(rate, [spsw]) of a block that is not faulted. -/
def configureCommand (K : Reading α ω) (rate : Operand) (spsWord : Word) (s : State.Over α ω) : State.Over α ω :=
  if configurationValid K rate spsWord then configureEffect K rate (numberOfWord K spsWord) s
  else raiseFault K .configInvalid (commandWord (.configure rate spsWord)) s

/-- CONFIGURE in any state. -/
def runConfigure (K : Reading α ω) (rate : Operand) (spsWord : Word) (s : State.Over α ω) : State.Over α ω :=
  faultGate (configureCommand K rate spsWord) s

def execConfigure (rate : Operand) (spsWord : Word) (s : State) : Host.Outcome State Fault Refusal :=
  .next (runConfigure words32 rate spsWord s)

/-! ### SAMPLES (R292) -/

/-- The block's timestamp becomes the reference timestamp (R46, R292). -/
def takeTimestamp (tsLo tsHi : Word) (s : State.Over α ω) : State.Over α ω :=
  { s with refTs := timestampOf tsLo tsHi, dibitsSinceTs := 0#32 }

/-- The effect of a SAMPLES whose samples are valid. -/
def samplesEffect [DecidableEq α] (K : Reading α ω) (tsLo tsHi : Word) (vs : List α) (s : State.Over α ω) : State.Over α ω :=
  opProcessPending K (State.histAppendAll K vs (opPrebias K vs (takeTimestamp tsLo tsHi s)))

/-- SAMPLES(N, [tslo, tshi, w0 .. w(N-1)]) of a block that is not faulted. -/
def samplesCommand [DecidableEq α] (K : Reading α ω) (tsLo tsHi : Word) (data : List Word) (s : State.Over α ω) :
    State.Over α ω :=
  if s.configured then
    if samplesValid K data then samplesEffect K tsLo tsHi (data.map (numberOfWord K)) s
    else raiseFault K .sampleNotFinite (commandWord (.samples tsLo tsHi data)) s
  else raiseFault K .notConfigured (commandWord (.samples tsLo tsHi data)) s

/-- SAMPLES in any state. -/
def runSamples [DecidableEq α] (K : Reading α ω) (tsLo tsHi : Word) (data : List Word) (s : State.Over α ω) : State.Over α ω :=
  faultGate (samplesCommand K tsLo tsHi data) s

def execSamples (tsLo tsHi : Word) (data : List Word) (s : State) : Host.Outcome State Fault Refusal :=
  .next (runSamples words32 tsLo tsHi data s)

/-! ### FLUSH (R296) -/

/-- The effect of FLUSH: the frame in progress is dispatched. -/
def flushEffect (K : Reading α ω) (s : State.Over α ω) : State.Over α ω :=
  if s.framerState = .assembling then { opDispatch K s with framerState := .idle } else s

/-- FLUSH of a block that is not faulted. -/
def flushCommand (K : Reading α ω) (reserved : Operand) (s : State.Over α ω) : State.Over α ω :=
  if reservedOperandClear reserved then
    if s.configured then flushEffect K s else raiseFault K .notConfigured (commandWord (.flush reserved)) s
  else raiseFault K .reservedNonzero (commandWord (.flush reserved)) s

/-- FLUSH in any state. -/
def runFlush (K : Reading α ω) (reserved : Operand) (s : State.Over α ω) : State.Over α ω :=
  faultGate (flushCommand K reserved) s

def execFlush (reserved : Operand) (s : State) : Host.Outcome State Fault Refusal := .next (runFlush words32 reserved s)

/-! ### RESET (R294): it acts in the fault state too (R323) -/

/-- The effect of RESET: the datapath reset, then the exit from the fault state. -/
def resetEffect (K : Reading α ω) (s : State.Over α ω) : State.Over α ω := clearFault (opDatapathReset K s)

/-- RESET in any state. -/
def runReset (K : Reading α ω) (reserved : Operand) (s : State.Over α ω) : State.Over α ω :=
  if reservedOperandClear reserved then resetEffect K s
  else raiseOnly K .reservedNonzero (commandWord (.reset reserved)) s

def execReset (reserved : Operand) (s : State) : Host.Outcome State Fault Refusal := .next (runReset words32 reserved s)

/-! ### READ_REG (R295): a valid one acts in the fault state too (R323) -/

/-- READ_REG(a) with its reserved bits clear: the RESP record, or BAD_REGISTER. -/
def readRegCommand (K : Reading α ω) (addr : BitVec 8) (s : State.Over α ω) : State.Over α ω :=
  match regValue K addr s with
  | some v => State.emit K (.resp addr v) s
  | none => raiseOnly K .badRegister (commandWord (.readReg 0#16 addr)) s

/-- READ_REG in any state. -/
def runReadReg (K : Reading α ω) (reserved : BitVec 16) (addr : BitVec 8) (s : State.Over α ω) : State.Over α ω :=
  if reservedAddressBitsClear reserved then readRegCommand K addr s
  else raiseOnly K .reservedNonzero (commandWord (.readReg reserved addr)) s

def execReadReg (reserved : BitVec 16) (addr : BitVec 8) (s : State) : Host.Outcome State Fault Refusal :=
  .next (runReadReg words32 reserved addr s)

/-! ### A command in any reading (R290) -/

/-- The command of an instruction in any reading (R290, step 5; R8): what `exec` runs at `words32`, and what the same
instruction does over the real numbers at `reals`. -/
def runCommand [DecidableEq α] (K : Reading α ω) (i : Instr) (s : State.Over α ω) : State.Over α ω :=
  match i with
  | .configure rate spsWord => runConfigure K rate spsWord s
  | .samples tsLo tsHi data => runSamples K tsLo tsHi data s
  | .flush reserved => runFlush K reserved s
  | .reset reserved => runReset K reserved s
  | .readReg reserved addr => runReadReg K reserved addr s
  | .equalize _ | .unwrap _ | .eqSymbol _ | .eqConfigure _ | .eqReset _ | .eqApply _
  | .idealPhase _ | .toSymbol _ | .bitDistance _ | .softScore _ | .hardErrors _ | .stddev _ | .scoreAt _ | .measure _
  | .optimize _
  | .prebias _ | .sampleStep _ | .symbolStep _ | .timingNudge _ | .syncCheck _ | .acceptSync _ | .coastSync _
  | .recordPush _
  | .framerSync _ | .framerDibit _ | .dispatch _ | .frameTimestamp _ | .datapathReset _ | .reservedInternal _ =>
    raiseOnly K .internalOpcode (commandWord i) s
  | .illegal00 _ | .illegal06 _ | .illegal08 _ | .illegal10 _ | .illegal20 _ | .illegal40 _ | .illegalA0 _
  | .illegalC0 _ => raiseOnly K .illegalOpcode (commandWord i) s

end Sys2Proof.Machine
end

