-- ==== Sys2Proof/Machine/Internal.lean ====
section
/-! DEFINITION. The internal operations as one table (R118): "each has exactly one rule, and a model dispatches its internal
steps on them". `InternalOp` is an operation with the operands its rule gives it, `InternalOp.id` its id, and `runInternal`
dispatches it to the definition that the commands run. -/

namespace Sys2Proof.Machine

/-- An internal operation with its operands (40 to 43, 70). -/
inductive InternalOp (α : Type) where
  | equalize (v : α)
  | unwrap (e : α)
  | eqSymbol (n : Int) (off : α)
  | eqConfigure (sps : α)
  | eqReset
  | eqApply (c : Correction α)
  | idealPhase (d : Dibit)
  | toSymbol (v : α)
  | bitDistance (a b : Dibit)
  | softScore (hist : List α) (pat : List Dibit)
  | hardErrors
  | stddev (vs : List α)
  | scoreAt (pat : List Dibit) (n : Int) (t : α)
  | measure (pat : List Dibit) (n : Int) (t : α)
  | optimize (pat : List Dibit) (add det : α) (n : Int) (mu : α)
  | prebias (v : List α)
  | sampleStep (n : Int)
  | symbolStep (n : Int)
  | timingNudge (n : Int) (mu : α) (d : Dibit)
  | syncCheck (n : Int) (mu : α)
  | acceptSync (c : Correction α) (kind : SyncKind)
  | coastSync
  | recordPush (d : Dibit)
  | framerSync
  | framerDibit (d : Dibit)
  | dispatch
  | frameTimestamp
  | datapathReset
deriving DecidableEq, Repr

/-- The value an internal operation returns to the one that runs it. -/
inductive InternalResult (α : Type) where
  | done
  | number (v : α)
  | dibit (d : Dibit)
  | count (k : Nat)
  | deviationAndMean (sd mean : α)
  | measured (m : Measurement α)
  | correction (c : OptimizeResult α)
  | recalibrated (b : Bool)
  | timestamp (t : BitVec 64)
deriving DecidableEq, Repr

/-- The ids of R118. -/
def InternalOp.id {α : Type} : InternalOp α → Opcode
  | .equalize _ => 0x80#8
  | .unwrap _ => 0x81#8
  | .eqSymbol _ _ => 0x82#8
  | .eqConfigure _ => 0x83#8
  | .eqReset => 0x84#8
  | .eqApply _ => 0x85#8
  | .idealPhase _ => 0x86#8
  | .toSymbol _ => 0x87#8
  | .bitDistance _ _ => 0x88#8
  | .softScore _ _ => 0x89#8
  | .hardErrors => 0x8A#8
  | .stddev _ => 0x8B#8
  | .scoreAt _ _ _ => 0x8C#8
  | .measure _ _ _ => 0x8D#8
  | .optimize _ _ _ _ _ => 0x8E#8
  | .prebias _ => 0x8F#8
  | .sampleStep _ => 0x90#8
  | .symbolStep _ => 0x91#8
  | .timingNudge _ _ _ => 0x92#8
  | .syncCheck _ _ => 0x93#8
  | .acceptSync _ _ => 0x94#8
  | .coastSync => 0x95#8
  | .recordPush _ => 0x96#8
  | .framerSync => 0x97#8
  | .framerDibit _ => 0x98#8
  | .dispatch => 0x99#8
  | .frameTimestamp => 0x9A#8
  | .datapathReset => 0x9B#8

/-- What an internal operation does to the state, and what it returns (R118). -/
def runInternal {α ω : Type} (K : Reading α ω) (op : InternalOp α) (s : State.Over α ω) : State.Over α ω × InternalResult α :=
  match op with
  | .equalize v => (s, .number (opEqualize K v s))
  | .unwrap e => (s, .number (unwrap K.num e))
  | .eqSymbol n off => (s, .number (opEqSymbol K n off s))
  | .eqConfigure sps => (opEqConfigure K sps s, .done)
  | .eqReset => (opEqReset s, .done)
  | .eqApply c => ((opEqApply K c s).1, .recalibrated (opEqApply K c s).2)
  | .idealPhase d => (s, .number (idealPhase K.num d))
  | .toSymbol v => (s, .dibit (toSymbol K.num v))
  | .bitDistance a b => (s, .count (bitDistance a b))
  | .softScore hist pat => (s, .number (softScore K.num hist pat))
  | .hardErrors => (s, .count (opHardErrors s))
  | .stddev vs => (s, .deviationAndMean (stddev K.num vs).1 (stddev K.num vs).2)
  | .scoreAt pat n t => (s, .number (opScoreAt K pat n t s))
  | .measure pat n t => (s, .measured (opMeasure K pat n t s))
  | .optimize pat add det n mu => (s, .correction (opOptimize K pat add det n mu s))
  | .prebias v => (opPrebias K v s, .done)
  | .sampleStep n => (opSampleStep K n s, .done)
  | .symbolStep n => (opSymbolStep K n s, .done)
  | .timingNudge n mu d => (s, .number (opTimingNudge K n mu d s))
  | .syncCheck n mu => (opSyncCheck K n mu s, .done)
  | .acceptSync c kind => (opAcceptSync K c kind s, .done)
  | .coastSync => (opCoastSync K s, .done)
  | .recordPush d => (opRecordPush K d s, .done)
  | .framerSync => (opFramerSync K s, .done)
  | .framerDibit d => (opFramerDibit K d s, .done)
  | .dispatch => (opDispatch K s, .done)
  | .frameTimestamp => (s, .timestamp (opFrameTimestamp s))
  | .datapathReset => (opDatapathReset K s, .done)

end Sys2Proof.Machine
end

