-- ==== Sys2Proof/Machine/Dispatch.lean ====
section
/-! DEFINITION. The meaning of each instruction, one arm per constructor (R290, step 5). -/

namespace Sys2Proof.Machine

def exec (i : Instr) (s : State) : Host.Outcome State Fault Refusal :=
  match i with
  | .configure rate spsWord => Sys2Proof.Machine.execConfigure rate spsWord s
  | .samples tsLo tsHi data => Sys2Proof.Machine.execSamples tsLo tsHi data s
  | .flush reserved => Sys2Proof.Machine.execFlush reserved s
  | .reset reserved => Sys2Proof.Machine.execReset reserved s
  | .readReg reserved addr => Sys2Proof.Machine.execReadReg reserved addr s
  | .equalize x => Sys2Proof.Machine.execEqualize x s
  | .unwrap x => Sys2Proof.Machine.execUnwrap x s
  | .eqSymbol x => Sys2Proof.Machine.execEqSymbol x s
  | .eqConfigure x => Sys2Proof.Machine.execEqConfigure x s
  | .eqReset x => Sys2Proof.Machine.execEqReset x s
  | .eqApply x => Sys2Proof.Machine.execEqApply x s
  | .idealPhase x => Sys2Proof.Machine.execIdealPhase x s
  | .toSymbol x => Sys2Proof.Machine.execToSymbol x s
  | .bitDistance x => Sys2Proof.Machine.execBitDistance x s
  | .softScore x => Sys2Proof.Machine.execSoftScore x s
  | .hardErrors x => Sys2Proof.Machine.execHardErrors x s
  | .stddev x => Sys2Proof.Machine.execStddev x s
  | .scoreAt x => Sys2Proof.Machine.execScoreAt x s
  | .measure x => Sys2Proof.Machine.execMeasure x s
  | .optimize x => Sys2Proof.Machine.execOptimize x s
  | .prebias x => Sys2Proof.Machine.execPrebias x s
  | .sampleStep x => Sys2Proof.Machine.execSampleStep x s
  | .symbolStep x => Sys2Proof.Machine.execSymbolStep x s
  | .timingNudge x => Sys2Proof.Machine.execTimingNudge x s
  | .syncCheck x => Sys2Proof.Machine.execSyncCheck x s
  | .acceptSync x => Sys2Proof.Machine.execAcceptSync x s
  | .coastSync x => Sys2Proof.Machine.execCoastSync x s
  | .recordPush x => Sys2Proof.Machine.execRecordPush x s
  | .framerSync x => Sys2Proof.Machine.execFramerSync x s
  | .framerDibit x => Sys2Proof.Machine.execFramerDibit x s
  | .dispatch x => Sys2Proof.Machine.execDispatch x s
  | .frameTimestamp x => Sys2Proof.Machine.execFrameTimestamp x s
  | .datapathReset x => Sys2Proof.Machine.execDatapathReset x s
  | .reservedInternal low => Sys2Proof.Machine.execReservedInternal low s
  | .illegal00 x => Sys2Proof.Machine.execIllegal00 x s
  | .illegal06 low => Sys2Proof.Machine.execIllegal06 low s
  | .illegal08 low => Sys2Proof.Machine.execIllegal08 low s
  | .illegal10 low => Sys2Proof.Machine.execIllegal10 low s
  | .illegal20 low => Sys2Proof.Machine.execIllegal20 low s
  | .illegal40 low => Sys2Proof.Machine.execIllegal40 low s
  | .illegalA0 low => Sys2Proof.Machine.execIllegalA0 low s
  | .illegalC0 low => Sys2Proof.Machine.execIllegalC0 low s

end Sys2Proof.Machine
end

