-- ==== Sys2Proof/Machine/Step.lean ====
section
/-! DEFINITION. One step of the block: the command cycle of R290, one command per step (R362). -/

namespace Sys2Proof.Machine

/-- One step: the next command with its whole payload is consumed and run. Where the input holds no whole command the block
waits with its state kept (R110, R335). -/
def step (s : State) : Host.Outcome State Fault Refusal :=
  match decode s.input with
  | .command i rest => exec i (State.withInput rest s)
  | .stop _ => .next s

/-- The step of any reading (R290, R8): `step` is it at `words32`, and at `reals` it is the block over the real numbers. -/
def runStep {α ω : Type} [DecidableEq α] (K : Reading α ω) (s : State.Over α ω) : State.Over α ω :=
  match decode s.input with
  | .command i rest => runCommand K i (State.withInput rest s)
  | .stop _ => s

/-- `s` with the instruction of these bits next on its command input, before whatever is there (R110). The bits above `nbits`
are 0, up to the length that the instruction's first word fixes (R129). -/
def State.withFetchWord (s : State) (nbits w : Nat) : State := { s with input := tableWords nbits w ++ s.input }

end Sys2Proof.Machine
end

