-- ==== Sys2Proof/Machine/RealNumerics.lean ====
section
/-! DEFINITION. NUMERICS = REAL (R8): the pseudocode read over the real numbers, "for reasoning about properties that do not
depend on rounding". At `reals` every operation of the block is the one the machine runs at `words32` (log 11). -/

namespace Sys2Proof.Machine

/-- The named real constants (R5). -/
noncomputable def realConst : RealConst → ℝ
  | .zero => 0
  | .one => 1
  | .two => 2
  | .pi => Real.pi
  | .twoPi => 2 * Real.pi
  | .halfPi => Real.pi / 2
  | .balanceLimit => Real.pi / 3
  | .quarterPi => Real.pi / 4
  | .threeQuarterPi => 3 * Real.pi / 4
  | .recalThreshold => Real.pi / 8
  | .gainRefSps => 5.208
  | .gainRef => 5.7
  | .gainHalfRange => 0.5
  | .loopGain => 0.15
  | .syncDetectThreshold => 40
  | .optimizedThreshold => 40
  | .spsMin => 2
  | .spsMax => 32
  | .sampleMaxAbs => 2 ^ 20

/-- NUMERICS = REAL (R8). -/
noncomputable def realNumerics : Numerics ℝ where
  add a b := a + b
  sub a b := a - b
  mul a b := a * b
  div a b := a / b
  sqrt := Real.sqrt
  neg a := -a
  abs a := |a|
  lt a b := @decide (a < b) (Classical.propDecidable _)
  le a b := @decide (a ≤ b) (Classical.propDecidable _)
  eq a b := @decide (a = b) (Classical.propDecidable _)
  floor a := ⌊a⌋
  ofInt z := (z : ℝ)
  const := realConst

/-- The reading REAL: a pattern of the input stands for its number, and a record carries a number as it is, which no 32-bit word
can (log 11). The fuel exceeds what the search takes over the reals from the first step and MIN_STEP. DEDUCED (log 10). -/
noncomputable def reals : Reading ℝ (Word ⊕ ℝ) where
  num := realNumerics
  ofPattern v := (F32.value v : ℝ)
  ofWord w := .inl w
  ofNumber x := .inr x
  searchFuel first minStep := 128 * (⌊first / minStep⌋.toNat + 2)

end Sys2Proof.Machine
end

