-- ==== Sys2Proof/Safety.lean ====
section
/-! DEFINITION. What counts as a legal block and a well-kept state, in the terms that the statements use. -/

namespace Sys2Proof

/-- The ranges that R5 gives the parameters. -/
def Params.legal (c : Params) : Bool :=
  decide (1 ≤ c.len)
    && c.controlPattern.all (fun pat => decide (pat.length = c.len))
    && decide (c.frameBits % 2 = 0) && decide (2 ≤ c.frameBits) && decide (c.frameBits ≤ 2 ^ 23 - 2)
    && Machine.F32.isFinite c.minStep && Machine.F32.lt 0#32 c.minStep
    && Machine.F32.isFinite c.noiseStddevMax && Machine.F32.le 0#32 c.noiseStddevMax
    && Machine.F32.isFinite c.prebiasNoiseMax && Machine.F32.le 0#32 c.prebiasNoiseMax
    && Machine.F32.lt 0#32 c.prebiasGain && Machine.F32.le c.prebiasGain 0x3F800000#32
    && Machine.F32.isFinite c.nudgeMax && Machine.F32.le 0#32 c.nudgeMax

namespace Machine

/-- The invariant of the block's bookkeeping: what R5, R32, R40, R44, R45, R47 and R81 say of every state. -/
structure State.Kept (s : State) : Prop where
  /-- The parameters are in the ranges of R5. -/
  legal : s.params.legal = true
  /-- The sample history is in canonical form. -/
  historyCanonical : Memory.wf binary32 s.smp = true
  /-- The histories hold exactly L entries (R40). -/
  softLength : s.softHist.length = s.params.len
  lagLength : s.lagHist.length = s.params.len
  hardLength : s.hardHist.length = s.params.len
  /-- The delay line holds at most DELAY_SYMBOLS dibits between symbols (R44). -/
  delayLength : s.delayFifo.length ≤ s.params.delaySymbols
  /-- The byte assembler holds 0 to 3 dibits (R44). -/
  packLength : s.pack.length ≤ 3
  /-- With RECORD_ENABLE false the recording state stays empty (R228 (c)). -/
  recordingOff : s.params.recordEnable = false → s.delayFifo = [] ∧ s.pack = []
  /-- `asm_bits` is empty whenever the framer is IDLE (R45). -/
  idleEmpty : s.framerState = .idle → s.asmBits = []
  /-- A full assembler is dispatched at once (R261 (a)). -/
  assemblerOpen : s.asmBits.length < s.params.frameBits
  /-- Every dibit appends two bits (R262 (b)). -/
  assemblerEven : s.asmBits.length % 2 = 0
  /-- ASM_OVERFLOW reads 0 in every run (R261 (a)). -/
  noOverflow : s.asmOverflow = 0#32
  /-- The code and the word are 0 while there is no fault (R47, R320). -/
  faultClear : s.fault = false → s.faultCode = 0#8 ∧ s.faultInfo = 0#32
  /-- Codes 8 to 255 are never produced (R320). -/
  faultNamed : s.fault = true → 1 ≤ s.faultCode.toNat ∧ s.faultCode.toNat ≤ 7
  /-- Bits [31:24] of `symbol_rate` read as zero (R50). -/
  rateBelow : s.symbolRate.toNat < 2 ^ 24
  /-- A configured block has a rate of at least 1 (R32) and an SPS in [2.0, 32.0] (R291). -/
  configuredRate : s.configured = true → s.symbolRate ≠ 0#32
  configuredSps : s.configured = true → 0x40000000 ≤ s.sps.toNat ∧ s.sps.toNat ≤ 0x42000000
  /-- Before any CONFIGURE no sample is taken and no frame is assembled (R292, R353). -/
  unconfigured : s.configured = false → s.r = 0#64 ∧ s.framerState = .idle

/-- The sample counters and the history agree (R38). It needs `r` not to wrap (R297 (c)), so it stands apart. -/
structure State.HistoryKept (s : State) : Prop where
  /-- The history holds samples 0 to r - 1 only. -/
  historyBelow : ∀ cell ∈ s.smp, cell.1 < s.r.toNat
  /-- p ≤ r. -/
  processed : s.p.toNat ≤ s.r.toNat

/-- No comparison finds `balance` outside [-π/3, π/3] (R34). -/
def State.BalanceKept (s : State) : Prop :=
  F32.lt s.balance 0xBF860A92#32 = false ∧ F32.lt 0x3F860A92#32 s.balance = false

/-- Once configured, no comparison finds `gain` outside [gain_min, gain_max], and the limits are in order (R33, R35). -/
def State.GainKept (s : State) : Prop :=
  s.configured = true →
    F32.lt s.gain s.gainMin = false ∧ F32.lt s.gainMax s.gain = false
      ∧ F32.le s.gainMin s.gainInitial = true ∧ F32.le s.gainInitial s.gainMax = true

/-- The state of the block over the real numbers (R8, NUMERICS = REAL). -/
abbrev RealState := State.Over ℝ (Word ⊕ ℝ)

/-- Over the reals, `balance` is in [-π/3, π/3] (R34). -/
def RealState.BalanceKept (b : RealState) : Prop := -(Real.pi / 3) ≤ b.balance ∧ b.balance ≤ Real.pi / 3

/-- Over the reals, once configured, `gain` is in [gain_min, gain_max], and the limits are in order (R33, R35). -/
def RealState.GainKept (b : RealState) : Prop :=
  b.configured = true →
    b.gainMin ≤ b.gain ∧ b.gain ≤ b.gainMax ∧ b.gainMin ≤ b.gainInitial ∧ b.gainInitial ≤ b.gainMax

/-- What no SAMPLES and no FLUSH writes: the parameters, the input, the configuration and the fault state. -/
structure State.SameSetup {α ω : Type} (s t : State.Over α ω) : Prop where
  params : t.params = s.params
  input : t.input = s.input
  configured : t.configured = s.configured
  sps : t.sps = s.sps
  symbolRate : t.symbolRate = s.symbolRate
  gainInitial : t.gainInitial = s.gainInitial
  gainMin : t.gainMin = s.gainMin
  gainMax : t.gainMax = s.gainMax
  fault : t.fault = s.fault
  faultCode : t.faultCode = s.faultCode
  faultInfo : t.faultInfo = s.faultInfo

/-- Records are only appended (R90): the output stream of `t` continues that of `s`. -/
def State.OutputContinues {α ω : Type} (s t : State.Over α ω) : Prop := ∃ ws : List ω, t.output = s.output ++ ws

/-- The state after fault entry with this code and this command word, written out (R322). -/
def State.faulted (code : BitVec 8) (w : Word) (s : State) : State :=
  { s with
    fault := true
    faultCode := code
    faultInfo := w
    output := s.output ++ [0x06#8 ++ 0#16 ++ code, w] }

/-- The DATAPATH_RESET column of R350: the power-on state, but for the streams, the configuration, the fault state, `gain`
and `sample_point`. -/
def State.restarted (s : State) : State :=
  { State.powerOn s.params with
    input := s.input, output := s.output
    configured := s.configured, sps := s.sps, symbolRate := s.symbolRate
    gainInitial := s.gainInitial, gainMin := s.gainMin, gainMax := s.gainMax
    gain := s.gainInitial, samplePoint := s.sps
    fault := s.fault, faultCode := s.faultCode, faultInfo := s.faultInfo }

/-- The RESET column of R350. -/
def State.afterReset (s : State) : State :=
  { State.restarted s with fault := false, faultCode := 0#8, faultInfo := 0#32 }

/-- The register map of R50 as one list, addresses 0x00 to 0x1C in order. -/
def registerValues (s : State) : List Word :=
  [statusWord s, s.sps, s.symbolRate, s.gain, s.balance, s.gainMin, s.gainMax, s.gainInitial, s.samplePoint,
    s.r.extractLsb' 0 32, s.r.extractLsb' 32 32, s.p.extractLsb' 0 32, s.p.extractLsb' 32 32,
    s.symbolsSinceSync, s.totalSymbols, BitVec.ofNat 32 s.asmBits.length, s.framesDispatched, s.syncCount,
    s.invalidCount, s.faultInfo, s.lastScorePrimary, s.lastScoreLag, s.lastScoreControl,
    BitVec.ofNat 32 (bitErrors s.hardHist s.params.syncPattern), s.asmOverflow, s.dibitsSinceTs,
    s.refTs.extractLsb' 0 32, s.refTs.extractLsb' 32 32, s.lastCorrectedBits]

/-- The words of the FRAME record that a dispatch of this state emits (R122, R262). -/
def dispatchedWords (s : State) : List Word :=
  (0x04#8 ++ bitOf (decide (s.asmBits.length = s.params.frameBits)) ++ BitVec.ofNat 23 s.asmBits.length)
    :: (opFrameTimestamp s).extractLsb' 0 32 :: (opFrameTimestamp s).extractLsb' 32 32 :: frameWords s.asmBits

/-- A sample pattern that SAMPLES accepts (R293): its magnitude bits are at most those of 2^20. Infinities and NaNs are
above. -/
def acceptedSample (v : Word) : Bool := decide ((v &&& 0x7FFFFFFF#32).toNat ≤ 0x49800000)

/-- An SPS pattern that CONFIGURE accepts (R291): one from that of 2.0 to that of 32.0. -/
def acceptedSps (v : Word) : Bool := decide (0x40000000 ≤ v.toNat ∧ v.toNat ≤ 0x42000000)

/-- The opcode classes of R119, by number. -/
def internalOpcode (w : Word) : Bool := decide (0x80 ≤ (opcodeOf w).toNat ∧ (opcodeOf w).toNat ≤ 0x9F)
def hostOpcode (w : Word) : Bool := decide (1 ≤ (opcodeOf w).toNat ∧ (opcodeOf w).toNat ≤ 5)

/-- Checks 2 to 7 of R324 in their order, each with its fault code, for a command word and its payload. -/
def faultChecks (w : Word) (payload : List Word) (s : State) : List (Bool × BitVec 8) :=
  let op := (opcodeOf w).toNat
  [(internalOpcode w, 2#8),
    (!internalOpcode w && !hostOpcode w, 1#8),
    (decide ((op = 3 ∨ op = 4) ∧ w.extractLsb' 0 24 ≠ 0#24) || decide (op = 5 ∧ w.extractLsb' 8 16 ≠ 0#16), 3#8),
    (decide (op = 2 ∨ op = 3) && !s.configured, 4#8),
    (decide (op = 1) && (decide (w.extractLsb' 0 24 = 0#24) || !acceptedSps (payload.getD 0 0#32)), 5#8),
    (decide (op = 2) && (payload.drop 2).any (fun v => !acceptedSample v), 6#8),
    (decide (op = 5 ∧ 0x1C < (w.extractLsb' 0 8).toNat), 7#8)]

/-- The fault that the first check which applies reports (R324). -/
def firstFault (w : Word) (payload : List Word) (s : State) : Option (BitVec 8) :=
  ((faultChecks w payload s).find? fun c => c.1).map fun c => c.2

/-- The REC words of a sequence of dibits that left the delay line, four dibits a byte, the first in the high bits; dibits of
an unfinished byte give none (R86, R125, R228). -/
def recordingWords : List Dibit → List Word
  | d0 :: d1 :: d2 :: d3 :: rest => (0x05#8 ++ 0#16 ++ d0 ++ d1 ++ d2 ++ d3) :: recordingWords rest
  | _ => []

/-- `v` is the binary32 number nearest to `x`, and even where another is as near (R8). -/
def F32.Nearest (v : F32) (x : ℝ) : Prop :=
  F32.isFinite v = true ∧ ∀ c : F32, F32.isFinite c = true →
    |(F32.value v : ℝ) - x| ≤ |(F32.value c : ℝ) - x|
      ∧ (|(F32.value v : ℝ) - x| = |(F32.value c : ℝ) - x| → F32.value c ≠ F32.value v → F32.significand v % 2 = 0)

/-- An event that the framer sees (R264): a sync detection or a dibit. -/
inductive FramerEvent where
  | sync
  | dibit (d : Dibit)
deriving DecidableEq, Repr

/-- The framer's operations for an event (R260, R261). -/
def framerEvent (e : FramerEvent) (s : State) : State :=
  match e with
  | .sync => opFramerSync words32 s
  | .dibit d => opFramerDibit words32 d s

/-- The framer over a sequence of events. -/
def framerRun (es : List FramerEvent) (s : State) : State := es.foldl (fun t e => framerEvent e t) s

/-- The dibits between one sync and the next, one list for each sync of the sequence; dibits before the first sync belong to
none (R264). -/
def dibitsPerSync : List FramerEvent → List (List Dibit)
  | [] => []
  | .sync :: rest => dibitsAfterSync rest :: dibitsPerSync rest
  | .dibit _ :: rest => dibitsPerSync rest
where
  /-- The dibits up to the next sync. -/
  dibitsAfterSync : List FramerEvent → List Dibit
    | .dibit d :: rest => d :: dibitsAfterSync rest
    | _ => []

/-- The bits of a frame (R264): those of the first FRAME_BITS / 2 or fewer dibits after its sync. -/
def frameBitsOf (c : Params) (ds : List Dibit) : List Bool := (ds.flatMap dibitBits).take c.frameBits

end Machine

end Sys2Proof
end

