-- ==== Sys2Proof/Certificates/Slice0/Obligations.lean ====
section
/-! DEFINITION. The statements about the block. Each docstring names the rules of spec/ that it formalises; where a statement
rests on a choice of the model or on an inference that the spec marks as its own, the docstring says so. -/

open Sys2Proof Sys2Proof.Machine

/-! ### Encoding (R110 to R119, R129, R85) -/

/-- Decoding the words of a well-formed instruction gives that instruction and leaves the words after it (R110, R112, R129):
no bit of an encoding is dropped. -/
def Obligations.DecodeEncode : Prop :=
  ∀ (i : Instr) (rest : List Word), i.wellFormed = true → decode (encode i ++ rest) = .command i rest

/-- Whatever the decoder reads, encoding it gives back the words read, and it is well-formed (R111, R112): every command word
has one meaning. -/
def Obligations.EncodeDecode : Prop :=
  ∀ (ws : List Word) (i : Instr) (rest : List Word),
    decode ws = .command i rest → i.wellFormed = true ∧ encode i ++ rest = ws

/-- Words written out from R112 to R118 and table H1 of 95_test_vectors.md decode to the commands they stand for. -/
def Obligations.CommandWordsDecode : Prop :=
  decode [0x010012C0#32, 0x40800000#32] = .command (.configure 4800#24 0x40800000#32) []
    ∧ decode [0x02000001#32, 7#32, 0#32, 0x3F000000#32] = .command (.samples 7#32 0#32 [0x3F000000#32]) []
    ∧ decode [0x03000000#32] = .command (.flush 0#24) []
    ∧ decode [0x04000000#32] = .command (.reset 0#24) []
    ∧ decode [0x0500001C#32] = .command (.readReg 0#16 0x1C#8) []
    ∧ decode [0x80123456#32] = .command (.equalize 0x123456#24) []
    ∧ decode [0x8E000000#32] = .command (.optimize 0#24) []
    ∧ decode [0x91000000#32] = .command (.symbolStep 0#24) []
    ∧ decode [0x99000001#32] = .command (.dispatch 1#24) []
    ∧ decode [0x9B000000#32] = .command (.datapathReset 0#24) []
    ∧ decode [0x9C000000#32] = .command (.reservedInternal 0#26) []
    ∧ decode [0x06000000#32] = .command (.illegal06 0#25) []
    ∧ decode [0xFF000000#32] = .command (.illegalC0 0x3F000000#30) []

/-- A byte transport carries each word least significant byte first; the words come back, and the decoder reads the same
(R85). -/
def Obligations.BytesLittleEndian : Prop :=
  (∀ (w : Word) (k : Nat), k < 4 → (bytesOfWord w)[k]? = some (w.extractLsb' (8 * k) 8))
    ∧ ∀ ws : List Word,
      wordsOfBytes (ws.flatMap bytesOfWord) = ws ∧ decodeBytes (ws.flatMap bytesOfWord) = decode ws

/-! ### The command cycle (R110, R129, R290) -/

/-- One step: with a whole command at the front of the input, the step is its meaning on the state whose input is the words
after it; with no command word, or a payload that is not all there, the block waits with its state as it is (R110, R335). -/
def Obligations.StepRunsCommand : Prop :=
  ∀ s : State,
    (∀ (i : Instr) (rest : List Word), i.wellFormed = true → s.input = encode i ++ rest →
      step s = exec i { s with input := rest })
    ∧ (s.input = [] → step s = .next s)
    ∧ ∀ (w : Word) (rest : List Word), s.input = w :: rest → rest.length < payloadLength w → step s = .next s

/-- The first word alone fixes how many words a step consumes: 2 for CONFIGURE, 3 + N for SAMPLES, else 1, whatever the state
and whatever the outcome (R129). That a step then has a next state, and that a step without the whole payload keeps the state
(the wait of R110), is the model's reading (log 2, log 23). -/
def Obligations.LengthFromFirstWord : Prop :=
  ∀ (s : State) (w : Word) (rest : List Word), s.input = w :: rest →
    let extra := if w.extractLsb' 24 8 = 0x01#8 then 1
      else if w.extractLsb' 24 8 = 0x02#8 then 2 + (w.extractLsb' 0 24).toNat else 0
    (extra ≤ rest.length → ∃ t, step s = .next t ∧ t.input = rest.drop extra)
      ∧ (rest.length < extra → step s = .next s)

/-- Illegal, internal and reserved-bit command words of a block that is not faulted (R119): one word is consumed, the fault is
ILLEGAL_OPCODE, INTERNAL_OPCODE or RESERVED_NONZERO, and nothing else changes. -/
def Obligations.IllegalReservedWords : Prop :=
  ∀ (s : State) (w : Word) (rest : List Word), s.fault = false → s.input = w :: rest →
    let op := (w.extractLsb' 24 8).toNat
    let after : State := { s with input := rest }
    (op ∉ [0x01, 0x02, 0x03, 0x04, 0x05] ∧ ¬(0x80 ≤ op ∧ op ≤ 0x9F) → step s = .next (State.faulted 1#8 w after))
    ∧ (0x80 ≤ op ∧ op ≤ 0x9F → step s = .next (State.faulted 2#8 w after))
    ∧ ((op = 0x03 ∨ op = 0x04) ∧ w.extractLsb' 0 24 ≠ 0#24 ∨ op = 0x05 ∧ w.extractLsb' 8 16 ≠ 0#16 →
        step s = .next (State.faulted 3#8 w after))

/-- Each internal operation id, and each reserved one, issued by the host: INTERNAL_OPCODE with the whole command word, and no
other effect (R118, R112). -/
def Obligations.InternalIdsRaise : Prop :=
  ∀ (x : Operand) (low : BitVec 26) (s : State), s.fault = false →
    (∀ e ∈ ([(.equalize x, 0x80#8), (.unwrap x, 0x81#8), (.eqSymbol x, 0x82#8), (.eqConfigure x, 0x83#8),
        (.eqReset x, 0x84#8), (.eqApply x, 0x85#8), (.idealPhase x, 0x86#8), (.toSymbol x, 0x87#8),
        (.bitDistance x, 0x88#8), (.softScore x, 0x89#8), (.hardErrors x, 0x8A#8), (.stddev x, 0x8B#8),
        (.scoreAt x, 0x8C#8), (.measure x, 0x8D#8), (.optimize x, 0x8E#8), (.prebias x, 0x8F#8),
        (.sampleStep x, 0x90#8), (.symbolStep x, 0x91#8), (.timingNudge x, 0x92#8), (.syncCheck x, 0x93#8),
        (.acceptSync x, 0x94#8), (.coastSync x, 0x95#8), (.recordPush x, 0x96#8), (.framerSync x, 0x97#8),
        (.framerDibit x, 0x98#8), (.dispatch x, 0x99#8), (.frameTimestamp x, 0x9A#8),
        (.datapathReset x, 0x9B#8)] : List (Instr × BitVec 8)),
      exec e.1 s = .next (State.faulted 2#8 (e.2 ++ x) s))
    ∧ exec (.reservedInternal low) s = .next (State.faulted 2#8 (39#6 ++ low) s)

/-- Each range of illegal opcodes: ILLEGAL_OPCODE with the whole command word, and no other effect (R112, R119). -/
def Obligations.IllegalOpcodesRaise : Prop :=
  ∀ (x : Operand) (a : BitVec 25) (b : BitVec 27) (c : BitVec 28) (d : BitVec 29) (e : BitVec 30) (s : State),
    s.fault = false →
      exec (.illegal00 x) s = .next (State.faulted 1#8 (0x00#8 ++ x) s)
      ∧ exec (.illegal06 a) s = .next (State.faulted 1#8 (0b0000011#7 ++ a) s)
      ∧ exec (.illegal08 b) s = .next (State.faulted 1#8 (0b00001#5 ++ b) s)
      ∧ exec (.illegal10 c) s = .next (State.faulted 1#8 (0b0001#4 ++ c) s)
      ∧ exec (.illegal20 d) s = .next (State.faulted 1#8 (0b001#3 ++ d) s)
      ∧ exec (.illegal40 e) s = .next (State.faulted 1#8 (0b01#2 ++ e) s)
      ∧ exec (.illegalA0 d) s = .next (State.faulted 1#8 (0b101#3 ++ d) s)
      ∧ exec (.illegalC0 e) s = .next (State.faulted 1#8 (0b11#2 ++ e) s)

/-! ### Faults (R320 to R325) -/

/-- The fault gate (R323): while faulted, only RESET with operand 0 and a READ_REG of an implemented register act; every other
command is consumed with its payload and ignored. -/
def Obligations.FaultGate : Prop :=
  ∀ (s : State) (w : Word) (rest : List Word), s.fault = true → s.input = w :: rest →
    payloadLength w ≤ rest.length →
    let op := (w.extractLsb' 24 8).toNat
    let addr := w.extractLsb' 0 8
    let after : State := { s with input := rest.drop (payloadLength w) }
    if w = 0x04000000#32 then step s = .next (State.afterReset after)
    else if op = 0x05 ∧ w.extractLsb' 8 16 = 0#16 ∧ addr.toNat ≤ 0x1C then
      step s = .next
        { after with output := s.output ++ [0x01#8 ++ 0#16 ++ addr, (registerValues s).getD addr.toNat 0#32] }
    else step s = .next after

/-- Priority (R324): a command of an unfaulted block takes the fault of the first check that applies, in the order of the rule,
with the command word recorded, and has no other effect; where none applies it leaves the block unfaulted. While faulted, no
new fault. -/
def Obligations.FaultPriority : Prop :=
  ∀ (i : Instr) (s : State), i.wellFormed = true →
    (s.fault = false →
      match firstFault (commandWord i) (payloadOf i) s with
      | some code => exec i s = .next (State.faulted code (commandWord i) s)
      | none => ∃ t, exec i s = .next t ∧ t.fault = false)
    ∧ (s.fault = true → ∃ t, exec i s = .next t
        ∧ (t.fault = true → t.faultCode = s.faultCode ∧ t.faultInfo = s.faultInfo))

/-- Who writes the fault state (R47): a command keeps it, or enters a fault with one of the codes 1 to 7 and has no other
effect, or is RESET and clears it, as RESET always does; at power-on it is false, 0, 0. -/
def Obligations.FaultStateWriters : Prop :=
  (∀ (i : Instr) (s t : State), exec i s = .next t →
    t.fault = s.fault ∧ t.faultCode = s.faultCode ∧ t.faultInfo = s.faultInfo
    ∨ s.fault = false ∧ (∃ code : BitVec 8, 1 ≤ code.toNat ∧ code.toNat ≤ 7 ∧ t = State.faulted code (commandWord i) s)
    ∨ i = .reset 0#24 ∧ t.fault = false ∧ t.faultCode = 0#8 ∧ t.faultInfo = 0#32)
  ∧ (∀ s : State, ∃ t, exec (.reset 0#24) s = .next t
      ∧ t.fault = false ∧ t.faultCode = 0#8 ∧ t.faultInfo = 0#32)
  ∧ ∀ c : Params, (State.powerOn c).fault = false ∧ (State.powerOn c).faultCode = 0#8
      ∧ (State.powerOn c).faultInfo = 0#32

/-! ### The host commands (R291 to R296, R350, R351) -/

/-- RESET with operand 0 gives the RESET column of R350, faulted or not; with a reserved bit it raises RESERVED_NONZERO, or is
ignored while faulted (R294). -/
def Obligations.ResetResult : Prop :=
  ∀ (x : Operand) (s : State),
    exec (.reset 0#24) s = .next (State.afterReset s)
    ∧ (x ≠ 0#24 → s.fault = false → exec (.reset x) s = .next (State.faulted 3#8 (0x04#8 ++ x) s))
    ∧ (x ≠ 0#24 → s.fault = true → exec (.reset x) s = .next s)

/-- CONFIGURE with a rate that is not 0 and an SPS from 2.0 to 32.0 gives the CONFIGURE column of R350, with the gain limits of
R153; with a rate of 0, or an SPS that is not finite or outside that range, it raises CONFIG_INVALID and has no other effect
(R291). -/
def Obligations.ConfigureResult : Prop :=
  ∀ (rate : Operand) (sps : Word) (s : State), s.fault = false →
    (rate ≠ 0#24 → F32.isFinite sps = true → 2 ≤ F32.value sps → F32.value sps ≤ 32 →
      let ratio := F32.div sps 0x40A6A7F0#32
      let initial := F32.mul 0x40B66666#32 ratio
      exec (.configure rate sps) s = .next
        { State.restarted s with
          configured := true, sps := sps, symbolRate := 0#8 ++ rate
          gainInitial := initial
          gainMin := F32.mul (F32.sub 0x40B66666#32 0x3F000000#32) ratio
          gainMax := F32.mul (F32.add 0x40B66666#32 0x3F000000#32) ratio
          gain := initial, samplePoint := sps })
    ∧ (rate = 0#24 ∨ F32.isFinite sps = false ∨ F32.value sps < 2 ∨ 32 < F32.value sps →
      exec (.configure rate sps) s = .next (State.faulted 5#8 (0x01#8 ++ rate) s))

/-- READ_REG of an implemented address appends its RESP record and changes nothing else, faulted or not; of a reserved address
it raises BAD_REGISTER, with a reserved bit RESERVED_NONZERO (R50, R295). -/
def Obligations.ReadRegResult : Prop :=
  ∀ (a : BitVec 8) (reserved : BitVec 16) (s : State),
    (a.toNat ≤ 0x1C →
      exec (.readReg 0#16 a) s = .next
        { s with output := s.output ++ [0x01#8 ++ 0#16 ++ a, (registerValues s).getD a.toNat 0#32] })
    ∧ (0x1C < a.toNat → s.fault = false →
      exec (.readReg 0#16 a) s = .next (State.faulted 7#8 (0x05#8 ++ 0#16 ++ a) s))
    ∧ (reserved ≠ 0#16 → s.fault = false →
      exec (.readReg reserved a) s = .next (State.faulted 3#8 (0x05#8 ++ reserved ++ a) s))

/-- The bits of STATUS (R50, R48). -/
def Obligations.StatusBits : Prop :=
  ∀ s : State,
    (statusWord s).getLsbD 0 = s.configured
    ∧ (statusWord s).getLsbD 1 = s.synchronized
    ∧ (statusWord s).getLsbD 2 = s.fault
    ∧ ((statusWord s).getLsbD 3 = true ↔ s.framerState = .assembling)
    ∧ (statusWord s).getLsbD 4 = s.prebiasDone
    ∧ (statusWord s).getLsbD 5 = s.params.controlPattern.isSome
    ∧ (statusWord s).extractLsb' 6 2 = 0#2
    ∧ (statusWord s).extractLsb' 8 8 = s.faultCode
    ∧ (statusWord s).extractLsb' 16 16 = 0#16

/-- FLUSH of a configured, unfaulted block dispatches the frame in progress and goes to IDLE; while IDLE it does nothing
(R296, R262). With a reserved bit it raises RESERVED_NONZERO, before any CONFIGURE NOT_CONFIGURED. -/
def Obligations.FlushResult : Prop :=
  ∀ (x : Operand) (s : State), s.fault = false →
    (x ≠ 0#24 → exec (.flush x) s = .next (State.faulted 3#8 (0x03#8 ++ x) s))
    ∧ (s.configured = false → exec (.flush 0#24) s = .next (State.faulted 4#8 0x03000000#32 s))
    ∧ (s.configured = true → s.framerState = .idle → exec (.flush 0#24) s = .next s)
    ∧ (s.configured = true → s.framerState = .assembling → exec (.flush 0#24) s = .next
        { s with
          framerState := .idle, asmBits := []
          framesDispatched := s.framesDispatched + 1#32
          output := s.output ++ dispatchedWords s })

/-- SAMPLES with accepted samples runs its steps in the order of R292: the timestamp is taken, the block is pre-biased, the
samples are appended in order, and what has its look-ahead is processed. Before any CONFIGURE it raises NOT_CONFIGURED, with a
sample that is not accepted SAMPLE_NOT_FINITE. -/
def Obligations.SamplesSteps : Prop :=
  ∀ (tsLo tsHi : Word) (data : List Word) (s : State), s.fault = false →
    (s.configured = false →
      exec (.samples tsLo tsHi data) s
        = .next (State.faulted 4#8 (0x02#8 ++ BitVec.ofNat 24 data.length) s))
    ∧ (s.configured = true → (∃ v ∈ data, acceptedSample v = false) →
      exec (.samples tsLo tsHi data) s
        = .next (State.faulted 6#8 (0x02#8 ++ BitVec.ofNat 24 data.length) s))
    ∧ (s.configured = true → (∀ v ∈ data, acceptedSample v = true) →
      exec (.samples tsLo tsHi data) s = .next
        (opProcessPending words32
          (data.foldl (fun t v => State.histAppend words32 v t)
            (opPrebias words32 data { s with refTs := tsHi ++ tsLo, dibitsSinceTs := 0#32 }))))

/-- What SAMPLES leaves: the new samples stand in the history after the old ones, which are unchanged; the timestamp is taken;
the parameters, the configuration and the fault state are unchanged; records are only appended (R81, R292, R90). `r` does not
wrap (R297 (c)). -/
def Obligations.SamplesHistory : Prop :=
  ∀ (tsLo tsHi : Word) (data : List Word) (s : State), s.fault = false → s.configured = true →
    (∀ v ∈ data, acceptedSample v = true) → Memory.wf binary32 s.smp = true → s.r.toNat + data.length < 2 ^ 64 →
    ∃ t, exec (.samples tsLo tsHi data) s = .next t
      ∧ State.SameSetup s t ∧ State.OutputContinues s t ∧ Memory.wf binary32 t.smp = true
      ∧ t.r.toNat = s.r.toNat + data.length
      ∧ (∀ j, s.r.toNat ≤ j → j < t.r.toNat → Memory.read binary32 t.smp j = data.getD (j - s.r.toNat) 0#32)
      ∧ (∀ j, j < s.r.toNat ∨ t.r.toNat ≤ j → Memory.read binary32 t.smp j = Memory.read binary32 s.smp j)
      ∧ t.refTs = tsHi ++ tsLo
      ∧ t.prebiasDone = (s.prebiasDone || decide (400 ≤ data.length))

/-- PROCESS_PENDING (R229): while sample p has its look-ahead, p + LOOKAHEAD < r with LOOKAHEAD = ceil(SPS) + 2, it runs
SAMPLE_STEP at p and then takes p one further; else it changes nothing. So SAMPLES processes to LOOKAHEAD samples before the
last one received, or not at all where `p` is already there (R356). -/
def Obligations.SamplesProgress : Prop :=
  (∀ s : State, acceptedSps s.sps = true → s.p.toNat ≤ s.r.toNat →
    opProcessPending words32 s =
      if (s.p.toNat : Int) + (⌈F32.value s.sps⌉ + 2) < (s.r.toNat : Int) then
        opProcessPending words32 { opSampleStep words32 (s.p.toNat : Int) s with p := s.p + 1#64 }
      else s)
  ∧ ∀ (tsLo tsHi : Word) (data : List Word) (s : State), s.fault = false → s.configured = true →
    (∀ v ∈ data, acceptedSample v = true) → acceptedSps s.sps = true → s.p.toNat ≤ s.r.toNat →
    s.r.toNat + data.length < 2 ^ 64 →
    ∃ t, exec (.samples tsLo tsHi data) s = .next t
      ∧ t.p.toNat = max s.p.toNat (s.r.toNat + data.length - (⌈F32.value s.sps⌉ + 2).toNat)

/-- The whole block is checked first: one sample that is a NaN, an infinity or above 2^20 in magnitude raises
SAMPLE_NOT_FINITE and no sample is appended; with none, no fault is raised (R293). -/
def Obligations.SamplesValidated : Prop :=
  ∀ (tsLo tsHi : Word) (data : List Word) (s : State), s.fault = false → s.configured = true →
    ((∃ v ∈ data, F32.isFinite v = false ∨ (2 : ℚ) ^ 20 < |F32.value v|) →
      exec (.samples tsLo tsHi data) s
        = .next (State.faulted 6#8 (0x02#8 ++ BitVec.ofNat 24 data.length) s))
    ∧ ((∀ v ∈ data, F32.isFinite v = true ∧ |F32.value v| ≤ (2 : ℚ) ^ 20) →
      ∃ t, exec (.samples tsLo tsHi data) s = .next t ∧ t.fault = false
        ∧ t.r = s.r + BitVec.ofNat 64 data.length)

/-- The power-on column of R350, and STATUS after power-on; and DATAPATH_RESET gives the DATAPATH_RESET column of R350, keeping
the configuration, the fault state and the streams (R351). -/
def Obligations.PowerOnState : Prop :=
  ∀ c : Params,
    State.powerOn c =
      { params := c, input := [], output := []
        configured := false, sps := 0#32, symbolRate := 0#32
        gainInitial := 0#32, gainMin := 0#32, gainMax := 0#32
        balance := 0#32, gain := 0#32, synchronized := false, samplePoint := 0#32
        r := 0#64, p := 0#64, smp := []
        softHist := List.replicate c.syncPattern.length 0#32
        lagHist := List.replicate c.syncPattern.length 0#32
        hardHist := List.replicate c.syncPattern.length 0b00#2
        symbolsSinceSync := 0#32, prebiasDone := false, totalSymbols := 0#32, syncCount := 0#32
        invalidCount := 0#32, lastScorePrimary := 0#32, lastScoreLag := 0#32, lastScoreControl := 0#32
        lastCorrectedBits := 0#32, delayFifo := [], pack := []
        framerState := .idle, asmBits := [], asmOverflow := 0#32, framesDispatched := 0#32
        refTs := 0#64, dibitsSinceTs := 0#32, fault := false, faultCode := 0#8, faultInfo := 0#32 }
    ∧ statusWord (State.powerOn c) = (if c.controlPattern.isSome then 0x00000020#32 else 0x00000000#32)
    ∧ ∀ s : State, opDatapathReset words32 s = State.restarted s

/-! ### The number type (R8 to R10) -/

/-- Under BINARY32 every `+`, `-` and `×` of finite values gives the nearest binary32 number, ties to even, wherever the exact
result is below 2^128 - 2^103 in magnitude, the bound from which a result rounds to an infinity (R8). -/
def Obligations.AddMulRounded : Prop :=
  ∀ a b : F32, F32.isFinite a = true → F32.isFinite b = true →
    (|(F32.value a : ℝ) + (F32.value b : ℝ)| < 2 ^ 128 - 2 ^ 103 →
      F32.Nearest (F32.add a b) ((F32.value a : ℝ) + (F32.value b : ℝ)))
    ∧ (|(F32.value a : ℝ) - (F32.value b : ℝ)| < 2 ^ 128 - 2 ^ 103 →
      F32.Nearest (F32.sub a b) ((F32.value a : ℝ) - (F32.value b : ℝ)))
    ∧ (|(F32.value a : ℝ) * (F32.value b : ℝ)| < 2 ^ 128 - 2 ^ 103 →
      F32.Nearest (F32.mul a b) ((F32.value a : ℝ) * (F32.value b : ℝ)))

/-- Under BINARY32 every `÷` by a value that is not zero gives the nearest binary32 number, ties to even, wherever the exact
quotient is below 2^128 - 2^103 in magnitude, and so does every `sqrt` of a value that is not negative (R8). -/
def Obligations.DivSqrtRounded : Prop :=
  (∀ a b : F32, F32.isFinite a = true → F32.isFinite b = true → F32.value b ≠ 0 →
    |(F32.value a : ℝ) / (F32.value b : ℝ)| < 2 ^ 128 - 2 ^ 103 →
    F32.Nearest (F32.div a b) ((F32.value a : ℝ) / (F32.value b : ℝ)))
  ∧ ∀ a : F32, F32.isFinite a = true → 0 ≤ F32.value a → F32.Nearest (F32.sqrt a) (Real.sqrt (F32.value a : ℝ))

/-- Comparison is the order of the numbers, `floor` is the greatest integer at or below, and an integer up to 2^24 in magnitude
converts exactly (R9, R10, R185). -/
def Obligations.CompareFloorExact : Prop :=
  (∀ a b : F32, F32.isFinite a = true → F32.isFinite b = true →
    (F32.lt a b = true ↔ F32.value a < F32.value b) ∧ (F32.le a b = true ↔ F32.value a ≤ F32.value b)
      ∧ (F32.eq a b = true ↔ F32.value a = F32.value b) ∧ F32.floor a = ⌊F32.value a⌋)
  ∧ ∀ z : Int, z.natAbs ≤ 2 ^ 24 → F32.isFinite (F32.ofInt z) = true ∧ F32.value (F32.ofInt z) = (z : ℚ)

/-- A named real constant denotes the binary32 value nearest to the real number (R8, R5). -/
def Obligations.ConstantsNearest : Prop :=
  ∀ k : RealConst, F32.Nearest (binary32Const k) (realConst k)

/-! ### The equalizer family (R150 to R155) -/

/-- EQ_CONFIGURE at the reference point gives 5.7, 5.2 and 6.2; and for every SPS that CONFIGURE accepts the three limits are
finite and strictly ordered (R153; the order is an inference that the rule marks as derived). -/
def Obligations.GainLimitsOrdered : Prop :=
  gainLimits binary32 0x40A6A7F0#32 = ⟨0x40B66666#32, 0x40A66666#32, 0x40C66666#32⟩
  ∧ ∀ sps : F32, acceptedSps sps = true →
    let g := gainLimits binary32 sps
    F32.lt g.min g.initial = true ∧ F32.lt g.initial g.max = true
      ∧ F32.isFinite g.min = true ∧ F32.isFinite g.initial = true ∧ F32.isFinite g.max = true

/-- UNWRAP (R151). At binary32: one step of 2π, by strict comparisons with π and -π. Over the reals: a value within 3π of 0
lands within π of 0, one turn or none away; a value within π is unchanged. -/
def Obligations.UnwrapOneTurn : Prop :=
  (∀ e : F32, Sys2Proof.Machine.unwrap binary32 e =
    if F32.lt 0x40490FDB#32 e = true then F32.sub e 0x40C90FDB#32
    else if F32.lt e 0xC0490FDB#32 = true then F32.add e 0x40C90FDB#32
    else e)
  ∧ ∀ e : ℝ,
    (|e| ≤ Real.pi → Sys2Proof.Machine.unwrap realNumerics e = e)
    ∧ (|e| ≤ 3 * Real.pi → |Sys2Proof.Machine.unwrap realNumerics e| ≤ Real.pi)
    ∧ ∃ k : Int, |k| ≤ 1 ∧ Sys2Proof.Machine.unwrap realNumerics e = e + (k : ℝ) * (2 * Real.pi)

/-- EQUALIZE and EQ_SYMBOL (R150, R152). At binary32: the sample plus the balance, times the gain; and the interpolation
between the two equalized, unwrapped samples of the history around the time, each operation rounded. Over the reals: linear
interpolation at the fraction of the offset; at a whole offset it is the first of the two samples. -/
def Obligations.EqSymbolInterpolates : Prop :=
  (∀ (v : F32) (s : State), opEqualize words32 v s = F32.mul (F32.add v s.balance) s.gain)
  ∧ (∀ (n : Int) (off : F32) (s : State),
    let equalized : Int → F32 := fun j =>
      Sys2Proof.Machine.unwrap binary32 (F32.mul (F32.add (s.sampleAt words32 j) s.balance) s.gain)
    let e1 := equalized (n + F32.floor off)
    let e2 := equalized (n + F32.floor off + 1)
    opEqSymbol words32 n off s
      = F32.add e1 (F32.mul (F32.sub e2 e1) (F32.sub off (F32.ofInt (F32.floor off)))))
  ∧ ∀ (g : Signal ℝ) (n : Int) (off : ℝ),
    let e1 := Sys2Proof.Machine.unwrap realNumerics ((g.smp (n + ⌊off⌋) + g.balance) * g.gain)
    let e2 := Sys2Proof.Machine.unwrap realNumerics ((g.smp (n + ⌊off⌋ + 1) + g.balance) * g.gain)
    let v := eqSymbol realNumerics g n off
    v = e1 + (e2 - e1) * Int.fract off
      ∧ min e1 e2 ≤ v ∧ v ≤ max e1 e2
      ∧ (off = (⌊off⌋ : ℝ) → v = e1)

/-- EQ_APPLY: what it writes and what it returns (R155), and nothing else changes. -/
def Obligations.EqApplyResult : Prop :=
  ∀ (c : Correction F32) (s : State),
    let k : F32 := if s.synchronized then 0x3E19999A#32 else 0x3F800000#32
    let clampTo : F32 → F32 → F32 → F32 := fun v lo hi => if F32.lt v lo then lo else if F32.lt hi v then hi else v
    let recal := s.synchronized
      && F32.lt 0x3EC90FDB#32 (F32.mul (F32.sub 0x3F800000#32 0x3E19999A#32) (F32.abs c.balAdj))
    opEqApply words32 c s =
      ({ s with
          balance := clampTo (F32.add s.balance (F32.mul k c.balAdj)) 0xBF860A92#32 0x3F860A92#32
          gain := if recal then s.gainInitial
            else clampTo (F32.add s.gain (F32.mul k c.gainAdj)) s.gainMin s.gainMax
          synchronized := s.synchronized && !recal },
        recal)

/-! ### The detector family (R180 to R189) -/

/-- IDEAL_PHASE is the table of R180; TO_SYMBOL is the four regions of R181, by pattern, over every finite value. -/
def Obligations.DibitQuadrants : Prop :=
  idealPhase binary32 0b00#2 = 0x3F490FDB#32 ∧ idealPhase binary32 0b01#2 = 0x4016CBE4#32
    ∧ idealPhase binary32 0b10#2 = 0xBF490FDB#32 ∧ idealPhase binary32 0b11#2 = 0xC016CBE4#32
    ∧ ∀ v : F32, F32.isFinite v = true →
      (v.toNat ≤ 0x3FC90FDB → toSymbol binary32 v = 0b00#2)
      ∧ (0x3FC90FDB < v.toNat → v.toNat < 0x80000000 → toSymbol binary32 v = 0b01#2)
      ∧ (v.toNat = 0x80000000 → toSymbol binary32 v = 0b00#2)
      ∧ (0x80000000 < v.toNat → v.toNat ≤ 0xBFC90FDB → toSymbol binary32 v = 0b10#2)
      ∧ (0xBFC90FDB < v.toNat → toSymbol binary32 v = 0b11#2)

/-- BIT_DISTANCE is the table of R182, rows a and columns b in the order 00, 01, 10, 11. -/
def Obligations.BitDistanceTable : Prop :=
  (∀ a b : Dibit, bitDistance a b
      = ([[0, 1, 1, 2], [1, 0, 2, 1], [1, 2, 0, 1], [2, 1, 1, 0]].getD a.toNat []).getD b.toNat 0)
    ∧ ∀ a b : Dibit, bitDistance a b ≤ 2

/-- HARD_ERRORS is the sum over the pattern of the bit distances, at most 2L, and 0 exactly where the last L hard decisions are
the pattern (R184). -/
def Obligations.HardErrorsCount : Prop :=
  ∀ s : State, s.hardHist.length = s.params.syncPattern.length →
    opHardErrors s
      = ((List.range s.params.syncPattern.length).map fun k =>
          bitDistance (s.hardHist.getD k 0#2) (s.params.syncPattern.getD k 0#2)).sum
    ∧ opHardErrors s ≤ 2 * s.params.syncPattern.length
    ∧ (opHardErrors s = 0 ↔ s.hardHist = s.params.syncPattern)

/-- SOFT_SCORE is the multiply-accumulate from lane 0: it starts at +0.0, each lane adds its rounded product; an all-zero
history scores +0.0 against every pattern (R183). -/
def Obligations.SoftScoreAccumulates : Prop :=
  softScore binary32 [] [] = 0x00000000#32
  ∧ (∀ (hist : List F32) (pat : List Dibit) (v : F32) (d : Dibit), hist.length = pat.length →
      softScore binary32 (hist ++ [v]) (pat ++ [d]) = F32.add (softScore binary32 hist pat) (F32.mul v (idealPhase binary32 d)))
  ∧ ∀ pat : List Dibit, softScore binary32 (List.replicate pat.length 0x00000000#32) pat = 0x00000000#32

/-- STDDEV (R185). At binary32: the mean, then the root of the mean of the squared deviations from it, summed in order from
+0.0, each operation rounded. Over the reals: the mean of at least one value and their population standard deviation, the
divisor N; a constant sequence deviates by 0. -/
def Obligations.StddevPopulation : Prop :=
  (∀ vs : List F32,
    let count := F32.ofInt (vs.length : Int)
    let mean := F32.div (vs.foldl F32.add 0x00000000#32) count
    let squares := vs.map fun v => F32.mul (F32.sub v mean) (F32.sub v mean)
    stddev binary32 vs = (F32.sqrt (F32.div (squares.foldl F32.add 0x00000000#32) count), mean))
  ∧ ∀ vs : List ℝ, vs ≠ [] →
    (stddev realNumerics vs).2 = vs.sum / vs.length
    ∧ 0 ≤ (stddev realNumerics vs).1
    ∧ (stddev realNumerics vs).1 ^ 2
        = (vs.map fun v => (v - vs.sum / vs.length) ^ 2).sum / vs.length
    ∧ ∀ c : ℝ, (∀ v ∈ vs, v = c) → (stddev realNumerics vs).1 = 0

/-- MEASURE (R187). At binary32: from the L symbols at the instants spaced SPS apart that end at its time, at the gain of the
state, each operation rounded and the sums in order from +0.0: the balance adjustment is the mean error negated and divided by
the gain, the gain adjustment scales the spread to the ideal magnitude, or is +0.0 without a spread, and the corrected bits are
the sum of the bit distances between the decided symbols and the pattern. Over the reals the balance adjustment, through the
gain, cancels the mean error against the ideal phases, and where the spread is not 0 the gain adjustment scales it to the ideal
magnitude. -/
def Obligations.MeasureCancels : Prop :=
  (∀ (pat : List Dibit) (n : Int) (t : F32) (s : State),
    let vs := (List.range pat.length).map fun k : Nat =>
      opEqSymbol words32 n (F32.sub t (F32.mul (F32.ofInt ((pat.length : Int) - 1 - (k : Int))) s.sps)) s
    let total : List F32 → F32 := fun xs => xs.foldl F32.add 0x00000000#32
    let err := F32.div (total (List.zipWith (fun v d => F32.sub v (idealPhase binary32 d)) vs pat))
      (F32.ofInt (pat.length : Int))
    let ideal := total (pat.map fun d => F32.abs (idealPhase binary32 d))
    let spread := total (vs.map fun v => F32.abs (F32.sub v err))
    opMeasure words32 pat n t s =
      { balAdj := F32.div (F32.neg err) s.gain
        gainAdj :=
          if F32.lt 0x00000000#32 spread = true then F32.sub (F32.mul s.gain (F32.div ideal spread)) s.gain
          else 0x00000000#32
        correctedBits := (List.zipWith (fun v d => bitDistance (toSymbol binary32 v) d) vs pat).sum })
  ∧ ∀ (gain : ℝ) (vs : List ℝ) (pat : List Dibit), gain ≠ 0 → pat ≠ [] → vs.length = pat.length →
    let m := measurement realNumerics gain vs pat
    let ideal := pat.map (idealPhase realNumerics)
    let mean := (vs.sum - ideal.sum) / pat.length
    let spread := (vs.map fun v => |v - mean|).sum
    (vs.map fun v => v + m.balAdj * gain).sum = ideal.sum
      ∧ (0 < spread → (gain + m.gainAdj) / gain * spread = (ideal.map fun v => |v|).sum)
      ∧ (spread = 0 → m.gainAdj = 0)
      ∧ m.correctedBits = (List.zipWith (fun v d => bitDistance (toSymbol realNumerics v) d) vs pat).sum
      ∧ m.correctedBits ≤ 2 * pat.length

/-- The search over the reals: it answers an offset within the window, with the score of that offset, which is at least the
score it began with (R189, its corner case (d)). -/
def Obligations.SearchInWindow : Prop :=
  ∀ (scoreOf : ℝ → ℝ) (window minStep : ℝ) (fuel : Nat) (c : Search ℝ),
    |c.off| ≤ window → 0 < c.step → c.score = scoreOf c.off →
    let found := search realNumerics scoreOf window minStep fuel c
    |found.off| ≤ window ∧ found.score = scoreOf found.off ∧ c.score ≤ found.score

/-- The search ends (R189 (a)): at binary32, whatever the scores, from a finite step and with MIN_STEP above 0, the bound on its
iterations is never what stops it. The bound `searchFuel` is the model's (log 10). -/
def Obligations.SearchEnds : Prop :=
  ∀ (scoreOf : F32 → F32) (window minStep : F32) (c : Search F32),
    F32.isFinite c.step = true → F32.lt 0x00000000#32 minStep = true →
    F32.le minStep (search binary32 scoreOf window minStep searchFuel c).step = false

/-- OPTIMIZE (R186, R188, R189). SCORE_AT is the soft score of the signal at the L instants spaced SPS apart that end at its
time. A window noisier than NOISE_STDDEV_MAX is rejected; else the search runs from offset +0.0, coarse while synchronized and
fine while not, each iteration moving to the better neighbour within ±W, right on a tie, or halving the step, while the step is
at least MIN_STEP; a score found that does not exceed 40.0 is rejected, and any other is answered with the search's offset and
score and the measurement there. `searchFuel` is the model's bound on the iterations (log 10). -/
def Obligations.OptimizeValid : Prop :=
  ∀ (pat : List Dibit) (add det : F32) (n : Int) (mu : F32) (s : State),
    let base := F32.add mu add
    let lo := n + F32.floor (F32.sub base (F32.mul (F32.ofInt ((pat.length : Int) - 1)) s.sps))
    let hi := n + F32.floor base + 1
    let samples := (List.range (hi - lo + 1).toNat).map fun j : Nat => s.sampleAt words32 (lo + (j : Int))
    let scoreOf : F32 → F32 := fun off => opScoreAt words32 pat n (F32.add base off) s
    let window := if s.synchronized then F32.div s.sps 0x40000000#32 else s.sps
    let first := F32.div s.sps (if s.synchronized then 0x41000000#32 else 0x41800000#32)
    let climb := search binary32 scoreOf window s.params.minStep
    let found := climb searchFuel ⟨0x00000000#32, scoreOf 0x00000000#32, first⟩
    let m := opMeasure words32 pat n (F32.add base found.off) s
    (∀ t : F32, opScoreAt words32 pat n t s
      = softScore binary32
          ((List.range pat.length).map fun k : Nat =>
            opEqSymbol words32 n (F32.sub t (F32.mul (F32.ofInt ((pat.length : Int) - 1 - (k : Int))) s.sps)) s) pat)
    ∧ (∀ (fuel : Nat) (c : Search F32),
        let right := F32.add c.off c.step
        let left := F32.sub c.off c.step
        let leftOpen := F32.le (F32.neg window) left
        climb (fuel + 1) c =
          if F32.le s.params.minStep c.step = false then c
          else if F32.le right window = true ∧ F32.lt c.score (scoreOf right) = true
              ∧ (leftOpen = true → F32.le (scoreOf left) (scoreOf right) = true) then
            climb fuel ⟨right, scoreOf right, c.step⟩
          else if leftOpen = true ∧ F32.lt c.score (scoreOf left) = true then
            climb fuel ⟨left, scoreOf left, c.step⟩
          else climb fuel ⟨c.off, c.score, F32.div c.step 0x40000000#32⟩)
    ∧ opOptimize words32 pat add det n mu s =
        (if F32.lt s.params.noiseStddevMax (stddev binary32 samples).1 = true then none
        else if F32.lt 0x42200000#32 found.score = true then
          some ⟨add, found.off, m.balAdj, m.gainAdj, det, found.score, m.correctedBits⟩
        else none)
    ∧ m.correctedBits ≤ 2 * pat.length

/-! ### The symbol processor family (R220 to R229) -/

/-- PREBIAS (R220): a block under 400 samples, or a second check, changes nothing; the first large block sets `prebias_done`
and moves the balance only if the block is not synchronized and the deviation of the first 400 samples is small. -/
def Obligations.PrebiasCases : Prop :=
  ∀ (v : List F32) (s : State),
    let sd := (stddev binary32 (v.take 400)).1
    let mean := (stddev binary32 (v.take 400)).2
    let moved := F32.add s.balance (F32.mul s.params.prebiasGain (F32.sub (F32.neg mean) s.balance))
    (s.prebiasDone = true ∨ v.length < 400 → opPrebias words32 v s = s)
    ∧ (s.prebiasDone = false → 400 ≤ v.length →
        (s.synchronized = true ∨ F32.le sd s.params.prebiasNoiseMax = false) →
        opPrebias words32 v s = { s with prebiasDone := true })
    ∧ (s.prebiasDone = false → 400 ≤ v.length → s.synchronized = false →
        F32.le sd s.params.prebiasNoiseMax = true →
        opPrebias words32 v s =
          { s with
            prebiasDone := true
            balance := if F32.lt moved 0xBF860A92#32 then 0xBF860A92#32
              else if F32.lt 0x3F860A92#32 moved then 0x3F860A92#32 else moved })

/-- SAMPLE_STEP takes one from the sample point and takes at most one symbol, if the point is then below 1 (R221); it never
touches the history, the counters `r` and `p`, the timestamp, the parameters, the configuration or the fault state. -/
def Obligations.SampleStepCases : Prop :=
  ∀ (n : Int) (s : State),
    let t : State := { s with samplePoint := F32.sub s.samplePoint 0x3F800000#32 }
    (F32.lt t.samplePoint 0x3F800000#32 = true → opSampleStep words32 n s = opSymbolStep words32 n t)
    ∧ (F32.lt t.samplePoint 0x3F800000#32 = false → opSampleStep words32 n s = t)
    ∧ State.SameSetup s (opSampleStep words32 n s)
    ∧ (opSampleStep words32 n s).smp = s.smp ∧ (opSampleStep words32 n s).r = s.r ∧ (opSampleStep words32 n s).p = s.p
    ∧ (opSampleStep words32 n s).refTs = s.refTs ∧ (opSampleStep words32 n s).prebiasDone = s.prebiasDone

/-- SYMBOL_STEP (R222): SYNC_CHECK at the sample point it began with, of the state in which SOFT is emitted if it is enabled,
the framer and the recording have the decided dibit, the three histories have taken the soft symbol, the dibit and the sample
half a symbol earlier, the counters have advanced, and the sample point is one SPS and one nudge later. The symbol counters and
what is kept are said of the result as well. -/
def Obligations.SymbolStepResult : Prop :=
  ∀ (n : Int) (s : State),
    let mu := s.samplePoint
    let soft := opEqSymbol words32 n mu s
    let d := toSymbol binary32 soft
    let nudge := opTimingNudge words32 n mu d s
    let emitted : State :=
      { s with output := s.output ++ (if s.params.softOutEnable then [0x02#8 ++ 0#22 ++ d, soft] else []) }
    let u := opRecordPush words32 d (opFramerDibit words32 d emitted)
    let decided : State :=
      { u with
        softHist := s.softHist.drop 1 ++ [soft]
        hardHist := s.hardHist.drop 1 ++ [d]
        lagHist := s.lagHist.drop 1 ++ [opEqSymbol words32 n (F32.sub mu (F32.div s.sps 0x40000000#32)) s]
        symbolsSinceSync := BitVec.ofNat 32 (min (s.symbolsSinceSync.toNat + 1) (2 ^ 32 - 1))
        totalSymbols := s.totalSymbols + 1#32
        samplePoint := F32.add (F32.add mu s.sps) nudge }
    let t := opSymbolStep words32 n s
    t = opSyncCheck words32 n mu decided
    ∧ t.softHist = decided.softHist ∧ t.hardHist = decided.hardHist ∧ t.lagHist = decided.lagHist
    ∧ t.totalSymbols = s.totalSymbols + 1#32
    ∧ t.dibitsSinceTs = s.dibitsSinceTs + 1#32
    ∧ (t.symbolsSinceSync = 0#32 ∨ t.symbolsSinceSync = decided.symbolsSinceSync)
    ∧ State.SameSetup s t ∧ State.OutputContinues emitted t
    ∧ t.smp = s.smp ∧ t.r = s.r ∧ t.p = s.p ∧ t.refTs = s.refTs ∧ t.prebiasDone = s.prebiasDone

/-- TIMING_NUDGE (R223): +NUDGE_MAX where the slope across the symbol has the sign of the decided phase, -NUDGE_MAX where it has
not, and none for a flat slope or with NUDGE_MAX = 0. -/
def Obligations.TimingNudgeSign : Prop :=
  ∀ (n : Int) (mu : F32) (d : Dibit) (s : State),
    let e1 := Sys2Proof.Machine.unwrap binary32 (opEqualize words32 (s.sampleAt words32 (n + F32.floor mu)) s)
    let e2 := Sys2Proof.Machine.unwrap binary32 (opEqualize words32 (s.sampleAt words32 (n + F32.floor mu + 1)) s)
    let trend := F32.sub e2 e1
    let nudge := opTimingNudge words32 n mu d s
    (F32.eq s.params.nudgeMax 0#32 = true ∨ F32.eq trend 0#32 = true → nudge = 0#32)
    ∧ (F32.eq s.params.nudgeMax 0#32 = false → F32.eq trend 0#32 = false →
        nudge = if F32.lt 0#32 trend = !d.getLsbD 1 then s.params.nudgeMax else F32.neg s.params.nudgeMax)

/-- SYNC_CHECK (R224): the scores of this symbol are kept; from the end of the hold-off the detectors of R225 are tried, and an
accepted Correction ends it. With none accepted, whether or not one fired: a coast at exactly 384 symbols with at most 10 hard
errors, else the loss of sync after more than 800, else nothing more. During the hold-off, and where no score exceeds 40.0,
none is tried. -/
def Obligations.SyncCheckResult : Prop :=
  ∀ (n : Int) (mu : F32) (s : State),
    let t : State :=
      { s with
        lastScorePrimary := softScore binary32 s.softHist s.params.syncPattern
        lastScoreLag := softScore binary32 s.lagHist s.params.syncPattern
        lastScoreControl :=
          match s.params.controlPattern with
          | some pat => softScore binary32 s.softHist pat
          | none => 0x00000000#32 }
    let tried : State × Bool :=
      if s.params.syncHoldoff ≤ s.symbolsSinceSync.toNat then tryDetectors words32 n mu (detectors words32 t) t
      else (t, false)
    opSyncCheck words32 n mu s =
        (if tried.2 = true then tried.1
        else if s.symbolsSinceSync = 384#32 ∧ opHardErrors s ≤ 10 then opCoastSync words32 tried.1
        else if s.synchronized = true ∧ 800 < s.symbolsSinceSync.toNat then
          { tried.1 with synchronized := false, gain := s.gainInitial }
        else tried.1)
    ∧ (s.symbolsSinceSync.toNat < s.params.syncHoldoff
        ∨ F32.lt 0x42200000#32 t.lastScorePrimary = false ∧ F32.lt 0x42200000#32 t.lastScoreLag = false
          ∧ F32.lt 0x42200000#32 t.lastScoreControl = false →
        tried = (t, false))

/-- DETECTORS is PRIMARY, CONTROL where CONTROL_PATTERN is present, and LAG, in this order, with their patterns, their offsets
+0.0, +0.0 and -SPS/2, and their scores (R225). Tried in order (R224): either every detector whose score exceeds 40.0 gives an
invalid Correction, and each counts once, or the first valid one is accepted with its kind and its corrected bits, those
invalid before it counted. -/
def Obligations.FirstValidDetector : Prop :=
  (∀ s : State, detectors words32 s =
    [⟨.primary, s.params.syncPattern, 0x00000000#32, s.lastScorePrimary⟩]
      ++ (s.params.controlPattern.toList.map fun pat => ⟨.control, pat, 0x00000000#32, s.lastScoreControl⟩)
      ++ [⟨.lag, s.params.syncPattern, F32.neg (F32.div s.sps 0x40000000#32), s.lastScoreLag⟩])
  ∧ ∀ (n : Int) (mu : F32) (ds : List (Detector F32)) (s : State),
    let fires : Detector F32 → Bool := fun d => F32.lt 0x42200000#32 d.score
    let answer : Detector F32 → Option (Correction F32) :=
      fun d => opOptimize words32 d.pattern d.additionalOffset d.score n mu s
    let counted : List (Detector F32) → State :=
      fun tried => { s with invalidCount := s.invalidCount + BitVec.ofNat 32 (tried.filter fires).length }
    (∀ d ∈ ds, fires d = true → answer d = none) ∧ tryDetectors words32 n mu ds s = (counted ds, false)
    ∨ ∃ before d after c, ds = before ++ d :: after
        ∧ (∀ e ∈ before, fires e = true → answer e = none)
        ∧ fires d = true ∧ answer d = some c
        ∧ tryDetectors words32 n mu ds s =
          (opAcceptSync words32 c d.kind
            { counted before with lastCorrectedBits := BitVec.ofNat 32 c.correctedBits }, true)

/-- ACCEPT_SYNC (R226): the Correction is applied, the timing is shifted and bounded below by -SPS, the counter restarts, the
SYNC record is emitted, and the framer starts a frame after dispatching one in progress. -/
def Obligations.AcceptSyncResult : Prop :=
  ∀ (c : Correction F32) (kind : SyncKind) (s : State),
    let applied := (opEqApply words32 c s).1
    let recal := (opEqApply words32 c s).2
    let shift := F32.add c.additionalOffset c.timingAdjustment
    let moved := F32.add s.samplePoint shift
    let assembling := decide (s.framerState = .assembling)
    opAcceptSync words32 c kind s =
      { applied with
        samplePoint := if F32.lt moved (F32.neg s.sps) then F32.neg s.sps else moved
        symbolsSinceSync := 0#32
        synchronized := !recal
        syncCount := s.syncCount + 1#32
        output := s.output ++ [0x03#8 ++ 0#20 ++ bitOf (!recal) ++ bitOf recal ++ kind.code, c.optScore, shift]
          ++ (if assembling then dispatchedWords s else [])
        framesDispatched := if assembling then s.framesDispatched + 1#32 else s.framesDispatched
        framerState := .assembling
        asmBits := [] }

/-- COAST_SYNC (R227): a sync without a Correction: timing, balance and gain are unchanged; the framer is notified. -/
def Obligations.CoastSyncResult : Prop :=
  ∀ s : State,
    let assembling := decide (s.framerState = .assembling)
    opCoastSync words32 s =
      { s with
        symbolsSinceSync := 0#32
        synchronized := true
        syncCount := s.syncCount + 1#32
        output := s.output ++ [0x0300000B#32, 0#32, 0#32] ++ (if assembling then dispatchedWords s else [])
        framesDispatched := if assembling then s.framesDispatched + 1#32 else s.framesDispatched
        framerState := .assembling
        asmBits := [] }

/-- RECORD_PUSH over any sequence of dibits from an empty recording (R228): the last DELAY_SYMBOLS dibits stand in the delay
line, the ones before them are emitted four to a byte, the rest of them stands in the byte assembler; with RECORD_ENABLE false
nothing changes. -/
def Obligations.RecordingDelayed : Prop :=
  ∀ (ds : List Dibit) (s : State),
    let t := ds.foldl (fun u d => opRecordPush words32 d u) s
    let left := ds.take (ds.length - s.params.delaySymbols)
    (s.params.recordEnable = false → t = s)
    ∧ (s.params.recordEnable = true → s.delayFifo = [] → s.pack = [] →
        t = { s with
          output := s.output ++ recordingWords left
          delayFifo := ds.drop (ds.length - s.params.delaySymbols)
          pack := left.drop (4 * (left.length / 4)) })

/-! ### The frame assembler family (R260 to R264) and the records that carry its bits -/

/-- FRAMER_SYNC and FRAMER_DIBIT (R260, R261): a sync dispatches a frame in progress and starts a new one; a dibit is counted,
and is dropped while IDLE, counted as overflow at a full assembler, or appended, b1 first, dispatching the frame it fills. -/
def Obligations.FramerTransitions : Prop :=
  ∀ (d : Dibit) (s : State),
    let counted : State := { s with dibitsSinceTs := s.dibitsSinceTs + 1#32 }
    let grown : State := { counted with asmBits := s.asmBits ++ [d.getLsbD 1, d.getLsbD 0] }
    (s.framerState = .idle → opFramerSync words32 s = { s with framerState := .assembling, asmBits := [] })
    ∧ (s.framerState = .assembling →
        opFramerSync words32 s =
          { s with
            asmBits := [], framesDispatched := s.framesDispatched + 1#32
            output := s.output ++ dispatchedWords s })
    ∧ (s.framerState = .idle → opFramerDibit words32 d s = counted)
    ∧ (s.framerState = .assembling → s.params.frameBits ≤ s.asmBits.length →
        opFramerDibit words32 d s = { counted with asmOverflow := s.asmOverflow + 1#32 })
    ∧ (s.framerState = .assembling → s.asmBits.length < s.params.frameBits →
        s.asmBits.length + 2 ≠ s.params.frameBits → opFramerDibit words32 d s = grown)
    ∧ (s.framerState = .assembling → s.asmBits.length + 2 = s.params.frameBits →
        opFramerDibit words32 d s =
          { grown with
            framerState := .idle, asmBits := [], framesDispatched := s.framesDispatched + 1#32
            output := s.output ++ dispatchedWords grown })

/-- FRAME_TIMESTAMP (R263): the reference timestamp and floor(dibits × 1000 / symbol rate), modulo 2^64, exactly. -/
def Obligations.FrameTimestamp : Prop :=
  ∀ s : State, s.symbolRate ≠ 0#32 →
    (opFrameTimestamp s).toNat
      = (s.refTs.toNat + s.dibitsSinceTs.toNat * 1000 / s.symbolRate.toNat) % 2 ^ 64

/-- The words of a FRAME record (R122, R86): ceil(B / 32) of them after the timestamp, frame bit j at bit 31 - (j mod 32) of
word floor(j / 32), and 0 past the last bit. -/
def Obligations.FrameBitPacking : Prop :=
  ∀ (complete : Bool) (ts : BitVec 64) (bits : List Bool),
    let ws := (Record.frame complete ts bits).words
    ws.length = 3 + (bits.length + 31) / 32
    ∧ ws[1]? = some (ts.extractLsb' 0 32) ∧ ws[2]? = some (ts.extractLsb' 32 32)
    ∧ (∀ j, j < 32 * ((bits.length + 31) / 32) →
        (ws.getD (3 + j / 32) 0#32).getLsbD (31 - j % 32) = bits.getD j false)
    ∧ (bits.length < 2 ^ 23 →
        (ws.getD 0 0#32).extractLsb' 24 8 = 0x04#8 ∧ (ws.getD 0 0#32).getLsbD 23 = complete
          ∧ ((ws.getD 0 0#32).extractLsb' 0 23).toNat = bits.length)

/-- Frame ordering (R264, property 3 of the source): N syncs interleaved with dibits, then the end of the stream, give exactly N
FRAME records in sync order; frame K holds the first FRAME_BITS / 2 or fewer dibits between sync K and sync K + 1, and no
other. -/
def Obligations.FramesPerSync : Prop :=
  ∀ (es : List FramerEvent) (s : State), s.params.legal = true → s.framerState = .idle → s.asmBits = [] →
    let t := flushEffect words32 (framerRun es s)
    let frames := (dibitsPerSync es).map (frameBitsOf s.params)
    ∃ stamps : List (BitVec 64), stamps.length = frames.length
      ∧ t.output = s.output
          ++ (List.zipWith
              (fun ts bits => (Record.frame (decide (bits.length = s.params.frameBits)) ts bits).words)
              stamps frames).flatten
      ∧ t.framesDispatched = s.framesDispatched + BitVec.ofNat 32 (es.filter fun e => e = .sync).length
      ∧ t.framerState = .idle ∧ t.asmBits = []

/-! ### The internal operations together (R118) -/

/-- What no internal operation touches, and which only compute (R118, R5, R32, R33, R38, R47): the parameters, the input,
`configured`, SPS, the rate and the fault state never change; the gain limits only by EQ_CONFIGURE; the sample history and
its counters, the timestamp and `prebias_done` only by DATAPATH_RESET and PREBIAS; the value operations change nothing; records
are only appended. -/
def Obligations.InternalOpsFrame : Prop :=
  ∀ (op : InternalOp F32) (s : State),
    let t := (runInternal words32 op s).1
    t.params = s.params ∧ t.input = s.input ∧ t.configured = s.configured ∧ t.sps = s.sps
      ∧ t.symbolRate = s.symbolRate
      ∧ t.fault = s.fault ∧ t.faultCode = s.faultCode ∧ t.faultInfo = s.faultInfo
      ∧ State.OutputContinues s t
      ∧ (op.id ≠ 0x83#8 → t.gainInitial = s.gainInitial ∧ t.gainMin = s.gainMin ∧ t.gainMax = s.gainMax)
      ∧ (op.id ≠ 0x9B#8 → t.smp = s.smp ∧ t.r = s.r ∧ t.p = s.p ∧ t.refTs = s.refTs)
      ∧ (op.id ≠ 0x9B#8 → op.id ≠ 0x8F#8 → t.prebiasDone = s.prebiasDone)
      ∧ (op.id ∈ [0x80#8, 0x81#8, 0x82#8, 0x86#8, 0x87#8, 0x88#8, 0x89#8, 0x8A#8, 0x8B#8, 0x8C#8, 0x8D#8, 0x8E#8,
          0x92#8, 0x9A#8] → t = s)

/-! ### The sample history (R81) -/

/-- HistAppend and SMP (R81): the sample appended is read at its index, the earlier ones as before, an index below 0 is +0.0,
and every history stays in canonical form. `r` does not wrap (R297 (c)). -/
def Obligations.HistoryReads : Prop :=
  ∀ (v : F32) (s : State), Memory.wf binary32 s.smp = true → s.r.toNat + 1 < 2 ^ 64 →
    let t := State.histAppend words32 v s
    t.r = s.r + 1#64 ∧ t.sampleAt words32 (s.r.toNat : Int) = v
      ∧ (∀ j : Int, j < 0 → t.sampleAt words32 j = 0x00000000#32)
      ∧ (∀ j : Int, 0 ≤ j → j < (s.r.toNat : Int) → t.sampleAt words32 j = s.sampleAt words32 j)
      ∧ Memory.wf binary32 t.smp = true

/-! ### What holds of every state and every step -/

/-- The bookkeeping invariant holds at power-on for every legal set of parameters, and at the reset state. That the parameters
of the reset state are the example set is the model's choice (log 1). -/
def Obligations.PowerOnKept : Prop :=
  (∀ c : Params, c.legal = true →
    (State.powerOn c).Kept ∧ (State.powerOn c).HistoryKept ∧ (State.powerOn c).BalanceKept ∧ (State.powerOn c).GainKept)
  ∧ State.reset.Kept ∧ State.reset.HistoryKept ∧ State.reset.BalanceKept ∧ State.reset.GainKept

/-- Every step keeps the bookkeeping invariant: legal parameters, the canonical sample history, histories of L entries, the
delay line and the byte assembler within their bounds, an empty assembler while IDLE that is never full, no overflow, a clear
fault state without a fault, and a legal configuration (R5, R32, R40, R44, R45, R47, R81, R261, R320). -/
def Obligations.StepKeepsBookkeeping : Prop :=
  ∀ s t : State, s.Kept → step s = .next t → t.Kept

/-- Every step keeps p ≤ r and a history of samples 0 to r - 1 only, as long as `r` cannot wrap in it (R38, R297 (c)). -/
def Obligations.StepKeepsHistory : Prop :=
  ∀ s t : State, s.Kept → s.HistoryKept → s.r.toNat + 2 ^ 24 < 2 ^ 64 → step s = .next t → t.HistoryKept

/-- Every step keeps this: no comparison finds the balance outside [-π/3, π/3] (R34), nor, once configured, the gain outside
its limits, which are in order (R33, R35; property 2 of the source). At binary32 a NaN, which no run holds (R10), is not
excluded. Over the reals, where the step is the same text (R8; the model's real reading is log 11), every step keeps the balance
and the gain between those limits. -/
def Obligations.StepKeepsClamps : Prop :=
  (∀ s t : State, step s = .next t →
    t = runStep words32 s ∧ (s.BalanceKept → t.BalanceKept) ∧ (s.GainKept → t.GainKept))
  ∧ ∀ b : RealState,
    (RealState.BalanceKept b → RealState.BalanceKept (runStep reals b))
    ∧ (RealState.GainKept b → RealState.GainKept (runStep reals b))

/-- Who writes the configuration (R32, R33): only CONFIGURE, and what it writes; the parameters never change (R5); at power-on
the block is not configured. -/
def Obligations.SetupWriters : Prop :=
  (∀ (i : Instr) (s t : State), exec i s = .next t →
    t.params = s.params
    ∧ (t.configured = s.configured ∧ t.sps = s.sps ∧ t.symbolRate = s.symbolRate
        ∧ t.gainInitial = s.gainInitial ∧ t.gainMin = s.gainMin ∧ t.gainMax = s.gainMax
      ∨ ∃ (rate : Operand) (sps : Word), i = .configure rate sps
        ∧ t.configured = true ∧ t.sps = sps ∧ t.symbolRate = 0#8 ++ rate
        ∧ 1 ≤ t.symbolRate.toNat ∧ t.symbolRate.toNat ≤ 2 ^ 24 - 1))
  ∧ ∀ c : Params, (State.powerOn c).configured = false ∧ (State.powerOn c).sps = 0x00000000#32
      ∧ (State.powerOn c).symbolRate = 0#32

/-- A command's effect does not depend on the words that follow it on the input, nor on the records emitted before it: it only
appends its own (R87, R90). -/
def Obligations.StreamsNotRead : Prop :=
  ∀ (i : Instr) (s : State), ∃ (t : State) (ws : List Word),
    ∀ (rest out : List Word),
      exec i { s with input := rest, output := out } = .next { t with input := rest, output := out ++ ws }
end

