-- ==== Sys2Proof/Laws/Decode.lean ====
section
/-! SUPPORT. The fields of command words: what the decoder's field extraction gives on words that the encoder writes. -/

namespace Sys2Proof

/-- A concatenation as a number. -/
theorem toNat_append_eq {a b : Nat} (hi : BitVec a) (lo : BitVec b) :
    (hi ++ lo).toNat = hi.toNat * 2 ^ b + lo.toNat := by
  rw [BitVec.toNat_append, ← Nat.shiftLeft_add_eq_or_of_lt lo.isLt, Nat.shiftLeft_eq]

/-- OPCODE as a number. -/
theorem opcodeOf_toNat (w : Word) : (opcodeOf w).toNat = w.toNat / 2 ^ 24 := by
  have := w.isLt
  simp only [opcodeOf, BitVec.extractLsb'_toNat, Nat.shiftRight_eq_div_pow]
  omega

/-- OPERAND as a number. -/
theorem operandOf_toNat (w : Word) : (operandOf w).toNat = w.toNat % 2 ^ 24 := by
  simp [operandOf, BitVec.extractLsb'_toNat]

@[simp] theorem opcodeOf_opWord (op : Opcode) (x : Operand) : opcodeOf (opWord op x) = op := by
  apply BitVec.eq_of_toNat_eq
  have := x.isLt
  rw [opcodeOf_toNat, opWord, toNat_append_eq]
  omega

@[simp] theorem operandOf_opWord (op : Opcode) (x : Operand) : operandOf (opWord op x) = x := by
  apply BitVec.eq_of_toNat_eq
  have := x.isLt
  rw [operandOf_toNat, opWord, toNat_append_eq]
  omega

/-- A command word is its two fields. -/
theorem opWord_fields (w : Word) : opWord (opcodeOf w) (operandOf w) = w := by
  apply BitVec.eq_of_toNat_eq
  rw [opWord, toNat_append_eq, opcodeOf_toNat, operandOf_toNat]
  omega

/-- Only the opcodes 0x01 and 0x02 have a payload (R129). -/
theorem payloadLength_eq_zero {w : Word} (h1 : (opcodeOf w).toNat ≠ 1) (h2 : (opcodeOf w).toNat ≠ 2) :
    payloadLength w = 0 := by
  unfold payloadLength
  split <;> simp_all

theorem payloadLength_configure (x : Operand) : payloadLength (opWord 0x01#8 x) = 1 := by
  simp [payloadLength]

theorem payloadLength_samples (x : Operand) : payloadLength (opWord 0x02#8 x) = 2 + x.toNat := by
  simp [payloadLength]

end Sys2Proof
end

