-- ==== Sys2Proof/Laws/Memory.lean ====
section
/-! SUPPORT. The laws of the sample history: a read after a write, and the canonical form that every write keeps. -/

namespace Sys2Proof.Machine

variable {α ω : Type} {N : Numerics α}

@[simp] theorem Memory.read_nil (a : Nat) : Memory.read N [] a = Memory.unlisted N := rfl

theorem Memory.read_cons (b : Nat) (v : α) (m : Memory α) (a : Nat) :
    Memory.read N ((b, v) :: m) a = if b = a then v else Memory.read N m a := rfl

theorem Memory.above_iff (a : Nat) (m : Memory α) : Memory.above a m = true ↔ ∀ cell ∈ m, a < cell.1 := by
  simp [Memory.above]

/-- An index below every listed one reads as unlisted. -/
theorem Memory.read_below {a b : Nat} {m : Memory α} (h : Memory.above a m = true) (hb : b ≤ a) :
    Memory.read N m b = Memory.unlisted N := by
  induction m with
  | nil => rfl
  | cons cell m ih =>
    obtain ⟨c, v⟩ := cell
    rw [Memory.above_iff] at h ih
    have hc : a < c := h (c, v) (by simp)
    rw [Memory.read_cons, if_neg (by omega), ih fun x hx => h x (by simp [hx])]

variable [DecidableEq α]

theorem Memory.wf_cons (a : Nat) (v : α) (m : Memory α) :
    Memory.wf N ((a, v) :: m) = true ↔ v ≠ Memory.unlisted N ∧ Memory.above a m = true ∧ Memory.wf N m = true := by
  simp [Memory.wf, and_assoc]

/-- A write at another index leaves a read alone. -/
theorem Memory.read_write_other {a b : Nat} (h : b ≠ a) (m : Memory α) (v : α) :
    Memory.read N (Memory.write N m a v) b = Memory.read N m b := by
  induction m with
  | nil => unfold Memory.write; split <;> simp [Memory.read_cons, h.symm]
  | cons cell m ih =>
    obtain ⟨c, w⟩ := cell
    unfold Memory.write
    split
    · split <;> simp [Memory.read_cons, h.symm]
    · split
      · subst c; split <;> simp [Memory.read_cons, h.symm]
      · simp [Memory.read_cons, ih]

/-- A read gives what was written last. -/
theorem Memory.read_write_same {m : Memory α} (h : Memory.wf N m = true) (a : Nat) (v : α) :
    Memory.read N (Memory.write N m a v) a = v := by
  induction m with
  | nil => unfold Memory.write; split <;> simp_all [Memory.read_cons]
  | cons cell m ih =>
    obtain ⟨c, w⟩ := cell
    rw [Memory.wf_cons] at h
    obtain ⟨-, habove, hm⟩ := h
    unfold Memory.write
    split
    · rename_i hac
      split
      · rename_i hv
        rw [Memory.read_cons, if_neg (by omega), Memory.read_below habove (by omega), hv]
      · simp [Memory.read_cons]
    · split
      · subst c
        split
        · rename_i hv; rw [Memory.read_below habove le_rfl, hv]
        · simp [Memory.read_cons]
      · rename_i hne
        rw [Memory.read_cons, if_neg (fun e => hne e.symm), ih hm]

/-- A write adds no index but its own. -/
theorem Memory.mem_write {m : Memory α} {a : Nat} {v : α} {cell : Nat × α} (h : cell ∈ Memory.write N m a v) :
    cell.1 = a ∨ cell ∈ m := by
  induction m with
  | nil => unfold Memory.write at h; split at h <;> simp_all
  | cons c m ih =>
    obtain ⟨c, w⟩ := c
    unfold Memory.write at h
    split at h
    · split at h <;> simp_all
      rcases h with h | h | h <;> simp [h]
    · split at h
      · split at h <;> simp_all
        rcases h with h | h <;> simp [h]
      · rcases List.mem_cons.1 h with h | h
        · simp [h]
        · rcases ih h with h | h <;> simp [h]

/-- Every write keeps the canonical form. -/
theorem Memory.write_wf {m : Memory α} (h : Memory.wf N m = true) (a : Nat) (v : α) :
    Memory.wf N (Memory.write N m a v) = true := by
  induction m with
  | nil => unfold Memory.write; split <;> simp_all [Memory.wf, Memory.above]
  | cons cell m ih =>
    obtain ⟨c, w⟩ := cell
    have hcons := h
    rw [Memory.wf_cons] at h
    obtain ⟨hw, habove, hm⟩ := h
    unfold Memory.write
    split
    · rename_i hac
      split
      · exact hcons
      · rename_i hv
        rw [Memory.wf_cons]
        refine ⟨hv, ?_, hcons⟩
        rw [Memory.above_iff] at habove ⊢
        intro x hx
        rcases List.mem_cons.1 hx with rfl | hx
        · exact hac
        · exact hac.trans (habove x hx)
    · split
      · subst c
        split
        · exact hm
        · rename_i hv; exact (Memory.wf_cons ..).2 ⟨hv, habove, hm⟩
      · refine (Memory.wf_cons ..).2 ⟨hw, ?_, ih hm⟩
        rw [Memory.above_iff] at habove ⊢
        intro x hx
        rcases Memory.mem_write hx with e | hx
        · omega
        · exact habove x hx

variable {K : Reading α ω}

/-- HistAppend keeps the canonical form (R81). -/
theorem histAppend_wf {s : State.Over α ω} (h : Memory.wf K.num s.smp = true) (v : α) :
    Memory.wf K.num (State.histAppend K v s).smp = true := Memory.write_wf h _ _

/-- So does the append of a whole block. -/
theorem histAppendAll_wf (vs : List α) {s : State.Over α ω} (h : Memory.wf K.num s.smp = true) :
    Memory.wf K.num (State.histAppendAll K vs s).smp = true := by
  induction vs generalizing s with
  | nil => exact h
  | cons v vs ih => exact ih (histAppend_wf h v)

/-- The memory of the power-on state is in canonical form. -/
theorem powerOn_wf (c : Params) : Memory.wf binary32 (State.powerOn c).smp = true := rfl

/-- The memory of the reset state is in canonical form. -/
theorem reset_wf : Memory.wf binary32 State.reset.smp = true := rfl

end Sys2Proof.Machine
end

