-- ==== Sys2Proof/Laws/State.lean ====
section
/-! SUPPORT. One lemma for each field of the state and each plain update of it, so that no proof unfolds a record update. -/

namespace Sys2Proof.Machine

variable {α ω : Type}

/-! ### The reading of the machine -/

@[simp] theorem words32_num : words32.num = binary32 := rfl
@[simp] theorem words32_ofPattern (v : F32) : words32.ofPattern v = v := rfl
@[simp] theorem words32_ofWord (w : Word) : words32.ofWord w = w := rfl
@[simp] theorem words32_ofNumber (v : F32) : words32.ofNumber v = v := rfl
@[simp] theorem words32_searchFuel (first minStep : F32) : words32.searchFuel first minStep = searchFuel := rfl
@[simp] theorem numberOfWord_words32 (w : Word) : numberOfWord words32 w = w := rfl
@[simp] theorem items_words32 (record : Record F32 Word) : record.items words32 = record.words := rfl

/-! ### `State.emit K rec s` -/

@[simp] theorem emit_params (K : Reading α ω) (rec : Record α ω) (s : State.Over α ω) : (State.emit K rec s).params = s.params := rfl
@[simp] theorem emit_input (K : Reading α ω) (rec : Record α ω) (s : State.Over α ω) : (State.emit K rec s).input = s.input := rfl
@[simp] theorem emit_output (K : Reading α ω) (rec : Record α ω) (s : State.Over α ω) : (State.emit K rec s).output = s.output ++ rec.items K := rfl
@[simp] theorem emit_configured (K : Reading α ω) (rec : Record α ω) (s : State.Over α ω) : (State.emit K rec s).configured = s.configured := rfl
@[simp] theorem emit_sps (K : Reading α ω) (rec : Record α ω) (s : State.Over α ω) : (State.emit K rec s).sps = s.sps := rfl
@[simp] theorem emit_symbolRate (K : Reading α ω) (rec : Record α ω) (s : State.Over α ω) : (State.emit K rec s).symbolRate = s.symbolRate := rfl
@[simp] theorem emit_gainInitial (K : Reading α ω) (rec : Record α ω) (s : State.Over α ω) : (State.emit K rec s).gainInitial = s.gainInitial := rfl
@[simp] theorem emit_gainMin (K : Reading α ω) (rec : Record α ω) (s : State.Over α ω) : (State.emit K rec s).gainMin = s.gainMin := rfl
@[simp] theorem emit_gainMax (K : Reading α ω) (rec : Record α ω) (s : State.Over α ω) : (State.emit K rec s).gainMax = s.gainMax := rfl
@[simp] theorem emit_balance (K : Reading α ω) (rec : Record α ω) (s : State.Over α ω) : (State.emit K rec s).balance = s.balance := rfl
@[simp] theorem emit_gain (K : Reading α ω) (rec : Record α ω) (s : State.Over α ω) : (State.emit K rec s).gain = s.gain := rfl
@[simp] theorem emit_synchronized (K : Reading α ω) (rec : Record α ω) (s : State.Over α ω) : (State.emit K rec s).synchronized = s.synchronized := rfl
@[simp] theorem emit_samplePoint (K : Reading α ω) (rec : Record α ω) (s : State.Over α ω) : (State.emit K rec s).samplePoint = s.samplePoint := rfl
@[simp] theorem emit_r (K : Reading α ω) (rec : Record α ω) (s : State.Over α ω) : (State.emit K rec s).r = s.r := rfl
@[simp] theorem emit_p (K : Reading α ω) (rec : Record α ω) (s : State.Over α ω) : (State.emit K rec s).p = s.p := rfl
@[simp] theorem emit_smp (K : Reading α ω) (rec : Record α ω) (s : State.Over α ω) : (State.emit K rec s).smp = s.smp := rfl
@[simp] theorem emit_softHist (K : Reading α ω) (rec : Record α ω) (s : State.Over α ω) : (State.emit K rec s).softHist = s.softHist := rfl
@[simp] theorem emit_lagHist (K : Reading α ω) (rec : Record α ω) (s : State.Over α ω) : (State.emit K rec s).lagHist = s.lagHist := rfl
@[simp] theorem emit_hardHist (K : Reading α ω) (rec : Record α ω) (s : State.Over α ω) : (State.emit K rec s).hardHist = s.hardHist := rfl
@[simp] theorem emit_symbolsSinceSync (K : Reading α ω) (rec : Record α ω) (s : State.Over α ω) : (State.emit K rec s).symbolsSinceSync = s.symbolsSinceSync := rfl
@[simp] theorem emit_prebiasDone (K : Reading α ω) (rec : Record α ω) (s : State.Over α ω) : (State.emit K rec s).prebiasDone = s.prebiasDone := rfl
@[simp] theorem emit_totalSymbols (K : Reading α ω) (rec : Record α ω) (s : State.Over α ω) : (State.emit K rec s).totalSymbols = s.totalSymbols := rfl
@[simp] theorem emit_syncCount (K : Reading α ω) (rec : Record α ω) (s : State.Over α ω) : (State.emit K rec s).syncCount = s.syncCount := rfl
@[simp] theorem emit_invalidCount (K : Reading α ω) (rec : Record α ω) (s : State.Over α ω) : (State.emit K rec s).invalidCount = s.invalidCount := rfl
@[simp] theorem emit_lastScorePrimary (K : Reading α ω) (rec : Record α ω) (s : State.Over α ω) : (State.emit K rec s).lastScorePrimary = s.lastScorePrimary := rfl
@[simp] theorem emit_lastScoreLag (K : Reading α ω) (rec : Record α ω) (s : State.Over α ω) : (State.emit K rec s).lastScoreLag = s.lastScoreLag := rfl
@[simp] theorem emit_lastScoreControl (K : Reading α ω) (rec : Record α ω) (s : State.Over α ω) : (State.emit K rec s).lastScoreControl = s.lastScoreControl := rfl
@[simp] theorem emit_lastCorrectedBits (K : Reading α ω) (rec : Record α ω) (s : State.Over α ω) : (State.emit K rec s).lastCorrectedBits = s.lastCorrectedBits := rfl
@[simp] theorem emit_delayFifo (K : Reading α ω) (rec : Record α ω) (s : State.Over α ω) : (State.emit K rec s).delayFifo = s.delayFifo := rfl
@[simp] theorem emit_pack (K : Reading α ω) (rec : Record α ω) (s : State.Over α ω) : (State.emit K rec s).pack = s.pack := rfl
@[simp] theorem emit_framerState (K : Reading α ω) (rec : Record α ω) (s : State.Over α ω) : (State.emit K rec s).framerState = s.framerState := rfl
@[simp] theorem emit_asmBits (K : Reading α ω) (rec : Record α ω) (s : State.Over α ω) : (State.emit K rec s).asmBits = s.asmBits := rfl
@[simp] theorem emit_asmOverflow (K : Reading α ω) (rec : Record α ω) (s : State.Over α ω) : (State.emit K rec s).asmOverflow = s.asmOverflow := rfl
@[simp] theorem emit_framesDispatched (K : Reading α ω) (rec : Record α ω) (s : State.Over α ω) : (State.emit K rec s).framesDispatched = s.framesDispatched := rfl
@[simp] theorem emit_refTs (K : Reading α ω) (rec : Record α ω) (s : State.Over α ω) : (State.emit K rec s).refTs = s.refTs := rfl
@[simp] theorem emit_dibitsSinceTs (K : Reading α ω) (rec : Record α ω) (s : State.Over α ω) : (State.emit K rec s).dibitsSinceTs = s.dibitsSinceTs := rfl
@[simp] theorem emit_fault (K : Reading α ω) (rec : Record α ω) (s : State.Over α ω) : (State.emit K rec s).fault = s.fault := rfl
@[simp] theorem emit_faultCode (K : Reading α ω) (rec : Record α ω) (s : State.Over α ω) : (State.emit K rec s).faultCode = s.faultCode := rfl
@[simp] theorem emit_faultInfo (K : Reading α ω) (rec : Record α ω) (s : State.Over α ω) : (State.emit K rec s).faultInfo = s.faultInfo := rfl

/-! ### `State.withInput ws s` -/

@[simp] theorem withInput_params (ws : List Word) (s : State.Over α ω) : (State.withInput ws s).params = s.params := rfl
@[simp] theorem withInput_input (ws : List Word) (s : State.Over α ω) : (State.withInput ws s).input = ws := rfl
@[simp] theorem withInput_output (ws : List Word) (s : State.Over α ω) : (State.withInput ws s).output = s.output := rfl
@[simp] theorem withInput_configured (ws : List Word) (s : State.Over α ω) : (State.withInput ws s).configured = s.configured := rfl
@[simp] theorem withInput_sps (ws : List Word) (s : State.Over α ω) : (State.withInput ws s).sps = s.sps := rfl
@[simp] theorem withInput_symbolRate (ws : List Word) (s : State.Over α ω) : (State.withInput ws s).symbolRate = s.symbolRate := rfl
@[simp] theorem withInput_gainInitial (ws : List Word) (s : State.Over α ω) : (State.withInput ws s).gainInitial = s.gainInitial := rfl
@[simp] theorem withInput_gainMin (ws : List Word) (s : State.Over α ω) : (State.withInput ws s).gainMin = s.gainMin := rfl
@[simp] theorem withInput_gainMax (ws : List Word) (s : State.Over α ω) : (State.withInput ws s).gainMax = s.gainMax := rfl
@[simp] theorem withInput_balance (ws : List Word) (s : State.Over α ω) : (State.withInput ws s).balance = s.balance := rfl
@[simp] theorem withInput_gain (ws : List Word) (s : State.Over α ω) : (State.withInput ws s).gain = s.gain := rfl
@[simp] theorem withInput_synchronized (ws : List Word) (s : State.Over α ω) : (State.withInput ws s).synchronized = s.synchronized := rfl
@[simp] theorem withInput_samplePoint (ws : List Word) (s : State.Over α ω) : (State.withInput ws s).samplePoint = s.samplePoint := rfl
@[simp] theorem withInput_r (ws : List Word) (s : State.Over α ω) : (State.withInput ws s).r = s.r := rfl
@[simp] theorem withInput_p (ws : List Word) (s : State.Over α ω) : (State.withInput ws s).p = s.p := rfl
@[simp] theorem withInput_smp (ws : List Word) (s : State.Over α ω) : (State.withInput ws s).smp = s.smp := rfl
@[simp] theorem withInput_softHist (ws : List Word) (s : State.Over α ω) : (State.withInput ws s).softHist = s.softHist := rfl
@[simp] theorem withInput_lagHist (ws : List Word) (s : State.Over α ω) : (State.withInput ws s).lagHist = s.lagHist := rfl
@[simp] theorem withInput_hardHist (ws : List Word) (s : State.Over α ω) : (State.withInput ws s).hardHist = s.hardHist := rfl
@[simp] theorem withInput_symbolsSinceSync (ws : List Word) (s : State.Over α ω) : (State.withInput ws s).symbolsSinceSync = s.symbolsSinceSync := rfl
@[simp] theorem withInput_prebiasDone (ws : List Word) (s : State.Over α ω) : (State.withInput ws s).prebiasDone = s.prebiasDone := rfl
@[simp] theorem withInput_totalSymbols (ws : List Word) (s : State.Over α ω) : (State.withInput ws s).totalSymbols = s.totalSymbols := rfl
@[simp] theorem withInput_syncCount (ws : List Word) (s : State.Over α ω) : (State.withInput ws s).syncCount = s.syncCount := rfl
@[simp] theorem withInput_invalidCount (ws : List Word) (s : State.Over α ω) : (State.withInput ws s).invalidCount = s.invalidCount := rfl
@[simp] theorem withInput_lastScorePrimary (ws : List Word) (s : State.Over α ω) : (State.withInput ws s).lastScorePrimary = s.lastScorePrimary := rfl
@[simp] theorem withInput_lastScoreLag (ws : List Word) (s : State.Over α ω) : (State.withInput ws s).lastScoreLag = s.lastScoreLag := rfl
@[simp] theorem withInput_lastScoreControl (ws : List Word) (s : State.Over α ω) : (State.withInput ws s).lastScoreControl = s.lastScoreControl := rfl
@[simp] theorem withInput_lastCorrectedBits (ws : List Word) (s : State.Over α ω) : (State.withInput ws s).lastCorrectedBits = s.lastCorrectedBits := rfl
@[simp] theorem withInput_delayFifo (ws : List Word) (s : State.Over α ω) : (State.withInput ws s).delayFifo = s.delayFifo := rfl
@[simp] theorem withInput_pack (ws : List Word) (s : State.Over α ω) : (State.withInput ws s).pack = s.pack := rfl
@[simp] theorem withInput_framerState (ws : List Word) (s : State.Over α ω) : (State.withInput ws s).framerState = s.framerState := rfl
@[simp] theorem withInput_asmBits (ws : List Word) (s : State.Over α ω) : (State.withInput ws s).asmBits = s.asmBits := rfl
@[simp] theorem withInput_asmOverflow (ws : List Word) (s : State.Over α ω) : (State.withInput ws s).asmOverflow = s.asmOverflow := rfl
@[simp] theorem withInput_framesDispatched (ws : List Word) (s : State.Over α ω) : (State.withInput ws s).framesDispatched = s.framesDispatched := rfl
@[simp] theorem withInput_refTs (ws : List Word) (s : State.Over α ω) : (State.withInput ws s).refTs = s.refTs := rfl
@[simp] theorem withInput_dibitsSinceTs (ws : List Word) (s : State.Over α ω) : (State.withInput ws s).dibitsSinceTs = s.dibitsSinceTs := rfl
@[simp] theorem withInput_fault (ws : List Word) (s : State.Over α ω) : (State.withInput ws s).fault = s.fault := rfl
@[simp] theorem withInput_faultCode (ws : List Word) (s : State.Over α ω) : (State.withInput ws s).faultCode = s.faultCode := rfl
@[simp] theorem withInput_faultInfo (ws : List Word) (s : State.Over α ω) : (State.withInput ws s).faultInfo = s.faultInfo := rfl

/-! ### `State.histAppend K v s` -/

@[simp] theorem histAppend_params [DecidableEq α] (K : Reading α ω) (v : α) (s : State.Over α ω) : (State.histAppend K v s).params = s.params := rfl
@[simp] theorem histAppend_input [DecidableEq α] (K : Reading α ω) (v : α) (s : State.Over α ω) : (State.histAppend K v s).input = s.input := rfl
@[simp] theorem histAppend_output [DecidableEq α] (K : Reading α ω) (v : α) (s : State.Over α ω) : (State.histAppend K v s).output = s.output := rfl
@[simp] theorem histAppend_configured [DecidableEq α] (K : Reading α ω) (v : α) (s : State.Over α ω) : (State.histAppend K v s).configured = s.configured := rfl
@[simp] theorem histAppend_sps [DecidableEq α] (K : Reading α ω) (v : α) (s : State.Over α ω) : (State.histAppend K v s).sps = s.sps := rfl
@[simp] theorem histAppend_symbolRate [DecidableEq α] (K : Reading α ω) (v : α) (s : State.Over α ω) : (State.histAppend K v s).symbolRate = s.symbolRate := rfl
@[simp] theorem histAppend_gainInitial [DecidableEq α] (K : Reading α ω) (v : α) (s : State.Over α ω) : (State.histAppend K v s).gainInitial = s.gainInitial := rfl
@[simp] theorem histAppend_gainMin [DecidableEq α] (K : Reading α ω) (v : α) (s : State.Over α ω) : (State.histAppend K v s).gainMin = s.gainMin := rfl
@[simp] theorem histAppend_gainMax [DecidableEq α] (K : Reading α ω) (v : α) (s : State.Over α ω) : (State.histAppend K v s).gainMax = s.gainMax := rfl
@[simp] theorem histAppend_balance [DecidableEq α] (K : Reading α ω) (v : α) (s : State.Over α ω) : (State.histAppend K v s).balance = s.balance := rfl
@[simp] theorem histAppend_gain [DecidableEq α] (K : Reading α ω) (v : α) (s : State.Over α ω) : (State.histAppend K v s).gain = s.gain := rfl
@[simp] theorem histAppend_synchronized [DecidableEq α] (K : Reading α ω) (v : α) (s : State.Over α ω) : (State.histAppend K v s).synchronized = s.synchronized := rfl
@[simp] theorem histAppend_samplePoint [DecidableEq α] (K : Reading α ω) (v : α) (s : State.Over α ω) : (State.histAppend K v s).samplePoint = s.samplePoint := rfl
@[simp] theorem histAppend_r [DecidableEq α] (K : Reading α ω) (v : α) (s : State.Over α ω) : (State.histAppend K v s).r = s.r + 1#64 := rfl
@[simp] theorem histAppend_p [DecidableEq α] (K : Reading α ω) (v : α) (s : State.Over α ω) : (State.histAppend K v s).p = s.p := rfl
@[simp] theorem histAppend_smp [DecidableEq α] (K : Reading α ω) (v : α) (s : State.Over α ω) : (State.histAppend K v s).smp = Memory.write K.num s.smp s.r.toNat v := rfl
@[simp] theorem histAppend_softHist [DecidableEq α] (K : Reading α ω) (v : α) (s : State.Over α ω) : (State.histAppend K v s).softHist = s.softHist := rfl
@[simp] theorem histAppend_lagHist [DecidableEq α] (K : Reading α ω) (v : α) (s : State.Over α ω) : (State.histAppend K v s).lagHist = s.lagHist := rfl
@[simp] theorem histAppend_hardHist [DecidableEq α] (K : Reading α ω) (v : α) (s : State.Over α ω) : (State.histAppend K v s).hardHist = s.hardHist := rfl
@[simp] theorem histAppend_symbolsSinceSync [DecidableEq α] (K : Reading α ω) (v : α) (s : State.Over α ω) : (State.histAppend K v s).symbolsSinceSync = s.symbolsSinceSync := rfl
@[simp] theorem histAppend_prebiasDone [DecidableEq α] (K : Reading α ω) (v : α) (s : State.Over α ω) : (State.histAppend K v s).prebiasDone = s.prebiasDone := rfl
@[simp] theorem histAppend_totalSymbols [DecidableEq α] (K : Reading α ω) (v : α) (s : State.Over α ω) : (State.histAppend K v s).totalSymbols = s.totalSymbols := rfl
@[simp] theorem histAppend_syncCount [DecidableEq α] (K : Reading α ω) (v : α) (s : State.Over α ω) : (State.histAppend K v s).syncCount = s.syncCount := rfl
@[simp] theorem histAppend_invalidCount [DecidableEq α] (K : Reading α ω) (v : α) (s : State.Over α ω) : (State.histAppend K v s).invalidCount = s.invalidCount := rfl
@[simp] theorem histAppend_lastScorePrimary [DecidableEq α] (K : Reading α ω) (v : α) (s : State.Over α ω) : (State.histAppend K v s).lastScorePrimary = s.lastScorePrimary := rfl
@[simp] theorem histAppend_lastScoreLag [DecidableEq α] (K : Reading α ω) (v : α) (s : State.Over α ω) : (State.histAppend K v s).lastScoreLag = s.lastScoreLag := rfl
@[simp] theorem histAppend_lastScoreControl [DecidableEq α] (K : Reading α ω) (v : α) (s : State.Over α ω) : (State.histAppend K v s).lastScoreControl = s.lastScoreControl := rfl
@[simp] theorem histAppend_lastCorrectedBits [DecidableEq α] (K : Reading α ω) (v : α) (s : State.Over α ω) : (State.histAppend K v s).lastCorrectedBits = s.lastCorrectedBits := rfl
@[simp] theorem histAppend_delayFifo [DecidableEq α] (K : Reading α ω) (v : α) (s : State.Over α ω) : (State.histAppend K v s).delayFifo = s.delayFifo := rfl
@[simp] theorem histAppend_pack [DecidableEq α] (K : Reading α ω) (v : α) (s : State.Over α ω) : (State.histAppend K v s).pack = s.pack := rfl
@[simp] theorem histAppend_framerState [DecidableEq α] (K : Reading α ω) (v : α) (s : State.Over α ω) : (State.histAppend K v s).framerState = s.framerState := rfl
@[simp] theorem histAppend_asmBits [DecidableEq α] (K : Reading α ω) (v : α) (s : State.Over α ω) : (State.histAppend K v s).asmBits = s.asmBits := rfl
@[simp] theorem histAppend_asmOverflow [DecidableEq α] (K : Reading α ω) (v : α) (s : State.Over α ω) : (State.histAppend K v s).asmOverflow = s.asmOverflow := rfl
@[simp] theorem histAppend_framesDispatched [DecidableEq α] (K : Reading α ω) (v : α) (s : State.Over α ω) : (State.histAppend K v s).framesDispatched = s.framesDispatched := rfl
@[simp] theorem histAppend_refTs [DecidableEq α] (K : Reading α ω) (v : α) (s : State.Over α ω) : (State.histAppend K v s).refTs = s.refTs := rfl
@[simp] theorem histAppend_dibitsSinceTs [DecidableEq α] (K : Reading α ω) (v : α) (s : State.Over α ω) : (State.histAppend K v s).dibitsSinceTs = s.dibitsSinceTs := rfl
@[simp] theorem histAppend_fault [DecidableEq α] (K : Reading α ω) (v : α) (s : State.Over α ω) : (State.histAppend K v s).fault = s.fault := rfl
@[simp] theorem histAppend_faultCode [DecidableEq α] (K : Reading α ω) (v : α) (s : State.Over α ω) : (State.histAppend K v s).faultCode = s.faultCode := rfl
@[simp] theorem histAppend_faultInfo [DecidableEq α] (K : Reading α ω) (v : α) (s : State.Over α ω) : (State.histAppend K v s).faultInfo = s.faultInfo := rfl

/-! ### `raiseFault K c w s` -/

@[simp] theorem raiseFault_params (K : Reading α ω) (c : FaultCause) (w : Word) (s : State.Over α ω) : (raiseFault K c w s).params = s.params := rfl
@[simp] theorem raiseFault_input (K : Reading α ω) (c : FaultCause) (w : Word) (s : State.Over α ω) : (raiseFault K c w s).input = s.input := rfl
@[simp] theorem raiseFault_output (K : Reading α ω) (c : FaultCause) (w : Word) (s : State.Over α ω) : (raiseFault K c w s).output = s.output ++ (Record.fault c.code w).items K := rfl
@[simp] theorem raiseFault_configured (K : Reading α ω) (c : FaultCause) (w : Word) (s : State.Over α ω) : (raiseFault K c w s).configured = s.configured := rfl
@[simp] theorem raiseFault_sps (K : Reading α ω) (c : FaultCause) (w : Word) (s : State.Over α ω) : (raiseFault K c w s).sps = s.sps := rfl
@[simp] theorem raiseFault_symbolRate (K : Reading α ω) (c : FaultCause) (w : Word) (s : State.Over α ω) : (raiseFault K c w s).symbolRate = s.symbolRate := rfl
@[simp] theorem raiseFault_gainInitial (K : Reading α ω) (c : FaultCause) (w : Word) (s : State.Over α ω) : (raiseFault K c w s).gainInitial = s.gainInitial := rfl
@[simp] theorem raiseFault_gainMin (K : Reading α ω) (c : FaultCause) (w : Word) (s : State.Over α ω) : (raiseFault K c w s).gainMin = s.gainMin := rfl
@[simp] theorem raiseFault_gainMax (K : Reading α ω) (c : FaultCause) (w : Word) (s : State.Over α ω) : (raiseFault K c w s).gainMax = s.gainMax := rfl
@[simp] theorem raiseFault_balance (K : Reading α ω) (c : FaultCause) (w : Word) (s : State.Over α ω) : (raiseFault K c w s).balance = s.balance := rfl
@[simp] theorem raiseFault_gain (K : Reading α ω) (c : FaultCause) (w : Word) (s : State.Over α ω) : (raiseFault K c w s).gain = s.gain := rfl
@[simp] theorem raiseFault_synchronized (K : Reading α ω) (c : FaultCause) (w : Word) (s : State.Over α ω) : (raiseFault K c w s).synchronized = s.synchronized := rfl
@[simp] theorem raiseFault_samplePoint (K : Reading α ω) (c : FaultCause) (w : Word) (s : State.Over α ω) : (raiseFault K c w s).samplePoint = s.samplePoint := rfl
@[simp] theorem raiseFault_r (K : Reading α ω) (c : FaultCause) (w : Word) (s : State.Over α ω) : (raiseFault K c w s).r = s.r := rfl
@[simp] theorem raiseFault_p (K : Reading α ω) (c : FaultCause) (w : Word) (s : State.Over α ω) : (raiseFault K c w s).p = s.p := rfl
@[simp] theorem raiseFault_smp (K : Reading α ω) (c : FaultCause) (w : Word) (s : State.Over α ω) : (raiseFault K c w s).smp = s.smp := rfl
@[simp] theorem raiseFault_softHist (K : Reading α ω) (c : FaultCause) (w : Word) (s : State.Over α ω) : (raiseFault K c w s).softHist = s.softHist := rfl
@[simp] theorem raiseFault_lagHist (K : Reading α ω) (c : FaultCause) (w : Word) (s : State.Over α ω) : (raiseFault K c w s).lagHist = s.lagHist := rfl
@[simp] theorem raiseFault_hardHist (K : Reading α ω) (c : FaultCause) (w : Word) (s : State.Over α ω) : (raiseFault K c w s).hardHist = s.hardHist := rfl
@[simp] theorem raiseFault_symbolsSinceSync (K : Reading α ω) (c : FaultCause) (w : Word) (s : State.Over α ω) : (raiseFault K c w s).symbolsSinceSync = s.symbolsSinceSync := rfl
@[simp] theorem raiseFault_prebiasDone (K : Reading α ω) (c : FaultCause) (w : Word) (s : State.Over α ω) : (raiseFault K c w s).prebiasDone = s.prebiasDone := rfl
@[simp] theorem raiseFault_totalSymbols (K : Reading α ω) (c : FaultCause) (w : Word) (s : State.Over α ω) : (raiseFault K c w s).totalSymbols = s.totalSymbols := rfl
@[simp] theorem raiseFault_syncCount (K : Reading α ω) (c : FaultCause) (w : Word) (s : State.Over α ω) : (raiseFault K c w s).syncCount = s.syncCount := rfl
@[simp] theorem raiseFault_invalidCount (K : Reading α ω) (c : FaultCause) (w : Word) (s : State.Over α ω) : (raiseFault K c w s).invalidCount = s.invalidCount := rfl
@[simp] theorem raiseFault_lastScorePrimary (K : Reading α ω) (c : FaultCause) (w : Word) (s : State.Over α ω) : (raiseFault K c w s).lastScorePrimary = s.lastScorePrimary := rfl
@[simp] theorem raiseFault_lastScoreLag (K : Reading α ω) (c : FaultCause) (w : Word) (s : State.Over α ω) : (raiseFault K c w s).lastScoreLag = s.lastScoreLag := rfl
@[simp] theorem raiseFault_lastScoreControl (K : Reading α ω) (c : FaultCause) (w : Word) (s : State.Over α ω) : (raiseFault K c w s).lastScoreControl = s.lastScoreControl := rfl
@[simp] theorem raiseFault_lastCorrectedBits (K : Reading α ω) (c : FaultCause) (w : Word) (s : State.Over α ω) : (raiseFault K c w s).lastCorrectedBits = s.lastCorrectedBits := rfl
@[simp] theorem raiseFault_delayFifo (K : Reading α ω) (c : FaultCause) (w : Word) (s : State.Over α ω) : (raiseFault K c w s).delayFifo = s.delayFifo := rfl
@[simp] theorem raiseFault_pack (K : Reading α ω) (c : FaultCause) (w : Word) (s : State.Over α ω) : (raiseFault K c w s).pack = s.pack := rfl
@[simp] theorem raiseFault_framerState (K : Reading α ω) (c : FaultCause) (w : Word) (s : State.Over α ω) : (raiseFault K c w s).framerState = s.framerState := rfl
@[simp] theorem raiseFault_asmBits (K : Reading α ω) (c : FaultCause) (w : Word) (s : State.Over α ω) : (raiseFault K c w s).asmBits = s.asmBits := rfl
@[simp] theorem raiseFault_asmOverflow (K : Reading α ω) (c : FaultCause) (w : Word) (s : State.Over α ω) : (raiseFault K c w s).asmOverflow = s.asmOverflow := rfl
@[simp] theorem raiseFault_framesDispatched (K : Reading α ω) (c : FaultCause) (w : Word) (s : State.Over α ω) : (raiseFault K c w s).framesDispatched = s.framesDispatched := rfl
@[simp] theorem raiseFault_refTs (K : Reading α ω) (c : FaultCause) (w : Word) (s : State.Over α ω) : (raiseFault K c w s).refTs = s.refTs := rfl
@[simp] theorem raiseFault_dibitsSinceTs (K : Reading α ω) (c : FaultCause) (w : Word) (s : State.Over α ω) : (raiseFault K c w s).dibitsSinceTs = s.dibitsSinceTs := rfl
@[simp] theorem raiseFault_fault (K : Reading α ω) (c : FaultCause) (w : Word) (s : State.Over α ω) : (raiseFault K c w s).fault = true := rfl
@[simp] theorem raiseFault_faultCode (K : Reading α ω) (c : FaultCause) (w : Word) (s : State.Over α ω) : (raiseFault K c w s).faultCode = c.code := rfl
@[simp] theorem raiseFault_faultInfo (K : Reading α ω) (c : FaultCause) (w : Word) (s : State.Over α ω) : (raiseFault K c w s).faultInfo = w := rfl

/-! ### `clearFault s` -/

@[simp] theorem clearFault_params (s : State.Over α ω) : (clearFault s).params = s.params := rfl
@[simp] theorem clearFault_input (s : State.Over α ω) : (clearFault s).input = s.input := rfl
@[simp] theorem clearFault_output (s : State.Over α ω) : (clearFault s).output = s.output := rfl
@[simp] theorem clearFault_configured (s : State.Over α ω) : (clearFault s).configured = s.configured := rfl
@[simp] theorem clearFault_sps (s : State.Over α ω) : (clearFault s).sps = s.sps := rfl
@[simp] theorem clearFault_symbolRate (s : State.Over α ω) : (clearFault s).symbolRate = s.symbolRate := rfl
@[simp] theorem clearFault_gainInitial (s : State.Over α ω) : (clearFault s).gainInitial = s.gainInitial := rfl
@[simp] theorem clearFault_gainMin (s : State.Over α ω) : (clearFault s).gainMin = s.gainMin := rfl
@[simp] theorem clearFault_gainMax (s : State.Over α ω) : (clearFault s).gainMax = s.gainMax := rfl
@[simp] theorem clearFault_balance (s : State.Over α ω) : (clearFault s).balance = s.balance := rfl
@[simp] theorem clearFault_gain (s : State.Over α ω) : (clearFault s).gain = s.gain := rfl
@[simp] theorem clearFault_synchronized (s : State.Over α ω) : (clearFault s).synchronized = s.synchronized := rfl
@[simp] theorem clearFault_samplePoint (s : State.Over α ω) : (clearFault s).samplePoint = s.samplePoint := rfl
@[simp] theorem clearFault_r (s : State.Over α ω) : (clearFault s).r = s.r := rfl
@[simp] theorem clearFault_p (s : State.Over α ω) : (clearFault s).p = s.p := rfl
@[simp] theorem clearFault_smp (s : State.Over α ω) : (clearFault s).smp = s.smp := rfl
@[simp] theorem clearFault_softHist (s : State.Over α ω) : (clearFault s).softHist = s.softHist := rfl
@[simp] theorem clearFault_lagHist (s : State.Over α ω) : (clearFault s).lagHist = s.lagHist := rfl
@[simp] theorem clearFault_hardHist (s : State.Over α ω) : (clearFault s).hardHist = s.hardHist := rfl
@[simp] theorem clearFault_symbolsSinceSync (s : State.Over α ω) : (clearFault s).symbolsSinceSync = s.symbolsSinceSync := rfl
@[simp] theorem clearFault_prebiasDone (s : State.Over α ω) : (clearFault s).prebiasDone = s.prebiasDone := rfl
@[simp] theorem clearFault_totalSymbols (s : State.Over α ω) : (clearFault s).totalSymbols = s.totalSymbols := rfl
@[simp] theorem clearFault_syncCount (s : State.Over α ω) : (clearFault s).syncCount = s.syncCount := rfl
@[simp] theorem clearFault_invalidCount (s : State.Over α ω) : (clearFault s).invalidCount = s.invalidCount := rfl
@[simp] theorem clearFault_lastScorePrimary (s : State.Over α ω) : (clearFault s).lastScorePrimary = s.lastScorePrimary := rfl
@[simp] theorem clearFault_lastScoreLag (s : State.Over α ω) : (clearFault s).lastScoreLag = s.lastScoreLag := rfl
@[simp] theorem clearFault_lastScoreControl (s : State.Over α ω) : (clearFault s).lastScoreControl = s.lastScoreControl := rfl
@[simp] theorem clearFault_lastCorrectedBits (s : State.Over α ω) : (clearFault s).lastCorrectedBits = s.lastCorrectedBits := rfl
@[simp] theorem clearFault_delayFifo (s : State.Over α ω) : (clearFault s).delayFifo = s.delayFifo := rfl
@[simp] theorem clearFault_pack (s : State.Over α ω) : (clearFault s).pack = s.pack := rfl
@[simp] theorem clearFault_framerState (s : State.Over α ω) : (clearFault s).framerState = s.framerState := rfl
@[simp] theorem clearFault_asmBits (s : State.Over α ω) : (clearFault s).asmBits = s.asmBits := rfl
@[simp] theorem clearFault_asmOverflow (s : State.Over α ω) : (clearFault s).asmOverflow = s.asmOverflow := rfl
@[simp] theorem clearFault_framesDispatched (s : State.Over α ω) : (clearFault s).framesDispatched = s.framesDispatched := rfl
@[simp] theorem clearFault_refTs (s : State.Over α ω) : (clearFault s).refTs = s.refTs := rfl
@[simp] theorem clearFault_dibitsSinceTs (s : State.Over α ω) : (clearFault s).dibitsSinceTs = s.dibitsSinceTs := rfl
@[simp] theorem clearFault_fault (s : State.Over α ω) : (clearFault s).fault = false := rfl
@[simp] theorem clearFault_faultCode (s : State.Over α ω) : (clearFault s).faultCode = 0#8 := rfl
@[simp] theorem clearFault_faultInfo (s : State.Over α ω) : (clearFault s).faultInfo = 0#32 := rfl

/-! ### `opEqReset s` -/

@[simp] theorem opEqReset_params (s : State.Over α ω) : (opEqReset s).params = s.params := rfl
@[simp] theorem opEqReset_input (s : State.Over α ω) : (opEqReset s).input = s.input := rfl
@[simp] theorem opEqReset_output (s : State.Over α ω) : (opEqReset s).output = s.output := rfl
@[simp] theorem opEqReset_configured (s : State.Over α ω) : (opEqReset s).configured = s.configured := rfl
@[simp] theorem opEqReset_sps (s : State.Over α ω) : (opEqReset s).sps = s.sps := rfl
@[simp] theorem opEqReset_symbolRate (s : State.Over α ω) : (opEqReset s).symbolRate = s.symbolRate := rfl
@[simp] theorem opEqReset_gainInitial (s : State.Over α ω) : (opEqReset s).gainInitial = s.gainInitial := rfl
@[simp] theorem opEqReset_gainMin (s : State.Over α ω) : (opEqReset s).gainMin = s.gainMin := rfl
@[simp] theorem opEqReset_gainMax (s : State.Over α ω) : (opEqReset s).gainMax = s.gainMax := rfl
@[simp] theorem opEqReset_balance (s : State.Over α ω) : (opEqReset s).balance = s.balance := rfl
@[simp] theorem opEqReset_gain (s : State.Over α ω) : (opEqReset s).gain = s.gainInitial := rfl
@[simp] theorem opEqReset_synchronized (s : State.Over α ω) : (opEqReset s).synchronized = false := rfl
@[simp] theorem opEqReset_samplePoint (s : State.Over α ω) : (opEqReset s).samplePoint = s.samplePoint := rfl
@[simp] theorem opEqReset_r (s : State.Over α ω) : (opEqReset s).r = s.r := rfl
@[simp] theorem opEqReset_p (s : State.Over α ω) : (opEqReset s).p = s.p := rfl
@[simp] theorem opEqReset_smp (s : State.Over α ω) : (opEqReset s).smp = s.smp := rfl
@[simp] theorem opEqReset_softHist (s : State.Over α ω) : (opEqReset s).softHist = s.softHist := rfl
@[simp] theorem opEqReset_lagHist (s : State.Over α ω) : (opEqReset s).lagHist = s.lagHist := rfl
@[simp] theorem opEqReset_hardHist (s : State.Over α ω) : (opEqReset s).hardHist = s.hardHist := rfl
@[simp] theorem opEqReset_symbolsSinceSync (s : State.Over α ω) : (opEqReset s).symbolsSinceSync = s.symbolsSinceSync := rfl
@[simp] theorem opEqReset_prebiasDone (s : State.Over α ω) : (opEqReset s).prebiasDone = s.prebiasDone := rfl
@[simp] theorem opEqReset_totalSymbols (s : State.Over α ω) : (opEqReset s).totalSymbols = s.totalSymbols := rfl
@[simp] theorem opEqReset_syncCount (s : State.Over α ω) : (opEqReset s).syncCount = s.syncCount := rfl
@[simp] theorem opEqReset_invalidCount (s : State.Over α ω) : (opEqReset s).invalidCount = s.invalidCount := rfl
@[simp] theorem opEqReset_lastScorePrimary (s : State.Over α ω) : (opEqReset s).lastScorePrimary = s.lastScorePrimary := rfl
@[simp] theorem opEqReset_lastScoreLag (s : State.Over α ω) : (opEqReset s).lastScoreLag = s.lastScoreLag := rfl
@[simp] theorem opEqReset_lastScoreControl (s : State.Over α ω) : (opEqReset s).lastScoreControl = s.lastScoreControl := rfl
@[simp] theorem opEqReset_lastCorrectedBits (s : State.Over α ω) : (opEqReset s).lastCorrectedBits = s.lastCorrectedBits := rfl
@[simp] theorem opEqReset_delayFifo (s : State.Over α ω) : (opEqReset s).delayFifo = s.delayFifo := rfl
@[simp] theorem opEqReset_pack (s : State.Over α ω) : (opEqReset s).pack = s.pack := rfl
@[simp] theorem opEqReset_framerState (s : State.Over α ω) : (opEqReset s).framerState = s.framerState := rfl
@[simp] theorem opEqReset_asmBits (s : State.Over α ω) : (opEqReset s).asmBits = s.asmBits := rfl
@[simp] theorem opEqReset_asmOverflow (s : State.Over α ω) : (opEqReset s).asmOverflow = s.asmOverflow := rfl
@[simp] theorem opEqReset_framesDispatched (s : State.Over α ω) : (opEqReset s).framesDispatched = s.framesDispatched := rfl
@[simp] theorem opEqReset_refTs (s : State.Over α ω) : (opEqReset s).refTs = s.refTs := rfl
@[simp] theorem opEqReset_dibitsSinceTs (s : State.Over α ω) : (opEqReset s).dibitsSinceTs = s.dibitsSinceTs := rfl
@[simp] theorem opEqReset_fault (s : State.Over α ω) : (opEqReset s).fault = s.fault := rfl
@[simp] theorem opEqReset_faultCode (s : State.Over α ω) : (opEqReset s).faultCode = s.faultCode := rfl
@[simp] theorem opEqReset_faultInfo (s : State.Over α ω) : (opEqReset s).faultInfo = s.faultInfo := rfl

/-! ### `opEqConfigure K v s` -/

@[simp] theorem opEqConfigure_params (K : Reading α ω) (v : α) (s : State.Over α ω) : (opEqConfigure K v s).params = s.params := rfl
@[simp] theorem opEqConfigure_input (K : Reading α ω) (v : α) (s : State.Over α ω) : (opEqConfigure K v s).input = s.input := rfl
@[simp] theorem opEqConfigure_output (K : Reading α ω) (v : α) (s : State.Over α ω) : (opEqConfigure K v s).output = s.output := rfl
@[simp] theorem opEqConfigure_configured (K : Reading α ω) (v : α) (s : State.Over α ω) : (opEqConfigure K v s).configured = s.configured := rfl
@[simp] theorem opEqConfigure_sps (K : Reading α ω) (v : α) (s : State.Over α ω) : (opEqConfigure K v s).sps = s.sps := rfl
@[simp] theorem opEqConfigure_symbolRate (K : Reading α ω) (v : α) (s : State.Over α ω) : (opEqConfigure K v s).symbolRate = s.symbolRate := rfl
@[simp] theorem opEqConfigure_gainInitial (K : Reading α ω) (v : α) (s : State.Over α ω) : (opEqConfigure K v s).gainInitial = (gainLimits K.num v).initial := rfl
@[simp] theorem opEqConfigure_gainMin (K : Reading α ω) (v : α) (s : State.Over α ω) : (opEqConfigure K v s).gainMin = (gainLimits K.num v).min := rfl
@[simp] theorem opEqConfigure_gainMax (K : Reading α ω) (v : α) (s : State.Over α ω) : (opEqConfigure K v s).gainMax = (gainLimits K.num v).max := rfl
@[simp] theorem opEqConfigure_balance (K : Reading α ω) (v : α) (s : State.Over α ω) : (opEqConfigure K v s).balance = s.balance := rfl
@[simp] theorem opEqConfigure_gain (K : Reading α ω) (v : α) (s : State.Over α ω) : (opEqConfigure K v s).gain = s.gain := rfl
@[simp] theorem opEqConfigure_synchronized (K : Reading α ω) (v : α) (s : State.Over α ω) : (opEqConfigure K v s).synchronized = s.synchronized := rfl
@[simp] theorem opEqConfigure_samplePoint (K : Reading α ω) (v : α) (s : State.Over α ω) : (opEqConfigure K v s).samplePoint = s.samplePoint := rfl
@[simp] theorem opEqConfigure_r (K : Reading α ω) (v : α) (s : State.Over α ω) : (opEqConfigure K v s).r = s.r := rfl
@[simp] theorem opEqConfigure_p (K : Reading α ω) (v : α) (s : State.Over α ω) : (opEqConfigure K v s).p = s.p := rfl
@[simp] theorem opEqConfigure_smp (K : Reading α ω) (v : α) (s : State.Over α ω) : (opEqConfigure K v s).smp = s.smp := rfl
@[simp] theorem opEqConfigure_softHist (K : Reading α ω) (v : α) (s : State.Over α ω) : (opEqConfigure K v s).softHist = s.softHist := rfl
@[simp] theorem opEqConfigure_lagHist (K : Reading α ω) (v : α) (s : State.Over α ω) : (opEqConfigure K v s).lagHist = s.lagHist := rfl
@[simp] theorem opEqConfigure_hardHist (K : Reading α ω) (v : α) (s : State.Over α ω) : (opEqConfigure K v s).hardHist = s.hardHist := rfl
@[simp] theorem opEqConfigure_symbolsSinceSync (K : Reading α ω) (v : α) (s : State.Over α ω) : (opEqConfigure K v s).symbolsSinceSync = s.symbolsSinceSync := rfl
@[simp] theorem opEqConfigure_prebiasDone (K : Reading α ω) (v : α) (s : State.Over α ω) : (opEqConfigure K v s).prebiasDone = s.prebiasDone := rfl
@[simp] theorem opEqConfigure_totalSymbols (K : Reading α ω) (v : α) (s : State.Over α ω) : (opEqConfigure K v s).totalSymbols = s.totalSymbols := rfl
@[simp] theorem opEqConfigure_syncCount (K : Reading α ω) (v : α) (s : State.Over α ω) : (opEqConfigure K v s).syncCount = s.syncCount := rfl
@[simp] theorem opEqConfigure_invalidCount (K : Reading α ω) (v : α) (s : State.Over α ω) : (opEqConfigure K v s).invalidCount = s.invalidCount := rfl
@[simp] theorem opEqConfigure_lastScorePrimary (K : Reading α ω) (v : α) (s : State.Over α ω) : (opEqConfigure K v s).lastScorePrimary = s.lastScorePrimary := rfl
@[simp] theorem opEqConfigure_lastScoreLag (K : Reading α ω) (v : α) (s : State.Over α ω) : (opEqConfigure K v s).lastScoreLag = s.lastScoreLag := rfl
@[simp] theorem opEqConfigure_lastScoreControl (K : Reading α ω) (v : α) (s : State.Over α ω) : (opEqConfigure K v s).lastScoreControl = s.lastScoreControl := rfl
@[simp] theorem opEqConfigure_lastCorrectedBits (K : Reading α ω) (v : α) (s : State.Over α ω) : (opEqConfigure K v s).lastCorrectedBits = s.lastCorrectedBits := rfl
@[simp] theorem opEqConfigure_delayFifo (K : Reading α ω) (v : α) (s : State.Over α ω) : (opEqConfigure K v s).delayFifo = s.delayFifo := rfl
@[simp] theorem opEqConfigure_pack (K : Reading α ω) (v : α) (s : State.Over α ω) : (opEqConfigure K v s).pack = s.pack := rfl
@[simp] theorem opEqConfigure_framerState (K : Reading α ω) (v : α) (s : State.Over α ω) : (opEqConfigure K v s).framerState = s.framerState := rfl
@[simp] theorem opEqConfigure_asmBits (K : Reading α ω) (v : α) (s : State.Over α ω) : (opEqConfigure K v s).asmBits = s.asmBits := rfl
@[simp] theorem opEqConfigure_asmOverflow (K : Reading α ω) (v : α) (s : State.Over α ω) : (opEqConfigure K v s).asmOverflow = s.asmOverflow := rfl
@[simp] theorem opEqConfigure_framesDispatched (K : Reading α ω) (v : α) (s : State.Over α ω) : (opEqConfigure K v s).framesDispatched = s.framesDispatched := rfl
@[simp] theorem opEqConfigure_refTs (K : Reading α ω) (v : α) (s : State.Over α ω) : (opEqConfigure K v s).refTs = s.refTs := rfl
@[simp] theorem opEqConfigure_dibitsSinceTs (K : Reading α ω) (v : α) (s : State.Over α ω) : (opEqConfigure K v s).dibitsSinceTs = s.dibitsSinceTs := rfl
@[simp] theorem opEqConfigure_fault (K : Reading α ω) (v : α) (s : State.Over α ω) : (opEqConfigure K v s).fault = s.fault := rfl
@[simp] theorem opEqConfigure_faultCode (K : Reading α ω) (v : α) (s : State.Over α ω) : (opEqConfigure K v s).faultCode = s.faultCode := rfl
@[simp] theorem opEqConfigure_faultInfo (K : Reading α ω) (v : α) (s : State.Over α ω) : (opEqConfigure K v s).faultInfo = s.faultInfo := rfl

/-! ### `takeTimestamp lo hi s` -/

@[simp] theorem takeTimestamp_params (lo hi : Word) (s : State.Over α ω) : (takeTimestamp lo hi s).params = s.params := rfl
@[simp] theorem takeTimestamp_input (lo hi : Word) (s : State.Over α ω) : (takeTimestamp lo hi s).input = s.input := rfl
@[simp] theorem takeTimestamp_output (lo hi : Word) (s : State.Over α ω) : (takeTimestamp lo hi s).output = s.output := rfl
@[simp] theorem takeTimestamp_configured (lo hi : Word) (s : State.Over α ω) : (takeTimestamp lo hi s).configured = s.configured := rfl
@[simp] theorem takeTimestamp_sps (lo hi : Word) (s : State.Over α ω) : (takeTimestamp lo hi s).sps = s.sps := rfl
@[simp] theorem takeTimestamp_symbolRate (lo hi : Word) (s : State.Over α ω) : (takeTimestamp lo hi s).symbolRate = s.symbolRate := rfl
@[simp] theorem takeTimestamp_gainInitial (lo hi : Word) (s : State.Over α ω) : (takeTimestamp lo hi s).gainInitial = s.gainInitial := rfl
@[simp] theorem takeTimestamp_gainMin (lo hi : Word) (s : State.Over α ω) : (takeTimestamp lo hi s).gainMin = s.gainMin := rfl
@[simp] theorem takeTimestamp_gainMax (lo hi : Word) (s : State.Over α ω) : (takeTimestamp lo hi s).gainMax = s.gainMax := rfl
@[simp] theorem takeTimestamp_balance (lo hi : Word) (s : State.Over α ω) : (takeTimestamp lo hi s).balance = s.balance := rfl
@[simp] theorem takeTimestamp_gain (lo hi : Word) (s : State.Over α ω) : (takeTimestamp lo hi s).gain = s.gain := rfl
@[simp] theorem takeTimestamp_synchronized (lo hi : Word) (s : State.Over α ω) : (takeTimestamp lo hi s).synchronized = s.synchronized := rfl
@[simp] theorem takeTimestamp_samplePoint (lo hi : Word) (s : State.Over α ω) : (takeTimestamp lo hi s).samplePoint = s.samplePoint := rfl
@[simp] theorem takeTimestamp_r (lo hi : Word) (s : State.Over α ω) : (takeTimestamp lo hi s).r = s.r := rfl
@[simp] theorem takeTimestamp_p (lo hi : Word) (s : State.Over α ω) : (takeTimestamp lo hi s).p = s.p := rfl
@[simp] theorem takeTimestamp_smp (lo hi : Word) (s : State.Over α ω) : (takeTimestamp lo hi s).smp = s.smp := rfl
@[simp] theorem takeTimestamp_softHist (lo hi : Word) (s : State.Over α ω) : (takeTimestamp lo hi s).softHist = s.softHist := rfl
@[simp] theorem takeTimestamp_lagHist (lo hi : Word) (s : State.Over α ω) : (takeTimestamp lo hi s).lagHist = s.lagHist := rfl
@[simp] theorem takeTimestamp_hardHist (lo hi : Word) (s : State.Over α ω) : (takeTimestamp lo hi s).hardHist = s.hardHist := rfl
@[simp] theorem takeTimestamp_symbolsSinceSync (lo hi : Word) (s : State.Over α ω) : (takeTimestamp lo hi s).symbolsSinceSync = s.symbolsSinceSync := rfl
@[simp] theorem takeTimestamp_prebiasDone (lo hi : Word) (s : State.Over α ω) : (takeTimestamp lo hi s).prebiasDone = s.prebiasDone := rfl
@[simp] theorem takeTimestamp_totalSymbols (lo hi : Word) (s : State.Over α ω) : (takeTimestamp lo hi s).totalSymbols = s.totalSymbols := rfl
@[simp] theorem takeTimestamp_syncCount (lo hi : Word) (s : State.Over α ω) : (takeTimestamp lo hi s).syncCount = s.syncCount := rfl
@[simp] theorem takeTimestamp_invalidCount (lo hi : Word) (s : State.Over α ω) : (takeTimestamp lo hi s).invalidCount = s.invalidCount := rfl
@[simp] theorem takeTimestamp_lastScorePrimary (lo hi : Word) (s : State.Over α ω) : (takeTimestamp lo hi s).lastScorePrimary = s.lastScorePrimary := rfl
@[simp] theorem takeTimestamp_lastScoreLag (lo hi : Word) (s : State.Over α ω) : (takeTimestamp lo hi s).lastScoreLag = s.lastScoreLag := rfl
@[simp] theorem takeTimestamp_lastScoreControl (lo hi : Word) (s : State.Over α ω) : (takeTimestamp lo hi s).lastScoreControl = s.lastScoreControl := rfl
@[simp] theorem takeTimestamp_lastCorrectedBits (lo hi : Word) (s : State.Over α ω) : (takeTimestamp lo hi s).lastCorrectedBits = s.lastCorrectedBits := rfl
@[simp] theorem takeTimestamp_delayFifo (lo hi : Word) (s : State.Over α ω) : (takeTimestamp lo hi s).delayFifo = s.delayFifo := rfl
@[simp] theorem takeTimestamp_pack (lo hi : Word) (s : State.Over α ω) : (takeTimestamp lo hi s).pack = s.pack := rfl
@[simp] theorem takeTimestamp_framerState (lo hi : Word) (s : State.Over α ω) : (takeTimestamp lo hi s).framerState = s.framerState := rfl
@[simp] theorem takeTimestamp_asmBits (lo hi : Word) (s : State.Over α ω) : (takeTimestamp lo hi s).asmBits = s.asmBits := rfl
@[simp] theorem takeTimestamp_asmOverflow (lo hi : Word) (s : State.Over α ω) : (takeTimestamp lo hi s).asmOverflow = s.asmOverflow := rfl
@[simp] theorem takeTimestamp_framesDispatched (lo hi : Word) (s : State.Over α ω) : (takeTimestamp lo hi s).framesDispatched = s.framesDispatched := rfl
@[simp] theorem takeTimestamp_refTs (lo hi : Word) (s : State.Over α ω) : (takeTimestamp lo hi s).refTs = timestampOf lo hi := rfl
@[simp] theorem takeTimestamp_dibitsSinceTs (lo hi : Word) (s : State.Over α ω) : (takeTimestamp lo hi s).dibitsSinceTs = 0#32 := rfl
@[simp] theorem takeTimestamp_fault (lo hi : Word) (s : State.Over α ω) : (takeTimestamp lo hi s).fault = s.fault := rfl
@[simp] theorem takeTimestamp_faultCode (lo hi : Word) (s : State.Over α ω) : (takeTimestamp lo hi s).faultCode = s.faultCode := rfl
@[simp] theorem takeTimestamp_faultInfo (lo hi : Word) (s : State.Over α ω) : (takeTimestamp lo hi s).faultInfo = s.faultInfo := rfl

/-! ### `pushHistories v d lag s` -/

@[simp] theorem pushHistories_params (v : α) (d : Dibit) (lag : α) (s : State.Over α ω) : (pushHistories v d lag s).params = s.params := rfl
@[simp] theorem pushHistories_input (v : α) (d : Dibit) (lag : α) (s : State.Over α ω) : (pushHistories v d lag s).input = s.input := rfl
@[simp] theorem pushHistories_output (v : α) (d : Dibit) (lag : α) (s : State.Over α ω) : (pushHistories v d lag s).output = s.output := rfl
@[simp] theorem pushHistories_configured (v : α) (d : Dibit) (lag : α) (s : State.Over α ω) : (pushHistories v d lag s).configured = s.configured := rfl
@[simp] theorem pushHistories_sps (v : α) (d : Dibit) (lag : α) (s : State.Over α ω) : (pushHistories v d lag s).sps = s.sps := rfl
@[simp] theorem pushHistories_symbolRate (v : α) (d : Dibit) (lag : α) (s : State.Over α ω) : (pushHistories v d lag s).symbolRate = s.symbolRate := rfl
@[simp] theorem pushHistories_gainInitial (v : α) (d : Dibit) (lag : α) (s : State.Over α ω) : (pushHistories v d lag s).gainInitial = s.gainInitial := rfl
@[simp] theorem pushHistories_gainMin (v : α) (d : Dibit) (lag : α) (s : State.Over α ω) : (pushHistories v d lag s).gainMin = s.gainMin := rfl
@[simp] theorem pushHistories_gainMax (v : α) (d : Dibit) (lag : α) (s : State.Over α ω) : (pushHistories v d lag s).gainMax = s.gainMax := rfl
@[simp] theorem pushHistories_balance (v : α) (d : Dibit) (lag : α) (s : State.Over α ω) : (pushHistories v d lag s).balance = s.balance := rfl
@[simp] theorem pushHistories_gain (v : α) (d : Dibit) (lag : α) (s : State.Over α ω) : (pushHistories v d lag s).gain = s.gain := rfl
@[simp] theorem pushHistories_synchronized (v : α) (d : Dibit) (lag : α) (s : State.Over α ω) : (pushHistories v d lag s).synchronized = s.synchronized := rfl
@[simp] theorem pushHistories_samplePoint (v : α) (d : Dibit) (lag : α) (s : State.Over α ω) : (pushHistories v d lag s).samplePoint = s.samplePoint := rfl
@[simp] theorem pushHistories_r (v : α) (d : Dibit) (lag : α) (s : State.Over α ω) : (pushHistories v d lag s).r = s.r := rfl
@[simp] theorem pushHistories_p (v : α) (d : Dibit) (lag : α) (s : State.Over α ω) : (pushHistories v d lag s).p = s.p := rfl
@[simp] theorem pushHistories_smp (v : α) (d : Dibit) (lag : α) (s : State.Over α ω) : (pushHistories v d lag s).smp = s.smp := rfl
@[simp] theorem pushHistories_softHist (v : α) (d : Dibit) (lag : α) (s : State.Over α ω) : (pushHistories v d lag s).softHist = s.softHist.drop 1 ++ [v] := rfl
@[simp] theorem pushHistories_lagHist (v : α) (d : Dibit) (lag : α) (s : State.Over α ω) : (pushHistories v d lag s).lagHist = s.lagHist.drop 1 ++ [lag] := rfl
@[simp] theorem pushHistories_hardHist (v : α) (d : Dibit) (lag : α) (s : State.Over α ω) : (pushHistories v d lag s).hardHist = s.hardHist.drop 1 ++ [d] := rfl
@[simp] theorem pushHistories_symbolsSinceSync (v : α) (d : Dibit) (lag : α) (s : State.Over α ω) : (pushHistories v d lag s).symbolsSinceSync = s.symbolsSinceSync := rfl
@[simp] theorem pushHistories_prebiasDone (v : α) (d : Dibit) (lag : α) (s : State.Over α ω) : (pushHistories v d lag s).prebiasDone = s.prebiasDone := rfl
@[simp] theorem pushHistories_totalSymbols (v : α) (d : Dibit) (lag : α) (s : State.Over α ω) : (pushHistories v d lag s).totalSymbols = s.totalSymbols := rfl
@[simp] theorem pushHistories_syncCount (v : α) (d : Dibit) (lag : α) (s : State.Over α ω) : (pushHistories v d lag s).syncCount = s.syncCount := rfl
@[simp] theorem pushHistories_invalidCount (v : α) (d : Dibit) (lag : α) (s : State.Over α ω) : (pushHistories v d lag s).invalidCount = s.invalidCount := rfl
@[simp] theorem pushHistories_lastScorePrimary (v : α) (d : Dibit) (lag : α) (s : State.Over α ω) : (pushHistories v d lag s).lastScorePrimary = s.lastScorePrimary := rfl
@[simp] theorem pushHistories_lastScoreLag (v : α) (d : Dibit) (lag : α) (s : State.Over α ω) : (pushHistories v d lag s).lastScoreLag = s.lastScoreLag := rfl
@[simp] theorem pushHistories_lastScoreControl (v : α) (d : Dibit) (lag : α) (s : State.Over α ω) : (pushHistories v d lag s).lastScoreControl = s.lastScoreControl := rfl
@[simp] theorem pushHistories_lastCorrectedBits (v : α) (d : Dibit) (lag : α) (s : State.Over α ω) : (pushHistories v d lag s).lastCorrectedBits = s.lastCorrectedBits := rfl
@[simp] theorem pushHistories_delayFifo (v : α) (d : Dibit) (lag : α) (s : State.Over α ω) : (pushHistories v d lag s).delayFifo = s.delayFifo := rfl
@[simp] theorem pushHistories_pack (v : α) (d : Dibit) (lag : α) (s : State.Over α ω) : (pushHistories v d lag s).pack = s.pack := rfl
@[simp] theorem pushHistories_framerState (v : α) (d : Dibit) (lag : α) (s : State.Over α ω) : (pushHistories v d lag s).framerState = s.framerState := rfl
@[simp] theorem pushHistories_asmBits (v : α) (d : Dibit) (lag : α) (s : State.Over α ω) : (pushHistories v d lag s).asmBits = s.asmBits := rfl
@[simp] theorem pushHistories_asmOverflow (v : α) (d : Dibit) (lag : α) (s : State.Over α ω) : (pushHistories v d lag s).asmOverflow = s.asmOverflow := rfl
@[simp] theorem pushHistories_framesDispatched (v : α) (d : Dibit) (lag : α) (s : State.Over α ω) : (pushHistories v d lag s).framesDispatched = s.framesDispatched := rfl
@[simp] theorem pushHistories_refTs (v : α) (d : Dibit) (lag : α) (s : State.Over α ω) : (pushHistories v d lag s).refTs = s.refTs := rfl
@[simp] theorem pushHistories_dibitsSinceTs (v : α) (d : Dibit) (lag : α) (s : State.Over α ω) : (pushHistories v d lag s).dibitsSinceTs = s.dibitsSinceTs := rfl
@[simp] theorem pushHistories_fault (v : α) (d : Dibit) (lag : α) (s : State.Over α ω) : (pushHistories v d lag s).fault = s.fault := rfl
@[simp] theorem pushHistories_faultCode (v : α) (d : Dibit) (lag : α) (s : State.Over α ω) : (pushHistories v d lag s).faultCode = s.faultCode := rfl
@[simp] theorem pushHistories_faultInfo (v : α) (d : Dibit) (lag : α) (s : State.Over α ω) : (pushHistories v d lag s).faultInfo = s.faultInfo := rfl

/-! ### `advanceSymbol N a s` -/

@[simp] theorem advanceSymbol_params (N : Numerics α) (a : α) (s : State.Over α ω) : (advanceSymbol N a s).params = s.params := rfl
@[simp] theorem advanceSymbol_input (N : Numerics α) (a : α) (s : State.Over α ω) : (advanceSymbol N a s).input = s.input := rfl
@[simp] theorem advanceSymbol_output (N : Numerics α) (a : α) (s : State.Over α ω) : (advanceSymbol N a s).output = s.output := rfl
@[simp] theorem advanceSymbol_configured (N : Numerics α) (a : α) (s : State.Over α ω) : (advanceSymbol N a s).configured = s.configured := rfl
@[simp] theorem advanceSymbol_sps (N : Numerics α) (a : α) (s : State.Over α ω) : (advanceSymbol N a s).sps = s.sps := rfl
@[simp] theorem advanceSymbol_symbolRate (N : Numerics α) (a : α) (s : State.Over α ω) : (advanceSymbol N a s).symbolRate = s.symbolRate := rfl
@[simp] theorem advanceSymbol_gainInitial (N : Numerics α) (a : α) (s : State.Over α ω) : (advanceSymbol N a s).gainInitial = s.gainInitial := rfl
@[simp] theorem advanceSymbol_gainMin (N : Numerics α) (a : α) (s : State.Over α ω) : (advanceSymbol N a s).gainMin = s.gainMin := rfl
@[simp] theorem advanceSymbol_gainMax (N : Numerics α) (a : α) (s : State.Over α ω) : (advanceSymbol N a s).gainMax = s.gainMax := rfl
@[simp] theorem advanceSymbol_balance (N : Numerics α) (a : α) (s : State.Over α ω) : (advanceSymbol N a s).balance = s.balance := rfl
@[simp] theorem advanceSymbol_gain (N : Numerics α) (a : α) (s : State.Over α ω) : (advanceSymbol N a s).gain = s.gain := rfl
@[simp] theorem advanceSymbol_synchronized (N : Numerics α) (a : α) (s : State.Over α ω) : (advanceSymbol N a s).synchronized = s.synchronized := rfl
@[simp] theorem advanceSymbol_samplePoint (N : Numerics α) (a : α) (s : State.Over α ω) : (advanceSymbol N a s).samplePoint = N.add (N.add s.samplePoint s.sps) a := rfl
@[simp] theorem advanceSymbol_r (N : Numerics α) (a : α) (s : State.Over α ω) : (advanceSymbol N a s).r = s.r := rfl
@[simp] theorem advanceSymbol_p (N : Numerics α) (a : α) (s : State.Over α ω) : (advanceSymbol N a s).p = s.p := rfl
@[simp] theorem advanceSymbol_smp (N : Numerics α) (a : α) (s : State.Over α ω) : (advanceSymbol N a s).smp = s.smp := rfl
@[simp] theorem advanceSymbol_softHist (N : Numerics α) (a : α) (s : State.Over α ω) : (advanceSymbol N a s).softHist = s.softHist := rfl
@[simp] theorem advanceSymbol_lagHist (N : Numerics α) (a : α) (s : State.Over α ω) : (advanceSymbol N a s).lagHist = s.lagHist := rfl
@[simp] theorem advanceSymbol_hardHist (N : Numerics α) (a : α) (s : State.Over α ω) : (advanceSymbol N a s).hardHist = s.hardHist := rfl
@[simp] theorem advanceSymbol_symbolsSinceSync (N : Numerics α) (a : α) (s : State.Over α ω) : (advanceSymbol N a s).symbolsSinceSync = sat32 (s.symbolsSinceSync.toNat + 1) := rfl
@[simp] theorem advanceSymbol_prebiasDone (N : Numerics α) (a : α) (s : State.Over α ω) : (advanceSymbol N a s).prebiasDone = s.prebiasDone := rfl
@[simp] theorem advanceSymbol_totalSymbols (N : Numerics α) (a : α) (s : State.Over α ω) : (advanceSymbol N a s).totalSymbols = wrap32 (s.totalSymbols.toNat + 1) := rfl
@[simp] theorem advanceSymbol_syncCount (N : Numerics α) (a : α) (s : State.Over α ω) : (advanceSymbol N a s).syncCount = s.syncCount := rfl
@[simp] theorem advanceSymbol_invalidCount (N : Numerics α) (a : α) (s : State.Over α ω) : (advanceSymbol N a s).invalidCount = s.invalidCount := rfl
@[simp] theorem advanceSymbol_lastScorePrimary (N : Numerics α) (a : α) (s : State.Over α ω) : (advanceSymbol N a s).lastScorePrimary = s.lastScorePrimary := rfl
@[simp] theorem advanceSymbol_lastScoreLag (N : Numerics α) (a : α) (s : State.Over α ω) : (advanceSymbol N a s).lastScoreLag = s.lastScoreLag := rfl
@[simp] theorem advanceSymbol_lastScoreControl (N : Numerics α) (a : α) (s : State.Over α ω) : (advanceSymbol N a s).lastScoreControl = s.lastScoreControl := rfl
@[simp] theorem advanceSymbol_lastCorrectedBits (N : Numerics α) (a : α) (s : State.Over α ω) : (advanceSymbol N a s).lastCorrectedBits = s.lastCorrectedBits := rfl
@[simp] theorem advanceSymbol_delayFifo (N : Numerics α) (a : α) (s : State.Over α ω) : (advanceSymbol N a s).delayFifo = s.delayFifo := rfl
@[simp] theorem advanceSymbol_pack (N : Numerics α) (a : α) (s : State.Over α ω) : (advanceSymbol N a s).pack = s.pack := rfl
@[simp] theorem advanceSymbol_framerState (N : Numerics α) (a : α) (s : State.Over α ω) : (advanceSymbol N a s).framerState = s.framerState := rfl
@[simp] theorem advanceSymbol_asmBits (N : Numerics α) (a : α) (s : State.Over α ω) : (advanceSymbol N a s).asmBits = s.asmBits := rfl
@[simp] theorem advanceSymbol_asmOverflow (N : Numerics α) (a : α) (s : State.Over α ω) : (advanceSymbol N a s).asmOverflow = s.asmOverflow := rfl
@[simp] theorem advanceSymbol_framesDispatched (N : Numerics α) (a : α) (s : State.Over α ω) : (advanceSymbol N a s).framesDispatched = s.framesDispatched := rfl
@[simp] theorem advanceSymbol_refTs (N : Numerics α) (a : α) (s : State.Over α ω) : (advanceSymbol N a s).refTs = s.refTs := rfl
@[simp] theorem advanceSymbol_dibitsSinceTs (N : Numerics α) (a : α) (s : State.Over α ω) : (advanceSymbol N a s).dibitsSinceTs = s.dibitsSinceTs := rfl
@[simp] theorem advanceSymbol_fault (N : Numerics α) (a : α) (s : State.Over α ω) : (advanceSymbol N a s).fault = s.fault := rfl
@[simp] theorem advanceSymbol_faultCode (N : Numerics α) (a : α) (s : State.Over α ω) : (advanceSymbol N a s).faultCode = s.faultCode := rfl
@[simp] theorem advanceSymbol_faultInfo (N : Numerics α) (a : α) (s : State.Over α ω) : (advanceSymbol N a s).faultInfo = s.faultInfo := rfl

/-! ### `opDispatch K s` -/

@[simp] theorem opDispatch_params (K : Reading α ω) (s : State.Over α ω) : (opDispatch K s).params = s.params := rfl
@[simp] theorem opDispatch_input (K : Reading α ω) (s : State.Over α ω) : (opDispatch K s).input = s.input := rfl
@[simp] theorem opDispatch_output (K : Reading α ω) (s : State.Over α ω) : (opDispatch K s).output = s.output ++ (Record.frame (decide (s.asmBits.length = s.params.frameBits)) (opFrameTimestamp s) s.asmBits).items K := rfl
@[simp] theorem opDispatch_configured (K : Reading α ω) (s : State.Over α ω) : (opDispatch K s).configured = s.configured := rfl
@[simp] theorem opDispatch_sps (K : Reading α ω) (s : State.Over α ω) : (opDispatch K s).sps = s.sps := rfl
@[simp] theorem opDispatch_symbolRate (K : Reading α ω) (s : State.Over α ω) : (opDispatch K s).symbolRate = s.symbolRate := rfl
@[simp] theorem opDispatch_gainInitial (K : Reading α ω) (s : State.Over α ω) : (opDispatch K s).gainInitial = s.gainInitial := rfl
@[simp] theorem opDispatch_gainMin (K : Reading α ω) (s : State.Over α ω) : (opDispatch K s).gainMin = s.gainMin := rfl
@[simp] theorem opDispatch_gainMax (K : Reading α ω) (s : State.Over α ω) : (opDispatch K s).gainMax = s.gainMax := rfl
@[simp] theorem opDispatch_balance (K : Reading α ω) (s : State.Over α ω) : (opDispatch K s).balance = s.balance := rfl
@[simp] theorem opDispatch_gain (K : Reading α ω) (s : State.Over α ω) : (opDispatch K s).gain = s.gain := rfl
@[simp] theorem opDispatch_synchronized (K : Reading α ω) (s : State.Over α ω) : (opDispatch K s).synchronized = s.synchronized := rfl
@[simp] theorem opDispatch_samplePoint (K : Reading α ω) (s : State.Over α ω) : (opDispatch K s).samplePoint = s.samplePoint := rfl
@[simp] theorem opDispatch_r (K : Reading α ω) (s : State.Over α ω) : (opDispatch K s).r = s.r := rfl
@[simp] theorem opDispatch_p (K : Reading α ω) (s : State.Over α ω) : (opDispatch K s).p = s.p := rfl
@[simp] theorem opDispatch_smp (K : Reading α ω) (s : State.Over α ω) : (opDispatch K s).smp = s.smp := rfl
@[simp] theorem opDispatch_softHist (K : Reading α ω) (s : State.Over α ω) : (opDispatch K s).softHist = s.softHist := rfl
@[simp] theorem opDispatch_lagHist (K : Reading α ω) (s : State.Over α ω) : (opDispatch K s).lagHist = s.lagHist := rfl
@[simp] theorem opDispatch_hardHist (K : Reading α ω) (s : State.Over α ω) : (opDispatch K s).hardHist = s.hardHist := rfl
@[simp] theorem opDispatch_symbolsSinceSync (K : Reading α ω) (s : State.Over α ω) : (opDispatch K s).symbolsSinceSync = s.symbolsSinceSync := rfl
@[simp] theorem opDispatch_prebiasDone (K : Reading α ω) (s : State.Over α ω) : (opDispatch K s).prebiasDone = s.prebiasDone := rfl
@[simp] theorem opDispatch_totalSymbols (K : Reading α ω) (s : State.Over α ω) : (opDispatch K s).totalSymbols = s.totalSymbols := rfl
@[simp] theorem opDispatch_syncCount (K : Reading α ω) (s : State.Over α ω) : (opDispatch K s).syncCount = s.syncCount := rfl
@[simp] theorem opDispatch_invalidCount (K : Reading α ω) (s : State.Over α ω) : (opDispatch K s).invalidCount = s.invalidCount := rfl
@[simp] theorem opDispatch_lastScorePrimary (K : Reading α ω) (s : State.Over α ω) : (opDispatch K s).lastScorePrimary = s.lastScorePrimary := rfl
@[simp] theorem opDispatch_lastScoreLag (K : Reading α ω) (s : State.Over α ω) : (opDispatch K s).lastScoreLag = s.lastScoreLag := rfl
@[simp] theorem opDispatch_lastScoreControl (K : Reading α ω) (s : State.Over α ω) : (opDispatch K s).lastScoreControl = s.lastScoreControl := rfl
@[simp] theorem opDispatch_lastCorrectedBits (K : Reading α ω) (s : State.Over α ω) : (opDispatch K s).lastCorrectedBits = s.lastCorrectedBits := rfl
@[simp] theorem opDispatch_delayFifo (K : Reading α ω) (s : State.Over α ω) : (opDispatch K s).delayFifo = s.delayFifo := rfl
@[simp] theorem opDispatch_pack (K : Reading α ω) (s : State.Over α ω) : (opDispatch K s).pack = s.pack := rfl
@[simp] theorem opDispatch_framerState (K : Reading α ω) (s : State.Over α ω) : (opDispatch K s).framerState = s.framerState := rfl
@[simp] theorem opDispatch_asmBits (K : Reading α ω) (s : State.Over α ω) : (opDispatch K s).asmBits = [] := rfl
@[simp] theorem opDispatch_asmOverflow (K : Reading α ω) (s : State.Over α ω) : (opDispatch K s).asmOverflow = s.asmOverflow := rfl
@[simp] theorem opDispatch_framesDispatched (K : Reading α ω) (s : State.Over α ω) : (opDispatch K s).framesDispatched = wrap32 (s.framesDispatched.toNat + 1) := rfl
@[simp] theorem opDispatch_refTs (K : Reading α ω) (s : State.Over α ω) : (opDispatch K s).refTs = s.refTs := rfl
@[simp] theorem opDispatch_dibitsSinceTs (K : Reading α ω) (s : State.Over α ω) : (opDispatch K s).dibitsSinceTs = s.dibitsSinceTs := rfl
@[simp] theorem opDispatch_fault (K : Reading α ω) (s : State.Over α ω) : (opDispatch K s).fault = s.fault := rfl
@[simp] theorem opDispatch_faultCode (K : Reading α ω) (s : State.Over α ω) : (opDispatch K s).faultCode = s.faultCode := rfl
@[simp] theorem opDispatch_faultInfo (K : Reading α ω) (s : State.Over α ω) : (opDispatch K s).faultInfo = s.faultInfo := rfl

/-! ### `updateScores K s` -/

@[simp] theorem updateScores_params (K : Reading α ω) (s : State.Over α ω) : (updateScores K s).params = s.params := rfl
@[simp] theorem updateScores_input (K : Reading α ω) (s : State.Over α ω) : (updateScores K s).input = s.input := rfl
@[simp] theorem updateScores_output (K : Reading α ω) (s : State.Over α ω) : (updateScores K s).output = s.output := rfl
@[simp] theorem updateScores_configured (K : Reading α ω) (s : State.Over α ω) : (updateScores K s).configured = s.configured := rfl
@[simp] theorem updateScores_sps (K : Reading α ω) (s : State.Over α ω) : (updateScores K s).sps = s.sps := rfl
@[simp] theorem updateScores_symbolRate (K : Reading α ω) (s : State.Over α ω) : (updateScores K s).symbolRate = s.symbolRate := rfl
@[simp] theorem updateScores_gainInitial (K : Reading α ω) (s : State.Over α ω) : (updateScores K s).gainInitial = s.gainInitial := rfl
@[simp] theorem updateScores_gainMin (K : Reading α ω) (s : State.Over α ω) : (updateScores K s).gainMin = s.gainMin := rfl
@[simp] theorem updateScores_gainMax (K : Reading α ω) (s : State.Over α ω) : (updateScores K s).gainMax = s.gainMax := rfl
@[simp] theorem updateScores_balance (K : Reading α ω) (s : State.Over α ω) : (updateScores K s).balance = s.balance := rfl
@[simp] theorem updateScores_gain (K : Reading α ω) (s : State.Over α ω) : (updateScores K s).gain = s.gain := rfl
@[simp] theorem updateScores_synchronized (K : Reading α ω) (s : State.Over α ω) : (updateScores K s).synchronized = s.synchronized := rfl
@[simp] theorem updateScores_samplePoint (K : Reading α ω) (s : State.Over α ω) : (updateScores K s).samplePoint = s.samplePoint := rfl
@[simp] theorem updateScores_r (K : Reading α ω) (s : State.Over α ω) : (updateScores K s).r = s.r := rfl
@[simp] theorem updateScores_p (K : Reading α ω) (s : State.Over α ω) : (updateScores K s).p = s.p := rfl
@[simp] theorem updateScores_smp (K : Reading α ω) (s : State.Over α ω) : (updateScores K s).smp = s.smp := rfl
@[simp] theorem updateScores_softHist (K : Reading α ω) (s : State.Over α ω) : (updateScores K s).softHist = s.softHist := rfl
@[simp] theorem updateScores_lagHist (K : Reading α ω) (s : State.Over α ω) : (updateScores K s).lagHist = s.lagHist := rfl
@[simp] theorem updateScores_hardHist (K : Reading α ω) (s : State.Over α ω) : (updateScores K s).hardHist = s.hardHist := rfl
@[simp] theorem updateScores_symbolsSinceSync (K : Reading α ω) (s : State.Over α ω) : (updateScores K s).symbolsSinceSync = s.symbolsSinceSync := rfl
@[simp] theorem updateScores_prebiasDone (K : Reading α ω) (s : State.Over α ω) : (updateScores K s).prebiasDone = s.prebiasDone := rfl
@[simp] theorem updateScores_totalSymbols (K : Reading α ω) (s : State.Over α ω) : (updateScores K s).totalSymbols = s.totalSymbols := rfl
@[simp] theorem updateScores_syncCount (K : Reading α ω) (s : State.Over α ω) : (updateScores K s).syncCount = s.syncCount := rfl
@[simp] theorem updateScores_invalidCount (K : Reading α ω) (s : State.Over α ω) : (updateScores K s).invalidCount = s.invalidCount := rfl
@[simp] theorem updateScores_lastScorePrimary (K : Reading α ω) (s : State.Over α ω) : (updateScores K s).lastScorePrimary = softScore K.num s.softHist s.params.syncPattern := rfl
@[simp] theorem updateScores_lastScoreLag (K : Reading α ω) (s : State.Over α ω) : (updateScores K s).lastScoreLag = softScore K.num s.lagHist s.params.syncPattern := rfl
@[simp] theorem updateScores_lastScoreControl (K : Reading α ω) (s : State.Over α ω) : (updateScores K s).lastScoreControl = (match s.params.controlPattern with | some pat => softScore K.num s.softHist pat | none => K.num.const .zero) := rfl
@[simp] theorem updateScores_lastCorrectedBits (K : Reading α ω) (s : State.Over α ω) : (updateScores K s).lastCorrectedBits = s.lastCorrectedBits := rfl
@[simp] theorem updateScores_delayFifo (K : Reading α ω) (s : State.Over α ω) : (updateScores K s).delayFifo = s.delayFifo := rfl
@[simp] theorem updateScores_pack (K : Reading α ω) (s : State.Over α ω) : (updateScores K s).pack = s.pack := rfl
@[simp] theorem updateScores_framerState (K : Reading α ω) (s : State.Over α ω) : (updateScores K s).framerState = s.framerState := rfl
@[simp] theorem updateScores_asmBits (K : Reading α ω) (s : State.Over α ω) : (updateScores K s).asmBits = s.asmBits := rfl
@[simp] theorem updateScores_asmOverflow (K : Reading α ω) (s : State.Over α ω) : (updateScores K s).asmOverflow = s.asmOverflow := rfl
@[simp] theorem updateScores_framesDispatched (K : Reading α ω) (s : State.Over α ω) : (updateScores K s).framesDispatched = s.framesDispatched := rfl
@[simp] theorem updateScores_refTs (K : Reading α ω) (s : State.Over α ω) : (updateScores K s).refTs = s.refTs := rfl
@[simp] theorem updateScores_dibitsSinceTs (K : Reading α ω) (s : State.Over α ω) : (updateScores K s).dibitsSinceTs = s.dibitsSinceTs := rfl
@[simp] theorem updateScores_fault (K : Reading α ω) (s : State.Over α ω) : (updateScores K s).fault = s.fault := rfl
@[simp] theorem updateScores_faultCode (K : Reading α ω) (s : State.Over α ω) : (updateScores K s).faultCode = s.faultCode := rfl
@[simp] theorem updateScores_faultInfo (K : Reading α ω) (s : State.Over α ω) : (updateScores K s).faultInfo = s.faultInfo := rfl

/-! ### `opDatapathReset K s` -/

@[simp] theorem opDatapathReset_params (K : Reading α ω) (s : State.Over α ω) : (opDatapathReset K s).params = s.params := rfl
@[simp] theorem opDatapathReset_input (K : Reading α ω) (s : State.Over α ω) : (opDatapathReset K s).input = s.input := rfl
@[simp] theorem opDatapathReset_output (K : Reading α ω) (s : State.Over α ω) : (opDatapathReset K s).output = s.output := rfl
@[simp] theorem opDatapathReset_configured (K : Reading α ω) (s : State.Over α ω) : (opDatapathReset K s).configured = s.configured := rfl
@[simp] theorem opDatapathReset_sps (K : Reading α ω) (s : State.Over α ω) : (opDatapathReset K s).sps = s.sps := rfl
@[simp] theorem opDatapathReset_symbolRate (K : Reading α ω) (s : State.Over α ω) : (opDatapathReset K s).symbolRate = s.symbolRate := rfl
@[simp] theorem opDatapathReset_gainInitial (K : Reading α ω) (s : State.Over α ω) : (opDatapathReset K s).gainInitial = s.gainInitial := rfl
@[simp] theorem opDatapathReset_gainMin (K : Reading α ω) (s : State.Over α ω) : (opDatapathReset K s).gainMin = s.gainMin := rfl
@[simp] theorem opDatapathReset_gainMax (K : Reading α ω) (s : State.Over α ω) : (opDatapathReset K s).gainMax = s.gainMax := rfl
@[simp] theorem opDatapathReset_balance (K : Reading α ω) (s : State.Over α ω) : (opDatapathReset K s).balance = K.num.const .zero := rfl
@[simp] theorem opDatapathReset_gain (K : Reading α ω) (s : State.Over α ω) : (opDatapathReset K s).gain = s.gainInitial := rfl
@[simp] theorem opDatapathReset_synchronized (K : Reading α ω) (s : State.Over α ω) : (opDatapathReset K s).synchronized = false := rfl
@[simp] theorem opDatapathReset_samplePoint (K : Reading α ω) (s : State.Over α ω) : (opDatapathReset K s).samplePoint = s.sps := rfl
@[simp] theorem opDatapathReset_r (K : Reading α ω) (s : State.Over α ω) : (opDatapathReset K s).r = 0#64 := rfl
@[simp] theorem opDatapathReset_p (K : Reading α ω) (s : State.Over α ω) : (opDatapathReset K s).p = 0#64 := rfl
@[simp] theorem opDatapathReset_smp (K : Reading α ω) (s : State.Over α ω) : (opDatapathReset K s).smp = [] := rfl
@[simp] theorem opDatapathReset_softHist (K : Reading α ω) (s : State.Over α ω) : (opDatapathReset K s).softHist = List.replicate s.params.len (K.num.const .zero) := rfl
@[simp] theorem opDatapathReset_lagHist (K : Reading α ω) (s : State.Over α ω) : (opDatapathReset K s).lagHist = List.replicate s.params.len (K.num.const .zero) := rfl
@[simp] theorem opDatapathReset_hardHist (K : Reading α ω) (s : State.Over α ω) : (opDatapathReset K s).hardHist = List.replicate s.params.len 0#2 := rfl
@[simp] theorem opDatapathReset_symbolsSinceSync (K : Reading α ω) (s : State.Over α ω) : (opDatapathReset K s).symbolsSinceSync = 0#32 := rfl
@[simp] theorem opDatapathReset_prebiasDone (K : Reading α ω) (s : State.Over α ω) : (opDatapathReset K s).prebiasDone = false := rfl
@[simp] theorem opDatapathReset_totalSymbols (K : Reading α ω) (s : State.Over α ω) : (opDatapathReset K s).totalSymbols = 0#32 := rfl
@[simp] theorem opDatapathReset_syncCount (K : Reading α ω) (s : State.Over α ω) : (opDatapathReset K s).syncCount = 0#32 := rfl
@[simp] theorem opDatapathReset_invalidCount (K : Reading α ω) (s : State.Over α ω) : (opDatapathReset K s).invalidCount = 0#32 := rfl
@[simp] theorem opDatapathReset_lastScorePrimary (K : Reading α ω) (s : State.Over α ω) : (opDatapathReset K s).lastScorePrimary = K.num.const .zero := rfl
@[simp] theorem opDatapathReset_lastScoreLag (K : Reading α ω) (s : State.Over α ω) : (opDatapathReset K s).lastScoreLag = K.num.const .zero := rfl
@[simp] theorem opDatapathReset_lastScoreControl (K : Reading α ω) (s : State.Over α ω) : (opDatapathReset K s).lastScoreControl = K.num.const .zero := rfl
@[simp] theorem opDatapathReset_lastCorrectedBits (K : Reading α ω) (s : State.Over α ω) : (opDatapathReset K s).lastCorrectedBits = 0#32 := rfl
@[simp] theorem opDatapathReset_delayFifo (K : Reading α ω) (s : State.Over α ω) : (opDatapathReset K s).delayFifo = [] := rfl
@[simp] theorem opDatapathReset_pack (K : Reading α ω) (s : State.Over α ω) : (opDatapathReset K s).pack = [] := rfl
@[simp] theorem opDatapathReset_framerState (K : Reading α ω) (s : State.Over α ω) : (opDatapathReset K s).framerState = .idle := rfl
@[simp] theorem opDatapathReset_asmBits (K : Reading α ω) (s : State.Over α ω) : (opDatapathReset K s).asmBits = [] := rfl
@[simp] theorem opDatapathReset_asmOverflow (K : Reading α ω) (s : State.Over α ω) : (opDatapathReset K s).asmOverflow = 0#32 := rfl
@[simp] theorem opDatapathReset_framesDispatched (K : Reading α ω) (s : State.Over α ω) : (opDatapathReset K s).framesDispatched = 0#32 := rfl
@[simp] theorem opDatapathReset_refTs (K : Reading α ω) (s : State.Over α ω) : (opDatapathReset K s).refTs = 0#64 := rfl
@[simp] theorem opDatapathReset_dibitsSinceTs (K : Reading α ω) (s : State.Over α ω) : (opDatapathReset K s).dibitsSinceTs = 0#32 := rfl
@[simp] theorem opDatapathReset_fault (K : Reading α ω) (s : State.Over α ω) : (opDatapathReset K s).fault = s.fault := rfl
@[simp] theorem opDatapathReset_faultCode (K : Reading α ω) (s : State.Over α ω) : (opDatapathReset K s).faultCode = s.faultCode := rfl
@[simp] theorem opDatapathReset_faultInfo (K : Reading α ω) (s : State.Over α ω) : (opDatapathReset K s).faultInfo = s.faultInfo := rfl

end Sys2Proof.Machine
end

