-- ==== Sys2Proof/Laws/Ops.lean ====
section
/-! SUPPORT. What each shared operation over the state can do, said once: the fault gate, fault entry, the append of a block,
and the two relations `SameSetup` and `OutputContinues` along the operations of a command. -/

namespace Sys2Proof.Machine

variable {α ω : Type} {K : Reading α ω}

/-! ### Faults -/

/-- The fault gate either lets a command act or ignores it (R323). -/
theorem faultGate_cases (act : State.Over α ω → State.Over α ω) (s : State.Over α ω) :
    (s.fault = true ∧ faultGate act s = s) ∨ (s.fault = false ∧ faultGate act s = act s) := by
  cases h : s.fault <;> simp [faultGate, h]

theorem faultGate_of_clear {act : State.Over α ω → State.Over α ω} {s : State.Over α ω} (h : s.fault = false) : faultGate act s = act s := by
  simp [faultGate, h]

theorem faultGate_of_fault {act : State.Over α ω → State.Over α ω} {s : State.Over α ω} (h : s.fault = true) : faultGate act s = s := by
  simp [faultGate, h]

/-- Fault entry, written out (R322). -/
theorem raiseFault_eq (cause : FaultCause) (w : Word) (s : State) :
    raiseFault words32 cause w s = State.faulted cause.code w s := by
  cases cause <;> rfl

/-- A command word that only raises a fault does so, or is ignored. -/
theorem raiseOnly_cases (cause : FaultCause) (w : Word) (s : State.Over α ω) :
    (s.fault = true ∧ raiseOnly K cause w s = s)
      ∨ (s.fault = false ∧ raiseOnly K cause w s = raiseFault K cause w s) :=
  faultGate_cases (raiseFault K cause w) s

/-! ### Counters -/

/-- `wrap32` of a count plus one is the 32-bit sum. -/
theorem wrap32_succ (v : BitVec 32) : wrap32 (v.toNat + 1) = v + 1#32 := by
  apply BitVec.eq_of_toNat_eq
  simp [wrap32, BitVec.toNat_add]

theorem sat32_toNat (v : Nat) : (sat32 v).toNat = min v (2 ^ 32 - 1) := by
  simp only [sat32, BitVec.toNat_ofNat]
  omega

/-! ### The append of a block -/

theorem histAppendAll_nil [DecidableEq α] (s : State.Over α ω) : State.histAppendAll K [] s = s := rfl

theorem histAppendAll_cons [DecidableEq α] (v : α) (vs : List α) (s : State.Over α ω) :
    State.histAppendAll K (v :: vs) s = State.histAppendAll K vs (State.histAppend K v s) := rfl

/-- Whatever an append of one sample keeps, an append of a block keeps. -/
theorem histAppendAll_induct [DecidableEq α] {P : State.Over α ω → Prop} (step : ∀ v s, P s → P (State.histAppend K v s))
    (vs : List α) {s : State.Over α ω} (h : P s) : P (State.histAppendAll K vs s) := by
  induction vs generalizing s with
  | nil => exact h
  | cons v vs ih => exact ih (step v s h)

/-! ### `SameSetup` -/

theorem State.SameSetup.refl (s : State.Over α ω) : State.SameSetup s s :=
  ⟨rfl, rfl, rfl, rfl, rfl, rfl, rfl, rfl, rfl, rfl, rfl⟩

theorem State.SameSetup.trans {s t u : State.Over α ω} (h : State.SameSetup s t) (k : State.SameSetup t u) :
    State.SameSetup s u :=
  ⟨k.params.trans h.params, k.input.trans h.input, k.configured.trans h.configured, k.sps.trans h.sps,
    k.symbolRate.trans h.symbolRate, k.gainInitial.trans h.gainInitial, k.gainMin.trans h.gainMin,
    k.gainMax.trans h.gainMax, k.fault.trans h.fault, k.faultCode.trans h.faultCode, k.faultInfo.trans h.faultInfo⟩

/-! ### `OutputContinues` -/

theorem State.OutputContinues.refl (s : State.Over α ω) : State.OutputContinues s s := ⟨[], by simp⟩

theorem State.OutputContinues.of_eq {s t : State.Over α ω} (h : t.output = s.output) : State.OutputContinues s t :=
  ⟨[], by simp [h]⟩

theorem State.OutputContinues.trans {s t u : State.Over α ω} (h : State.OutputContinues s t)
    (k : State.OutputContinues t u) : State.OutputContinues s u := by
  obtain ⟨a, ha⟩ := h
  obtain ⟨b, hb⟩ := k
  exact ⟨a ++ b, by rw [hb, ha, List.append_assoc]⟩

/-! ### What the operations of one symbol keep -/

/-- What every operation of a symbol after its histories have moved keeps: the setup, the sample history and its counters, the
timestamp, `prebias_done`, the three symbol histories and the symbol count; and records are only appended. -/
structure SymbolFrame (s t : State.Over α ω) : Prop where
  setup : State.SameSetup s t
  output : State.OutputContinues s t
  smp : t.smp = s.smp
  r : t.r = s.r
  p : t.p = s.p
  refTs : t.refTs = s.refTs
  prebiasDone : t.prebiasDone = s.prebiasDone
  softHist : t.softHist = s.softHist
  lagHist : t.lagHist = s.lagHist
  hardHist : t.hardHist = s.hardHist
  totalSymbols : t.totalSymbols = s.totalSymbols

theorem SymbolFrame.refl (s : State.Over α ω) : SymbolFrame s s :=
  ⟨.refl s, .refl s, rfl, rfl, rfl, rfl, rfl, rfl, rfl, rfl, rfl⟩

theorem SymbolFrame.trans {s t u : State.Over α ω} (h : SymbolFrame s t) (k : SymbolFrame t u) : SymbolFrame s u :=
  ⟨h.setup.trans k.setup, h.output.trans k.output, k.smp.trans h.smp, k.r.trans h.r, k.p.trans h.p,
    k.refTs.trans h.refTs, k.prebiasDone.trans h.prebiasDone, k.softHist.trans h.softHist,
    k.lagHist.trans h.lagHist, k.hardHist.trans h.hardHist, k.totalSymbols.trans h.totalSymbols⟩

/-- An emitted record changes nothing but the output. -/
theorem SymbolFrame.emit (record : Record α ω) (s : State.Over α ω) : SymbolFrame s (State.emit K record s) :=
  ⟨⟨rfl, rfl, rfl, rfl, rfl, rfl, rfl, rfl, rfl, rfl, rfl⟩, ⟨record.items K, rfl⟩,
    rfl, rfl, rfl, rfl, rfl, rfl, rfl, rfl, rfl⟩

end Sys2Proof.Machine
end

