-- ==== Sys2Proof/Laws/Symbol.lean ====
section
/-! SUPPORT. What each operation of a symbol can do, said once: the framer, the recording, the equalizer's updates, the
detectors, and the processing loop. -/

namespace Sys2Proof.Machine

variable {α ω : Type} (K : Reading α ω)

/-! ### The framer (R260 to R262) -/

theorem opDispatch_frame (s : State.Over α ω) : SymbolFrame s (opDispatch K s) :=
  ⟨⟨rfl, rfl, rfl, rfl, rfl, rfl, rfl, rfl, rfl, rfl, rfl⟩, ⟨_, rfl⟩, rfl, rfl, rfl, rfl, rfl, rfl, rfl, rfl, rfl⟩

theorem opFramerSync_cases (s : State.Over α ω) :
    (s.framerState = .assembling
        ∧ opFramerSync K s = { opDispatch K s with framerState := .assembling, asmBits := [] })
      ∨ (s.framerState = .idle ∧ opFramerSync K s = { s with framerState := .assembling, asmBits := [] }) := by
  cases h : s.framerState <;> simp [opFramerSync, h]

theorem opFramerSync_frame (s : State.Over α ω) : SymbolFrame s (opFramerSync K s) := by
  rcases opFramerSync_cases K s with ⟨-, e⟩ | ⟨-, e⟩ <;> rw [e] <;>
    exact ⟨⟨rfl, rfl, rfl, rfl, rfl, rfl, rfl, rfl, rfl, rfl, rfl⟩, ⟨_, by first | rfl | exact (List.append_nil _).symm⟩,
      rfl, rfl, rfl, rfl, rfl, rfl, rfl, rfl, rfl⟩

/-- The state in which FRAMER_DIBIT has counted its dibit. -/
def countDibit (s : State.Over α ω) : State.Over α ω := { s with dibitsSinceTs := wrap32 (s.dibitsSinceTs.toNat + 1) }

/-- Everything that FRAMER_DIBIT can do: drop while IDLE, drop at a full assembler, append, append and dispatch. -/
theorem opFramerDibit_cases (d : Dibit) (s : State.Over α ω) :
    (s.framerState = .idle ∧ opFramerDibit K d s = countDibit s)
      ∨ (s.framerState = .assembling ∧ s.params.frameBits ≤ s.asmBits.length
          ∧ opFramerDibit K d s = { countDibit s with asmOverflow := wrap32 (s.asmOverflow.toNat + 1) })
      ∨ (s.framerState = .assembling ∧ s.asmBits.length < s.params.frameBits
          ∧ (s.asmBits ++ dibitBits d).length ≠ s.params.frameBits
          ∧ opFramerDibit K d s = { countDibit s with asmBits := s.asmBits ++ dibitBits d })
      ∨ (s.framerState = .assembling ∧ s.asmBits.length < s.params.frameBits
          ∧ (s.asmBits ++ dibitBits d).length = s.params.frameBits
          ∧ opFramerDibit K d s =
            { opDispatch K { countDibit s with asmBits := s.asmBits ++ dibitBits d } with framerState := .idle }) := by
  cases h : s.framerState
  · left; simp [opFramerDibit, countDibit, h]
  · right
    by_cases hf : s.params.frameBits ≤ s.asmBits.length
    · left; simp [opFramerDibit, countDibit, h, hf]
    · right
      by_cases he : (s.asmBits ++ dibitBits d).length = s.params.frameBits
      · right
        refine ⟨rfl, by omega, he, ?_⟩
        simp only [opFramerDibit, countDibit, h, hf, he]
        rfl
      · left
        refine ⟨rfl, by omega, he, ?_⟩
        simp only [opFramerDibit, countDibit, h, hf, he]
        rfl

theorem opFramerDibit_frame (d : Dibit) (s : State.Over α ω) : SymbolFrame s (opFramerDibit K d s) := by
  rcases opFramerDibit_cases K d s with ⟨-, e⟩ | ⟨-, -, e⟩ | ⟨-, -, -, e⟩ | ⟨-, -, -, e⟩ <;> rw [e] <;>
    exact ⟨⟨rfl, rfl, rfl, rfl, rfl, rfl, rfl, rfl, rfl, rfl, rfl⟩, ⟨_, by first | rfl | exact (List.append_nil _).symm⟩,
      rfl, rfl, rfl, rfl, rfl, rfl, rfl, rfl, rfl⟩

/-! ### The recording (R228) -/

theorem packDibit_cases (d : Dibit) (s : State.Over α ω) :
    (s.pack.length = 3
        ∧ packDibit K d s = State.emit K (.recording (recByte (s.pack ++ [d]))) { s with pack := [] })
      ∨ (s.pack.length ≠ 3 ∧ packDibit K d s = { s with pack := s.pack ++ [d] }) := by
  by_cases h : s.pack.length = 3 <;> simp [packDibit, h]

/-- Everything that RECORD_PUSH can do: nothing, lengthen the delay line, or pass its oldest dibit to the byte assembler. -/
theorem opRecordPush_cases (d : Dibit) (s : State.Over α ω) :
    (s.params.recordEnable = false ∧ opRecordPush K d s = s)
      ∨ (s.params.recordEnable = true ∧ (s.delayFifo ++ [d]).length ≤ s.params.delaySymbols
          ∧ opRecordPush K d s = { s with delayFifo := s.delayFifo ++ [d] })
      ∨ (s.params.recordEnable = true ∧ s.params.delaySymbols < (s.delayFifo ++ [d]).length
          ∧ opRecordPush K d s =
            packDibit K ((s.delayFifo ++ [d]).headD 0#2) { s with delayFifo := (s.delayFifo ++ [d]).drop 1 }) := by
  cases h : s.params.recordEnable
  · simp [opRecordPush, h]
  · by_cases hl : s.params.delaySymbols < (s.delayFifo ++ [d]).length
    · right; right
      refine ⟨rfl, hl, ?_⟩
      simp only [opRecordPush, h, hl]
      rfl
    · right; left
      refine ⟨rfl, by omega, ?_⟩
      simp only [opRecordPush, h, hl]
      rfl

theorem packDibit_frame (d : Dibit) (s : State.Over α ω) : SymbolFrame s (packDibit K d s) := by
  rcases packDibit_cases K d s with ⟨-, e⟩ | ⟨-, e⟩ <;> rw [e] <;>
    exact ⟨⟨rfl, rfl, rfl, rfl, rfl, rfl, rfl, rfl, rfl, rfl, rfl⟩, ⟨_, by first | rfl | exact (List.append_nil _).symm⟩,
      rfl, rfl, rfl, rfl, rfl, rfl, rfl, rfl, rfl⟩

theorem opRecordPush_frame (d : Dibit) (s : State.Over α ω) : SymbolFrame s (opRecordPush K d s) := by
  rcases opRecordPush_cases K d s with ⟨-, e⟩ | ⟨-, -, e⟩ | ⟨-, -, e⟩ <;> rw [e]
  · exact .refl s
  · exact ⟨⟨rfl, rfl, rfl, rfl, rfl, rfl, rfl, rfl, rfl, rfl, rfl⟩, .refl _,
      rfl, rfl, rfl, rfl, rfl, rfl, rfl, rfl, rfl⟩
  · have h := packDibit_frame K ((s.delayFifo ++ [d]).headD 0#2) { s with delayFifo := (s.delayFifo ++ [d]).drop 1 }
    exact ⟨⟨h.setup.params, h.setup.input, h.setup.configured, h.setup.sps, h.setup.symbolRate, h.setup.gainInitial,
      h.setup.gainMin, h.setup.gainMax, h.setup.fault, h.setup.faultCode, h.setup.faultInfo⟩, h.output,
      h.smp, h.r, h.p, h.refTs, h.prebiasDone, h.softHist, h.lagHist, h.hardHist, h.totalSymbols⟩

/-- What the framer and the recording keep of the equalizer and of the sample point when they take a dibit. -/
theorem takeDibit_keeps (d : Dibit) (s : State.Over α ω) :
    (opRecordPush K d (opFramerDibit K d s)).signal K = s.signal K
      ∧ (opRecordPush K d (opFramerDibit K d s)).synchronized = s.synchronized
      ∧ (opRecordPush K d (opFramerDibit K d s)).samplePoint = s.samplePoint
      ∧ (opRecordPush K d (opFramerDibit K d s)).symbolsSinceSync = s.symbolsSinceSync
      ∧ (opRecordPush K d (opFramerDibit K d s)).dibitsSinceTs = wrap32 (s.dibitsSinceTs.toNat + 1) := by
  have framer : (opFramerDibit K d s).signal K = s.signal K ∧ (opFramerDibit K d s).synchronized = s.synchronized
      ∧ (opFramerDibit K d s).samplePoint = s.samplePoint
      ∧ (opFramerDibit K d s).symbolsSinceSync = s.symbolsSinceSync
      ∧ (opFramerDibit K d s).dibitsSinceTs = wrap32 (s.dibitsSinceTs.toNat + 1) := by
    rcases opFramerDibit_cases K d s with ⟨-, e⟩ | ⟨-, -, e⟩ | ⟨-, -, -, e⟩ | ⟨-, -, -, e⟩ <;> rw [e] <;>
      exact ⟨rfl, rfl, rfl, rfl, rfl⟩
  obtain ⟨h1, h2, h3, h4, h5⟩ := framer
  rw [← h1, ← h2, ← h3, ← h4, ← h5]
  rcases opRecordPush_cases K d (opFramerDibit K d s) with ⟨-, e⟩ | ⟨-, -, e⟩ | ⟨-, -, e⟩ <;> rw [e]
  · exact ⟨rfl, rfl, rfl, rfl, rfl⟩
  · exact ⟨rfl, rfl, rfl, rfl, rfl⟩
  · rcases packDibit_cases K (((opFramerDibit K d s).delayFifo ++ [d]).headD 0#2)
      { opFramerDibit K d s with delayFifo := ((opFramerDibit K d s).delayFifo ++ [d]).drop 1 } with ⟨-, f⟩ | ⟨-, f⟩ <;>
      rw [f] <;> exact ⟨rfl, rfl, rfl, rfl, rfl⟩

/-! ### The equalizer's updates (R154, R155) -/

theorem opEqReset_frame (s : State.Over α ω) : SymbolFrame s (opEqReset s) :=
  ⟨⟨rfl, rfl, rfl, rfl, rfl, rfl, rfl, rfl, rfl, rfl, rfl⟩, .refl _, rfl, rfl, rfl, rfl, rfl, rfl, rfl, rfl, rfl⟩

theorem opEqApply_frame (c : Correction α) (s : State.Over α ω) : SymbolFrame s (opEqApply K c s).1 := by
  unfold opEqApply
  dsimp only
  split <;>
    exact ⟨⟨rfl, rfl, rfl, rfl, rfl, rfl, rfl, rfl, rfl, rfl, rfl⟩, .refl _, rfl, rfl, rfl, rfl, rfl, rfl, rfl, rfl, rfl⟩

/-- What EQ_APPLY keeps beside that: the framer, the recording, the counters and the sample point. -/
theorem opEqApply_framer (c : Correction α) (s : State.Over α ω) :
    (opEqApply K c s).1.framerState = s.framerState ∧ (opEqApply K c s).1.asmBits = s.asmBits
      ∧ (opEqApply K c s).1.dibitsSinceTs = s.dibitsSinceTs ∧ (opEqApply K c s).1.asmOverflow = s.asmOverflow
      ∧ (opEqApply K c s).1.framesDispatched = s.framesDispatched ∧ (opEqApply K c s).1.delayFifo = s.delayFifo
      ∧ (opEqApply K c s).1.pack = s.pack ∧ (opEqApply K c s).1.samplePoint = s.samplePoint
      ∧ (opEqApply K c s).1.output = s.output ∧ (opEqApply K c s).1.syncCount = s.syncCount := by
  unfold opEqApply
  dsimp only
  split <;> exact ⟨rfl, rfl, rfl, rfl, rfl, rfl, rfl, rfl, rfl, rfl⟩

/-! ### Accepting a sync (R226, R227) -/

/-- The state of ACCEPT_SYNC before its SYNC record. -/
def acceptedState (c : Correction α) (s : State.Over α ω) : State.Over α ω :=
  { (opEqApply K c s).1 with
    samplePoint := shiftedSamplePoint K.num (opEqApply K c s).1.samplePoint (correctionShift K.num c)
      (opEqApply K c s).1.sps
    symbolsSinceSync := 0#32
    synchronized := if (opEqApply K c s).2 then (opEqApply K c s).1.synchronized else true
    syncCount := wrap32 ((opEqApply K c s).1.syncCount.toNat + 1) }

theorem opAcceptSync_eq (c : Correction α) (kind : SyncKind) (s : State.Over α ω) :
    opAcceptSync K c kind s =
      opFramerSync K (State.emit K
        (.sync kind (opEqApply K c s).2 (acceptedState K c s).synchronized c.optScore (correctionShift K.num c))
        (acceptedState K c s)) := rfl

theorem acceptedState_frame (c : Correction α) (s : State.Over α ω) : SymbolFrame s (acceptedState K c s) := by
  have h := opEqApply_frame K c s
  exact ⟨⟨h.setup.params, h.setup.input, h.setup.configured, h.setup.sps, h.setup.symbolRate, h.setup.gainInitial,
    h.setup.gainMin, h.setup.gainMax, h.setup.fault, h.setup.faultCode, h.setup.faultInfo⟩, h.output,
    h.smp, h.r, h.p, h.refTs, h.prebiasDone, h.softHist, h.lagHist, h.hardHist, h.totalSymbols⟩

theorem opAcceptSync_frame (c : Correction α) (kind : SyncKind) (s : State.Over α ω) :
    SymbolFrame s (opAcceptSync K c kind s) := by
  rw [opAcceptSync_eq]
  exact (acceptedState_frame K c s).trans ((SymbolFrame.emit _ _).trans (opFramerSync_frame K _))

/-- The state of COAST_SYNC before its SYNC record. -/
def coastedState (s : State.Over α ω) : State.Over α ω :=
  { s with symbolsSinceSync := 0#32, synchronized := true, syncCount := wrap32 (s.syncCount.toNat + 1) }

theorem opCoastSync_eq (s : State.Over α ω) :
    opCoastSync K s =
      opFramerSync K (State.emit K (.sync .coast false true (K.num.const .zero) (K.num.const .zero))
        (coastedState s)) := rfl

theorem opCoastSync_frame (s : State.Over α ω) : SymbolFrame s (opCoastSync K s) := by
  rw [opCoastSync_eq]
  have h : SymbolFrame s (coastedState s) :=
    ⟨⟨rfl, rfl, rfl, rfl, rfl, rfl, rfl, rfl, rfl, rfl, rfl⟩, .refl _, rfl, rfl, rfl, rfl, rfl, rfl, rfl, rfl, rfl⟩
  exact h.trans ((SymbolFrame.emit _ _).trans (opFramerSync_frame K _))

/-! ### Detection (R224, R225) -/

/-- The answer of OPTIMIZE reads nothing that the counters of detection K change. -/
theorem opOptimize_congr {s t : State.Over α ω} (h : t.signal K = s.signal K) (hs : t.synchronized = s.synchronized)
    (hp : t.params = s.params) (pat : List Dibit) (add det : α) (n : Int) (mu : α) :
    opOptimize K pat add det n mu t = opOptimize K pat add det n mu s := by
  have hsps : t.sps = s.sps := congrArg Signal.sps h
  simp only [opOptimize, h, hs, hp, hsps]

/-- One rejected Correction counted. -/
def countInvalid (s : State.Over α ω) : State.Over α ω := { s with invalidCount := wrap32 (s.invalidCount.toNat + 1) }

/-- What the first detector of the list leads to: the next detector if its score is low, acceptance if its Correction is valid,
and a count and the next detector if not. -/
theorem tryDetectors_cons (n : Int) (mu : α) (d : Detector α) (rest : List (Detector α)) (s : State.Over α ω) :
    (K.num.lt (K.num.const .syncDetectThreshold) d.score = false
        ∧ tryDetectors K n mu (d :: rest) s = tryDetectors K n mu rest s)
      ∨ (K.num.lt (K.num.const .syncDetectThreshold) d.score = true
          ∧ ∃ c, opOptimize K d.pattern d.additionalOffset d.score n mu s = some c
            ∧ tryDetectors K n mu (d :: rest) s =
              (opAcceptSync K c d.kind { s with lastCorrectedBits := wrap32 c.correctedBits }, true))
      ∨ (K.num.lt (K.num.const .syncDetectThreshold) d.score = true
          ∧ opOptimize K d.pattern d.additionalOffset d.score n mu s = none
          ∧ tryDetectors K n mu (d :: rest) s = tryDetectors K n mu rest (countInvalid s)) := by
  cases h : K.num.lt (K.num.const .syncDetectThreshold) d.score
  · left; simp [tryDetectors, h]
  · right
    cases k : opOptimize K d.pattern d.additionalOffset d.score n mu s with
    | none => right; simp [tryDetectors, h, k, countInvalid]
    | some c => left; exact ⟨rfl, c, rfl, by simp [tryDetectors, h, k]⟩

theorem tryDetectors_frame (n : Int) (mu : α) (ds : List (Detector α)) (s : State.Over α ω) :
    SymbolFrame s (tryDetectors K n mu ds s).1 := by
  induction ds generalizing s with
  | nil => exact .refl s
  | cons d rest ih =>
    rcases tryDetectors_cons K n mu d rest s with ⟨-, e⟩ | ⟨-, c, -, e⟩ | ⟨-, -, e⟩ <;> rw [e]
    · exact ih s
    · have h : SymbolFrame s { s with lastCorrectedBits := wrap32 c.correctedBits } :=
        ⟨⟨rfl, rfl, rfl, rfl, rfl, rfl, rfl, rfl, rfl, rfl, rfl⟩, .refl _, rfl, rfl, rfl, rfl, rfl, rfl, rfl, rfl, rfl⟩
      exact h.trans (opAcceptSync_frame K ..)
    · have h : SymbolFrame s (countInvalid s) :=
        ⟨⟨rfl, rfl, rfl, rfl, rfl, rfl, rfl, rfl, rfl, rfl, rfl⟩, .refl _, rfl, rfl, rfl, rfl, rfl, rfl, rfl, rfl, rfl⟩
      exact h.trans (ih _)

/-- What the detectors K of this symbol leave, and whether one was accepted. -/
def detection (n : Int) (mu : α) (s : State.Over α ω) : State.Over α ω × Bool :=
  if (updateScores K s).params.syncHoldoff ≤ (updateScores K s).symbolsSinceSync.toNat then
    tryDetectors K n mu (detectors K (updateScores K s)) (updateScores K s)
  else (updateScores K s, false)

/-- Everything that SYNC_CHECK can do after its detectors: end with an acceptance, coast, lose the sync, or go on. -/
theorem opSyncCheck_cases (n : Int) (mu : α) (s : State.Over α ω) :
    ((detection K n mu s).2 = true ∧ opSyncCheck K n mu s = (detection K n mu s).1)
      ∨ ((detection K n mu s).2 = false ∧ coastDue (detection K n mu s).1 = true
          ∧ opSyncCheck K n mu s = opCoastSync K (detection K n mu s).1)
      ∨ ((detection K n mu s).2 = false ∧ coastDue (detection K n mu s).1 = false
          ∧ syncLost (detection K n mu s).1 = true ∧ opSyncCheck K n mu s = opEqReset (detection K n mu s).1)
      ∨ ((detection K n mu s).2 = false ∧ coastDue (detection K n mu s).1 = false
          ∧ syncLost (detection K n mu s).1 = false ∧ opSyncCheck K n mu s = (detection K n mu s).1) := by
  have e : opSyncCheck K n mu s =
      if (detection K n mu s).2 then (detection K n mu s).1
      else if coastDue (detection K n mu s).1 then opCoastSync K (detection K n mu s).1
      else if syncLost (detection K n mu s).1 then opEqReset (detection K n mu s).1
      else (detection K n mu s).1 := rfl
  rw [e]
  cases (detection K n mu s).2 <;> cases coastDue (detection K n mu s).1 <;> cases syncLost (detection K n mu s).1 <;> simp

theorem detection_frame (n : Int) (mu : α) (s : State.Over α ω) : SymbolFrame s (detection K n mu s).1 := by
  have h : SymbolFrame s (updateScores K s) :=
    ⟨⟨rfl, rfl, rfl, rfl, rfl, rfl, rfl, rfl, rfl, rfl, rfl⟩, .refl _, rfl, rfl, rfl, rfl, rfl, rfl, rfl, rfl, rfl⟩
  unfold detection
  split
  · exact h.trans (tryDetectors_frame K ..)
  · exact h

theorem opSyncCheck_frame (n : Int) (mu : α) (s : State.Over α ω) : SymbolFrame s (opSyncCheck K n mu s) := by
  have h := detection_frame K n mu s
  rcases opSyncCheck_cases K n mu s with ⟨-, e⟩ | ⟨-, -, e⟩ | ⟨-, -, -, e⟩ | ⟨-, -, -, e⟩ <;> rw [e]
  · exact h
  · exact h.trans (opCoastSync_frame K _)
  · exact h.trans (opEqReset_frame _)
  · exact h

/-! ### The pre-bias (R220) and the processing loop (R221, R229) -/

/-- Everything that PREBIAS can do: nothing, or set `prebias_done` with a balance it may have moved. -/
theorem opPrebias_cases (v : List α) (s : State.Over α ω) :
    ((s.prebiasDone = true ∨ v.length < Config.prebiasSamples) ∧ opPrebias K v s = s)
      ∨ (s.prebiasDone = false ∧ Config.prebiasSamples ≤ v.length
          ∧ ∃ b : α, opPrebias K v s = { s with balance := b, prebiasDone := true }
            ∧ (b = s.balance ∨ s.synchronized = false
              ∧ b = prebiasedBalance K.num (K.ofPattern s.params.prebiasGain) s.balance
                  (stddev K.num (v.take Config.prebiasSamples)).2)) := by
  by_cases h : s.prebiasDone = true ∨ v.length < Config.prebiasSamples
  · left
    refine ⟨h, ?_⟩
    simp [opPrebias, h]
  · right
    have h1 : s.prebiasDone = false := by simpa using fun e => h (Or.inl e)
    have h2 : Config.prebiasSamples ≤ v.length := by omega
    refine ⟨h1, h2, _, by simp only [opPrebias, h1, decide_eq_false (not_lt.2 h2)]; rfl, ?_⟩
    cases hs : s.synchronized
    · split
      · right; exact ⟨rfl, rfl⟩
      · left; rfl
    · left; simp

/-- Everything that SAMPLE_STEP can do: take one from the sample point, and then perhaps one symbol. -/
theorem opSampleStep_cases (n : Int) (s : State.Over α ω) :
    opSampleStep K n s = { s with samplePoint := K.num.sub s.samplePoint (K.num.const .one) }
      ∨ opSampleStep K n s = opSymbolStep K n { s with samplePoint := K.num.sub s.samplePoint (K.num.const .one) } := by
  unfold opSampleStep
  dsimp only
  split
  · exact .inr rfl
  · exact .inl rfl

/-- Whatever one iteration keeps while a sample is pending, the loop keeps. -/
theorem processLoop_induct {P : State.Over α ω → Prop} (step : ∀ s, samplePending K.num s = true → P s → P (processOne K s))
    (fuel : Nat) {s : State.Over α ω} (h : P s) : P (processLoop K fuel s) := by
  induction fuel generalizing s with
  | zero => exact h
  | succ fuel ih =>
    unfold processLoop
    split
    · rename_i hp; exact ih (step s hp h)
    · exact h

end Sys2Proof.Machine
end

