-- ==== Sys2Proof/Laws/Commands.lean ====
section
/-! SUPPORT. What each command can do, said once for any reading: the five host commands, and the command words that only raise
a fault. `raiseFault_eq` writes the fault entry of the machine out. -/

namespace Sys2Proof.Machine

variable {α ω : Type} (K : Reading α ω)

/-- A command of the machine is the command of any reading at `words32` (R8). -/
theorem exec_eq (i : Instr) (s : State) : exec i s = .next (runCommand words32 i s) := by
  cases i <;> rfl

/-- A step of the machine is the step of any reading at `words32` (R8). -/
theorem step_eq (s : State) : step s = .next (runStep words32 s) := by
  unfold step runStep
  split <;> simp [exec_eq]

/-- Every command is one of the five host commands, or its word only raises INTERNAL_OPCODE or ILLEGAL_OPCODE (R119). -/
theorem runCommand_cases [DecidableEq α] (i : Instr) (s : State.Over α ω) :
    (∃ rate spsWord, i = .configure rate spsWord) ∨ (∃ tsLo tsHi data, i = .samples tsLo tsHi data)
      ∨ (∃ x, i = .flush x) ∨ (∃ x, i = .reset x) ∨ (∃ reserved addr, i = .readReg reserved addr)
      ∨ payloadOf i = [] ∧ (runCommand K i s = raiseOnly K .internalOpcode (commandWord i) s
          ∨ runCommand K i s = raiseOnly K .illegalOpcode (commandWord i) s) := by
  cases i <;>
    first
    | exact .inl ⟨_, _, rfl⟩
    | exact .inr (.inl ⟨_, _, _, rfl⟩)
    | exact .inr (.inr (.inl ⟨_, rfl⟩))
    | exact .inr (.inr (.inr (.inl ⟨_, rfl⟩)))
    | exact .inr (.inr (.inr (.inr (.inl ⟨_, _, rfl⟩))))
    | exact .inr (.inr (.inr (.inr (.inr ⟨rfl, .inl rfl⟩))))
    | exact .inr (.inr (.inr (.inr (.inr ⟨rfl, .inr rfl⟩))))

/-- CONFIGURE of an unfaulted block takes effect or raises CONFIG_INVALID (R291). -/
theorem configureCommand_cases (rate : Operand) (spsWord : Word) (s : State.Over α ω) :
    (configurationValid K rate spsWord = true
        ∧ configureCommand K rate spsWord s = configureEffect K rate (numberOfWord K spsWord) s)
      ∨ (configurationValid K rate spsWord = false
          ∧ configureCommand K rate spsWord s = raiseFault K .configInvalid (commandWord (.configure rate spsWord)) s) := by
  cases h : configurationValid K rate spsWord <;> simp [configureCommand, h]

/-- SAMPLES of an unfaulted block takes effect, or raises NOT_CONFIGURED or SAMPLE_NOT_FINITE (R292, R293). -/
theorem samplesCommand_cases [DecidableEq α] (tsLo tsHi : Word) (data : List Word) (s : State.Over α ω) :
    (s.configured = true ∧ samplesValid K data = true
        ∧ samplesCommand K tsLo tsHi data s = samplesEffect K tsLo tsHi (data.map (numberOfWord K)) s)
      ∨ (s.configured = true ∧ samplesValid K data = false
          ∧ samplesCommand K tsLo tsHi data s
            = raiseFault K .sampleNotFinite (commandWord (.samples tsLo tsHi data)) s)
      ∨ (s.configured = false
          ∧ samplesCommand K tsLo tsHi data s
            = raiseFault K .notConfigured (commandWord (.samples tsLo tsHi data)) s) := by
  cases h : s.configured <;> cases k : samplesValid K data <;> simp [samplesCommand, h, k]

/-- FLUSH of an unfaulted block takes effect, or raises RESERVED_NONZERO or NOT_CONFIGURED (R296). -/
theorem flushCommand_cases (x : Operand) (s : State.Over α ω) :
    (x = 0#24 ∧ s.configured = true ∧ flushCommand K x s = flushEffect K s)
      ∨ (x = 0#24 ∧ s.configured = false ∧ flushCommand K x s = raiseFault K .notConfigured (commandWord (.flush x)) s)
      ∨ (x ≠ 0#24 ∧ flushCommand K x s = raiseFault K .reservedNonzero (commandWord (.flush x)) s) := by
  by_cases h : x = 0#24
  · cases k : s.configured <;> simp [flushCommand, reservedOperandClear, h, k]
  · simp [flushCommand, reservedOperandClear, h]

/-- The effect of FLUSH. -/
theorem flushEffect_cases (s : State.Over α ω) :
    (s.framerState = .assembling ∧ flushEffect K s = { opDispatch K s with framerState := .idle })
      ∨ (s.framerState = .idle ∧ flushEffect K s = s) := by
  cases h : s.framerState <;> simp [flushEffect, h]

/-- RESET takes effect, faulted or not, or only raises RESERVED_NONZERO (R294). -/
theorem runReset_cases (x : Operand) (s : State.Over α ω) :
    (x = 0#24 ∧ runReset K x s = resetEffect K s)
      ∨ (x ≠ 0#24 ∧ runReset K x s = raiseOnly K .reservedNonzero (commandWord (.reset x)) s) := by
  by_cases h : x = 0#24 <;> simp [runReset, reservedOperandClear, h]

/-- READ_REG emits its RESP record, faulted or not, or only raises BAD_REGISTER or RESERVED_NONZERO (R295, R323). -/
theorem runReadReg_cases (reserved : BitVec 16) (addr : BitVec 8) (s : State.Over α ω) :
    (reserved = 0#16 ∧ ∃ v, regValue K addr s = some v ∧ runReadReg K reserved addr s = State.emit K (.resp addr v) s)
      ∨ (reserved = 0#16 ∧ regValue K addr s = none
          ∧ runReadReg K reserved addr s = raiseOnly K .badRegister (commandWord (.readReg 0#16 addr)) s)
      ∨ (reserved ≠ 0#16
          ∧ runReadReg K reserved addr s = raiseOnly K .reservedNonzero (commandWord (.readReg reserved addr)) s) := by
  by_cases h : reserved = 0#16
  · cases k : regValue K addr s <;> simp [runReadReg, readRegCommand, reservedAddressBitsClear, h, k]
  · simp [runReadReg, reservedAddressBitsClear, h]

/-- Every step either waits or runs the command at the front of the input (R110). -/
theorem runStep_cases [DecidableEq α] (s : State.Over α ω) :
    (∃ why, decode s.input = .stop why ∧ runStep K s = s)
      ∨ ∃ i rest, decode s.input = .command i rest ∧ runStep K s = runCommand K i (State.withInput rest s) := by
  cases h : decode s.input with
  | stop why => left; exact ⟨why, rfl, by simp [runStep, h]⟩
  | command i rest => right; exact ⟨i, rest, rfl, by simp [runStep, h]⟩

end Sys2Proof.Machine
end

