-- ==== Sys2Proof/Laws/Compare.lean ====
section
/-! SUPPORT. The comparisons of binary32 (R10) and `clamp` (R9) on any patterns, NaNs included, and over the reals. -/

namespace Sys2Proof.Machine

theorem F32.lt_iff (a b : F32) :
    F32.lt a b = true ↔ F32.isNaN a = false ∧ F32.isNaN b = false ∧ F32.key a < F32.key b := by
  simp [F32.lt, and_assoc]

theorem F32.le_iff (a b : F32) :
    F32.le a b = true ↔ F32.isNaN a = false ∧ F32.isNaN b = false ∧ F32.key a ≤ F32.key b := by
  simp [F32.le, and_assoc]

theorem F32.eq_iff (a b : F32) :
    F32.eq a b = true ↔ F32.isNaN a = false ∧ F32.isNaN b = false ∧ F32.key a = F32.key b := by
  simp [F32.eq, and_assoc]

@[simp] theorem F32.lt_irrefl (v : F32) : F32.lt v v = false := by simp [F32.lt]

theorem F32.not_lt_of_le {a b : F32} (h : F32.le a b = true) : F32.lt b a = false := by
  rw [F32.le_iff] at h
  rw [Bool.eq_false_iff, ne_eq, F32.lt_iff]
  omega

theorem F32.le_of_lt {a b : F32} (h : F32.lt a b = true) : F32.le a b = true := by
  rw [F32.lt_iff] at h
  rw [F32.le_iff]
  exact ⟨h.1, h.2.1, h.2.2.le⟩

theorem F32.le_trans {a b c : F32} (h : F32.le a b = true) (k : F32.le b c = true) : F32.le a c = true := by
  rw [F32.le_iff] at *
  exact ⟨h.1, k.2.1, h.2.2.trans k.2.2⟩

/-- A pattern that is no NaN and no zero is told from another by its key; the key is within 32 bits. -/
theorem F32.key_bounds (v : F32) : -(2 ^ 31 : Int) < F32.key v ∧ F32.key v < 2 ^ 31 := by
  have h : (F32.abs v).toNat < 2 ^ 31 := by
    simp only [F32.abs, BitVec.toNat_and]
    exact lt_of_le_of_lt Nat.and_le_right (by decide)
  unfold F32.key
  dsimp only
  split <;> omega

/-- Everything that `clamp` can answer. -/
theorem clamp_cases {α : Type} (N : Numerics α) (v lo hi : α) :
    (N.lt v lo = true ∧ clamp N v lo hi = lo)
      ∨ (N.lt v lo = false ∧ N.lt hi v = true ∧ clamp N v lo hi = hi)
      ∨ (N.lt v lo = false ∧ N.lt hi v = false ∧ clamp N v lo hi = v) := by
  unfold clamp
  cases h : N.lt v lo <;> cases k : N.lt hi v <;> simp

/-- The clamp of any pattern into limits that are in order is not found outside them. -/
theorem clamp_within {v lo hi : F32} (h : F32.lt hi lo = false) :
    F32.lt (clamp binary32 v lo hi) lo = false ∧ F32.lt hi (clamp binary32 v lo hi) = false := by
  rcases clamp_cases binary32 v lo hi with ⟨_, e⟩ | ⟨_, _, e⟩ | ⟨a, b, e⟩ <;> rw [e]
  · exact ⟨F32.lt_irrefl lo, h⟩
  · exact ⟨h, F32.lt_irrefl hi⟩
  · exact ⟨a, b⟩

/-! ### The operations over the reals (R8) -/

@[simp] theorem reals_num : reals.num = realNumerics := rfl
@[simp] theorem realNumerics_add (a b : ℝ) : realNumerics.add a b = a + b := rfl
@[simp] theorem realNumerics_sub (a b : ℝ) : realNumerics.sub a b = a - b := rfl
@[simp] theorem realNumerics_mul (a b : ℝ) : realNumerics.mul a b = a * b := rfl
@[simp] theorem realNumerics_div (a b : ℝ) : realNumerics.div a b = a / b := rfl
@[simp] theorem realNumerics_sqrt (a : ℝ) : realNumerics.sqrt a = Real.sqrt a := rfl
@[simp] theorem realNumerics_neg (a : ℝ) : realNumerics.neg a = -a := rfl
@[simp] theorem realNumerics_abs (a : ℝ) : realNumerics.abs a = |a| := rfl
@[simp] theorem realNumerics_floor (a : ℝ) : realNumerics.floor a = ⌊a⌋ := rfl
@[simp] theorem realNumerics_ofInt (z : Int) : realNumerics.ofInt z = (z : ℝ) := rfl
@[simp] theorem realNumerics_const (k : RealConst) : realNumerics.const k = realConst k := rfl
@[simp] theorem realNumerics_lt (a b : ℝ) : realNumerics.lt a b = true ↔ a < b := by simp [realNumerics]
@[simp] theorem realNumerics_le (a b : ℝ) : realNumerics.le a b = true ↔ a ≤ b := by simp [realNumerics]
@[simp] theorem realNumerics_eq (a b : ℝ) : realNumerics.eq a b = true ↔ a = b := by simp [realNumerics]
@[simp] theorem realNumerics_not_lt (a b : ℝ) : realNumerics.lt a b = false ↔ b ≤ a := by simp [realNumerics]
@[simp] theorem realNumerics_not_le (a b : ℝ) : realNumerics.le a b = false ↔ b < a := by simp [realNumerics]

/-- Over the reals a clamp into limits that are in order is within them. -/
theorem real_clamp_within {lo hi : ℝ} (v : ℝ) (h : lo ≤ hi) :
    lo ≤ clamp realNumerics v lo hi ∧ clamp realNumerics v lo hi ≤ hi := by
  rcases clamp_cases realNumerics v lo hi with ⟨_, e⟩ | ⟨_, _, e⟩ | ⟨a, b, e⟩ <;> rw [e]
  · exact ⟨le_rfl, h⟩
  · exact ⟨h, le_rfl⟩
  · exact ⟨(realNumerics_not_lt ..).1 a, (realNumerics_not_lt ..).1 b⟩

end Sys2Proof.Machine
end

