-- ==== Sys2Proof/Laws/PerInstr.lean ====
section
/-! SUPPORT. Facts of every instruction as syntax, one lemma per constructor. -/

namespace Sys2Proof.Laws

/-- The encoding of a well-formed instruction is as long as its first word says (R129). -/
def EncodingLength.Statement (i : Instr) : Prop :=
  i.wellFormed = true → (encode i).length = 1 + payloadLength (commandWord i)

/-- For a constructor without payload it is enough that its opcode is neither CONFIGURE's nor SAMPLES's. -/
theorem EncodingLength.of_no_payload {i : Instr} (hp : payloadOf i = [])
    (h1 : (opcodeOf (commandWord i)).toNat ≠ 1) (h2 : (opcodeOf (commandWord i)).toNat ≠ 2) :
    EncodingLength.Statement i := by
  intro _
  simp [encode, hp, payloadLength_eq_zero h1 h2]

theorem EncodingLength.configure (rate : Operand) (spsWord : Word) : EncodingLength.Statement (.configure rate spsWord) := by
  intro _
  simp [encode, payloadOf, commandWord, payloadLength_configure]

theorem EncodingLength.samples (tsLo tsHi : Word) (data : List Word) : EncodingLength.Statement (.samples tsLo tsHi data) := by
  intro h
  have hlen : data.length < 2 ^ 24 := by simpa [Instr.wellFormed] using h
  simp only [encode, payloadOf, commandWord, payloadLength_samples, List.length_cons, BitVec.toNat_ofNat, Nat.mod_eq_of_lt hlen]
  omega

theorem EncodingLength.flush (reserved : Operand) : EncodingLength.Statement (.flush reserved) := by
  apply EncodingLength.of_no_payload rfl <;> simp [commandWord]

theorem EncodingLength.reset (reserved : Operand) : EncodingLength.Statement (.reset reserved) := by
  apply EncodingLength.of_no_payload rfl <;> simp [commandWord]

theorem EncodingLength.readReg (reserved : BitVec 16) (addr : BitVec 8) : EncodingLength.Statement (.readReg reserved addr) := by
  apply EncodingLength.of_no_payload rfl <;> simp [commandWord]

theorem EncodingLength.equalize (x : Operand) : EncodingLength.Statement (.equalize x) := by
  apply EncodingLength.of_no_payload rfl <;> simp [commandWord]

theorem EncodingLength.unwrap (x : Operand) : EncodingLength.Statement (.unwrap x) := by
  apply EncodingLength.of_no_payload rfl <;> simp [commandWord]

theorem EncodingLength.eqSymbol (x : Operand) : EncodingLength.Statement (.eqSymbol x) := by
  apply EncodingLength.of_no_payload rfl <;> simp [commandWord]

theorem EncodingLength.eqConfigure (x : Operand) : EncodingLength.Statement (.eqConfigure x) := by
  apply EncodingLength.of_no_payload rfl <;> simp [commandWord]

theorem EncodingLength.eqReset (x : Operand) : EncodingLength.Statement (.eqReset x) := by
  apply EncodingLength.of_no_payload rfl <;> simp [commandWord]

theorem EncodingLength.eqApply (x : Operand) : EncodingLength.Statement (.eqApply x) := by
  apply EncodingLength.of_no_payload rfl <;> simp [commandWord]

theorem EncodingLength.idealPhase (x : Operand) : EncodingLength.Statement (.idealPhase x) := by
  apply EncodingLength.of_no_payload rfl <;> simp [commandWord]

theorem EncodingLength.toSymbol (x : Operand) : EncodingLength.Statement (.toSymbol x) := by
  apply EncodingLength.of_no_payload rfl <;> simp [commandWord]

theorem EncodingLength.bitDistance (x : Operand) : EncodingLength.Statement (.bitDistance x) := by
  apply EncodingLength.of_no_payload rfl <;> simp [commandWord]

theorem EncodingLength.softScore (x : Operand) : EncodingLength.Statement (.softScore x) := by
  apply EncodingLength.of_no_payload rfl <;> simp [commandWord]

theorem EncodingLength.hardErrors (x : Operand) : EncodingLength.Statement (.hardErrors x) := by
  apply EncodingLength.of_no_payload rfl <;> simp [commandWord]

theorem EncodingLength.stddev (x : Operand) : EncodingLength.Statement (.stddev x) := by
  apply EncodingLength.of_no_payload rfl <;> simp [commandWord]

theorem EncodingLength.scoreAt (x : Operand) : EncodingLength.Statement (.scoreAt x) := by
  apply EncodingLength.of_no_payload rfl <;> simp [commandWord]

theorem EncodingLength.measure (x : Operand) : EncodingLength.Statement (.measure x) := by
  apply EncodingLength.of_no_payload rfl <;> simp [commandWord]

theorem EncodingLength.optimize (x : Operand) : EncodingLength.Statement (.optimize x) := by
  apply EncodingLength.of_no_payload rfl <;> simp [commandWord]

theorem EncodingLength.prebias (x : Operand) : EncodingLength.Statement (.prebias x) := by
  apply EncodingLength.of_no_payload rfl <;> simp [commandWord]

theorem EncodingLength.sampleStep (x : Operand) : EncodingLength.Statement (.sampleStep x) := by
  apply EncodingLength.of_no_payload rfl <;> simp [commandWord]

theorem EncodingLength.symbolStep (x : Operand) : EncodingLength.Statement (.symbolStep x) := by
  apply EncodingLength.of_no_payload rfl <;> simp [commandWord]

theorem EncodingLength.timingNudge (x : Operand) : EncodingLength.Statement (.timingNudge x) := by
  apply EncodingLength.of_no_payload rfl <;> simp [commandWord]

theorem EncodingLength.syncCheck (x : Operand) : EncodingLength.Statement (.syncCheck x) := by
  apply EncodingLength.of_no_payload rfl <;> simp [commandWord]

theorem EncodingLength.acceptSync (x : Operand) : EncodingLength.Statement (.acceptSync x) := by
  apply EncodingLength.of_no_payload rfl <;> simp [commandWord]

theorem EncodingLength.coastSync (x : Operand) : EncodingLength.Statement (.coastSync x) := by
  apply EncodingLength.of_no_payload rfl <;> simp [commandWord]

theorem EncodingLength.recordPush (x : Operand) : EncodingLength.Statement (.recordPush x) := by
  apply EncodingLength.of_no_payload rfl <;> simp [commandWord]

theorem EncodingLength.framerSync (x : Operand) : EncodingLength.Statement (.framerSync x) := by
  apply EncodingLength.of_no_payload rfl <;> simp [commandWord]

theorem EncodingLength.framerDibit (x : Operand) : EncodingLength.Statement (.framerDibit x) := by
  apply EncodingLength.of_no_payload rfl <;> simp [commandWord]

theorem EncodingLength.dispatch (x : Operand) : EncodingLength.Statement (.dispatch x) := by
  apply EncodingLength.of_no_payload rfl <;> simp [commandWord]

theorem EncodingLength.frameTimestamp (x : Operand) : EncodingLength.Statement (.frameTimestamp x) := by
  apply EncodingLength.of_no_payload rfl <;> simp [commandWord]

theorem EncodingLength.datapathReset (x : Operand) : EncodingLength.Statement (.datapathReset x) := by
  apply EncodingLength.of_no_payload rfl <;> simp [commandWord]

theorem EncodingLength.reservedInternal (low : BitVec 26) : EncodingLength.Statement (.reservedInternal low) := by
  have := low.isLt
  apply EncodingLength.of_no_payload rfl <;>
    (simp only [commandWord, opcodeOf_toNat, toNat_append_eq, BitVec.toNat_ofNat]; omega)

theorem EncodingLength.illegal00 (x : Operand) : EncodingLength.Statement (.illegal00 x) := by
  apply EncodingLength.of_no_payload rfl <;> simp [commandWord]

theorem EncodingLength.illegal06 (low : BitVec 25) : EncodingLength.Statement (.illegal06 low) := by
  have := low.isLt
  apply EncodingLength.of_no_payload rfl <;>
    (simp only [commandWord, opcodeOf_toNat, toNat_append_eq, BitVec.toNat_ofNat]; omega)

theorem EncodingLength.illegal08 (low : BitVec 27) : EncodingLength.Statement (.illegal08 low) := by
  have := low.isLt
  apply EncodingLength.of_no_payload rfl <;>
    (simp only [commandWord, opcodeOf_toNat, toNat_append_eq, BitVec.toNat_ofNat]; omega)

theorem EncodingLength.illegal10 (low : BitVec 28) : EncodingLength.Statement (.illegal10 low) := by
  have := low.isLt
  apply EncodingLength.of_no_payload rfl <;>
    (simp only [commandWord, opcodeOf_toNat, toNat_append_eq, BitVec.toNat_ofNat]; omega)

theorem EncodingLength.illegal20 (low : BitVec 29) : EncodingLength.Statement (.illegal20 low) := by
  have := low.isLt
  apply EncodingLength.of_no_payload rfl <;>
    (simp only [commandWord, opcodeOf_toNat, toNat_append_eq, BitVec.toNat_ofNat]; omega)

theorem EncodingLength.illegal40 (low : BitVec 30) : EncodingLength.Statement (.illegal40 low) := by
  have := low.isLt
  apply EncodingLength.of_no_payload rfl <;>
    (simp only [commandWord, opcodeOf_toNat, toNat_append_eq, BitVec.toNat_ofNat]; omega)

theorem EncodingLength.illegalA0 (low : BitVec 29) : EncodingLength.Statement (.illegalA0 low) := by
  have := low.isLt
  apply EncodingLength.of_no_payload rfl <;>
    (simp only [commandWord, opcodeOf_toNat, toNat_append_eq, BitVec.toNat_ofNat]; omega)

theorem EncodingLength.illegalC0 (low : BitVec 30) : EncodingLength.Statement (.illegalC0 low) := by
  have := low.isLt
  apply EncodingLength.of_no_payload rfl <;>
    (simp only [commandWord, opcodeOf_toNat, toNat_append_eq, BitVec.toNat_ofNat]; omega)

end Sys2Proof.Laws
end

