-- ==== Sys2Proof/Machine/Assembler.lean ====
section
/-! DEFINITION. Command streams as R127 writes them, as terms: the lines, the register names of R50, and the two
pseudo-commands of R128 with the real commands they expand to. Values are binary32 patterns. -/

namespace Sys2Proof.Machine

/-- The register names of R50, in the order of their addresses. -/
inductive RegisterName where
  | status | sps | symbolRate | gain | balance | gainMin | gainMax | gainInitial | samplePoint
  | samplesRxLo | samplesRxHi | samplesDoneLo | samplesDoneHi
  | symbolsSinceSync | totalSymbols | asmBitCount | framesDispatched | syncCount | invalidCount | faultInfo
  | lastScorePrimary | lastScoreLag | lastScoreControl | hardBitErrors | asmOverflow | dibitsSinceTs
  | refTsLo | refTsHi | lastCorrectedBits
deriving DecidableEq, Repr

/-- The address of a register name (R50). -/
def RegisterName.address : RegisterName → BitVec 8
  | .status => 0x00#8
  | .sps => 0x01#8
  | .symbolRate => 0x02#8
  | .gain => 0x03#8
  | .balance => 0x04#8
  | .gainMin => 0x05#8
  | .gainMax => 0x06#8
  | .gainInitial => 0x07#8
  | .samplePoint => 0x08#8
  | .samplesRxLo => 0x09#8
  | .samplesRxHi => 0x0A#8
  | .samplesDoneLo => 0x0B#8
  | .samplesDoneHi => 0x0C#8
  | .symbolsSinceSync => 0x0D#8
  | .totalSymbols => 0x0E#8
  | .asmBitCount => 0x0F#8
  | .framesDispatched => 0x10#8
  | .syncCount => 0x11#8
  | .invalidCount => 0x12#8
  | .faultInfo => 0x13#8
  | .lastScorePrimary => 0x14#8
  | .lastScoreLag => 0x15#8
  | .lastScoreControl => 0x16#8
  | .hardBitErrors => 0x17#8
  | .asmOverflow => 0x18#8
  | .dibitsSinceTs => 0x19#8
  | .refTsLo => 0x1A#8
  | .refTsHi => 0x1B#8
  | .lastCorrectedBits => 0x1C#8

/-- One line of a command stream (R127, R128). -/
inductive AsmLine where
  | configure (rate : Operand) (sps : F32)
  /-- `SAMPLES ts=t, [v0, v1, ...]`. -/
  | samples (ts : BitVec 64) (vs : List F32)
  /-- `SAMPLES ts=t, c x v`. -/
  | samplesRepeat (ts : BitVec 64) (c : Nat) (v : F32)
  | flush
  | reset
  | readReg (name : RegisterName)
  | readAddress (a : BitVec 8)
  /-- `BLOCKS ts0=t, step=s, count=k, size=m, value=v`. -/
  | blocks (ts0 step : BitVec 64) (count size : Nat) (value : F32)
deriving DecidableEq, Repr

/-- SAMPLES with its timestamp as two words, the low one first (R84, R114). -/
def samplesAt (ts : BitVec 64) (vs : List F32) : Instr := .samples (ts.extractLsb' 0 32) (ts.extractLsb' 32 32) vs

/-- The real commands of a line: a pseudo-command expands, any other line is one command (R128). A BLOCKS timestamp t + i × s
that passes 2^64 is taken modulo 2^64. DESIGN CHOICE (log 25), unsafe: R128 does not say what such a timestamp denotes. -/
def AsmLine.expand : AsmLine → List Instr
  | .configure rate sps => [.configure rate sps]
  | .samples ts vs => [samplesAt ts vs]
  | .samplesRepeat ts c v => [samplesAt ts (List.replicate c v)]
  | .flush => [.flush 0#24]
  | .reset => [.reset 0#24]
  | .readReg name => [.readReg 0#16 name.address]
  | .readAddress a => [.readReg 0#16 a]
  | .blocks ts0 step count size value =>
    (List.range count).map fun i => samplesAt (ts0 + BitVec.ofNat 64 i * step) (List.replicate size value)

/-- The words of a command stream. -/
def assemble (lines : List AsmLine) : List Word := lines.flatMap fun line => line.expand.flatMap encode

end Sys2Proof.Machine
end

