-- ==== Sys2Proof/Tests/Slice0.lean ====
section
/-! SUPPORT. Tests of the model against values that spec/ states (the file and the rule stand with each), and for every
obligation with hypotheses a witness that meets them, one for each clause. -/

namespace Sys2Proof.Machine

set_option Elab.async false

/-! ### Helpers -/

/-- The state just after `CONFIGURE rate=4800, sps=4.0` (the start of the vectors of 95_test_vectors.md L2). -/
def testConfigured : State :=
  { State.reset with
    configured := true, sps := 0x40800000#32, symbolRate := 4800#32
    gainInitial := 0x408C1797#32, gainMin := 0x407F9B53#32, gainMax := 0x40986185#32
    gain := 0x408C1797#32, samplePoint := 0x40800000#32 }

/-- A faulted block. -/
def testFaulted : State := { testConfigured with fault := true, faultCode := 1#8, faultInfo := 0x06000000#32 }

/-- A block with a frame in progress (R296's example). -/
def testAssembling : State :=
  { testConfigured with framerState := .assembling, asmBits := [false, true, true, false] }

/-- A block with these first samples. -/
def testSamples (vs : List F32) : State := State.histAppendAll words32 vs testConfigured

/-- Reads one field of a next state. -/
def onNext {α : Type} (o : Host.Outcome State Fault Refusal) (f : State → α) : Option α :=
  match o with
  | .next t => some (f t)
  | .refused _ => none

/-- One step on this input. -/
def stepOn (s : State) (ws : List Word) : Host.Outcome State Fault Refusal := step { s with input := ws }

/-! ### WellFormed and Decode (30_encoding.md R112 to R119) -/

/-- Any block of 2^24 samples has no encoding. -/
theorem test_wellFormed_refuses_length (data : List Word) (h : data.length = 2 ^ 24) :
    (Instr.samples 0#32 0#32 data).wellFormed = false := by
  simp [Instr.wellFormed, h]

/-- An ill-formed term, refused. -/
theorem test_wellFormed_refuses_long_block :
    (Instr.samples 0#32 0#32 (List.replicate (2 ^ 24) 0#32)).wellFormed = false :=
  test_wellFormed_refuses_length _ List.length_replicate

theorem test_wellFormed_accepts : (Instr.samples 0#32 0#32 [0#32]).wellFormed = true := by decide +kernel

/-- Table H1 of 95_test_vectors.md. -/
theorem test_decode_host_commands :
    decode [0x010012C0#32, 0x40800000#32] = .command (.configure 0x0012C0#24 0x40800000#32) []
    ∧ decode [0x01000960#32, 0x41000000#32] = .command (.configure 2400#24 0x41000000#32) []
    ∧ decode [0x02000000#32, 0#32, 0#32] = .command (.samples 0#32 0#32 []) []
    ∧ decode [0x02000001#32, 7#32, 0#32, 0x3F000000#32] = .command (.samples 7#32 0#32 [0x3F000000#32]) []
    ∧ decode [0x02000000#32, 1#32, 1#32] = .command (.samples 1#32 1#32 []) []
    ∧ decode [0x03000000#32] = .command (.flush 0#24) []
    ∧ decode [0x04000000#32] = .command (.reset 0#24) []
    ∧ decode [0x05000000#32] = .command (.readReg 0#16 0#8) []
    ∧ decode [0x0500001C#32] = .command (.readReg 0#16 0x1C#8) []
    ∧ decode [0x05ABCD12#32] = .command (.readReg 0xABCD#16 0x12#8) [] := by decide +kernel

/-- The ids of R118, each with an operand that has both end bits set. -/
theorem test_decode_internal_ids :
    decode [0x80800001#32] = .command (.equalize 0x800001#24) []
    ∧ decode [0x81800001#32] = .command (.unwrap 0x800001#24) []
    ∧ decode [0x82800001#32] = .command (.eqSymbol 0x800001#24) []
    ∧ decode [0x83800001#32] = .command (.eqConfigure 0x800001#24) []
    ∧ decode [0x84800001#32] = .command (.eqReset 0x800001#24) []
    ∧ decode [0x85800001#32] = .command (.eqApply 0x800001#24) []
    ∧ decode [0x86800001#32] = .command (.idealPhase 0x800001#24) []
    ∧ decode [0x87800001#32] = .command (.toSymbol 0x800001#24) []
    ∧ decode [0x88800001#32] = .command (.bitDistance 0x800001#24) []
    ∧ decode [0x89800001#32] = .command (.softScore 0x800001#24) []
    ∧ decode [0x8A800001#32] = .command (.hardErrors 0x800001#24) []
    ∧ decode [0x8B800001#32] = .command (.stddev 0x800001#24) []
    ∧ decode [0x8C800001#32] = .command (.scoreAt 0x800001#24) []
    ∧ decode [0x8D800001#32] = .command (.measure 0x800001#24) []
    ∧ decode [0x8E800001#32] = .command (.optimize 0x800001#24) []
    ∧ decode [0x8F800001#32] = .command (.prebias 0x800001#24) []
    ∧ decode [0x90800001#32] = .command (.sampleStep 0x800001#24) []
    ∧ decode [0x91800001#32] = .command (.symbolStep 0x800001#24) []
    ∧ decode [0x92800001#32] = .command (.timingNudge 0x800001#24) []
    ∧ decode [0x93800001#32] = .command (.syncCheck 0x800001#24) []
    ∧ decode [0x94800001#32] = .command (.acceptSync 0x800001#24) []
    ∧ decode [0x95800001#32] = .command (.coastSync 0x800001#24) []
    ∧ decode [0x96800001#32] = .command (.recordPush 0x800001#24) []
    ∧ decode [0x97800001#32] = .command (.framerSync 0x800001#24) []
    ∧ decode [0x98800001#32] = .command (.framerDibit 0x800001#24) []
    ∧ decode [0x99800001#32] = .command (.dispatch 0x800001#24) []
    ∧ decode [0x9A800001#32] = .command (.frameTimestamp 0x800001#24) []
    ∧ decode [0x9B800001#32] = .command (.datapathReset 0x800001#24) [] := by decide +kernel

/-- The ranges of R112, at both ends of each. -/
theorem test_decode_ranges :
    decode [0x00FFFFFF#32] = .command (.illegal00 0xFFFFFF#24) []
    ∧ decode [0x06000001#32] = .command (.illegal06 0x0000001#25) []
    ∧ decode [0x07FFFFFF#32] = .command (.illegal06 0x1FFFFFF#25) []
    ∧ decode [0x08000000#32] = .command (.illegal08 0#27) []
    ∧ decode [0x0FFFFFFF#32] = .command (.illegal08 0x7FFFFFF#27) []
    ∧ decode [0x10000000#32] = .command (.illegal10 0#28) []
    ∧ decode [0x1FFFFFFF#32] = .command (.illegal10 0xFFFFFFF#28) []
    ∧ decode [0x20000000#32] = .command (.illegal20 0#29) []
    ∧ decode [0x3FFFFFFF#32] = .command (.illegal20 0x1FFFFFFF#29) []
    ∧ decode [0x40000000#32] = .command (.illegal40 0#30) []
    ∧ decode [0x7FFFFFFF#32] = .command (.illegal40 0x3FFFFFFF#30) []
    ∧ decode [0x9C000000#32] = .command (.reservedInternal 0#26) []
    ∧ decode [0x9FFFFFFF#32] = .command (.reservedInternal 0x3FFFFFF#26) []
    ∧ decode [0xA0000000#32] = .command (.illegalA0 0#29) []
    ∧ decode [0xBFFFFFFF#32] = .command (.illegalA0 0x1FFFFFFF#29) []
    ∧ decode [0xC0000000#32] = .command (.illegalC0 0#30) []
    ∧ decode [0xFFFFFFFF#32] = .command (.illegalC0 0x3FFFFFFF#30) [] := by decide +kernel

/-- A payload that is cut short is no command (R110); bytes come least significant first (R85). -/
theorem test_decode_waits_and_bytes :
    decode [] = .stop .noCommandWord ∧ decode [0x02000001#32, 0#32, 0#32] = .stop .payloadCutShort
    ∧ decodeBytes [0xC0#8, 0x12#8, 0x00#8, 0x01#8, 0x00#8, 0x00#8, 0x80#8, 0x40#8]
      = .command (.configure 4800#24 0x40800000#32) [] := by decide +kernel

/-- R128's pseudo-commands and table H1's `SAMPLES ts=2^32 + 1, []`. -/
theorem test_assemble :
    assemble [.configure 4800#24 0x40800000#32, .samples 0x100000001#64 [], .readReg .lastCorrectedBits]
      = [0x010012C0#32, 0x40800000#32, 0x02000000#32, 1#32, 1#32, 0x0500001C#32]
    ∧ assemble [.blocks 5#64 50#64 2 1 0x3F000000#32]
      = [0x02000001#32, 5#32, 0#32, 0x3F000000#32, 0x02000001#32, 55#32, 0#32, 0x3F000000#32] := by decide +kernel

/-- The first step after reset runs the word that `withFetchWord` places. -/
theorem test_withFetchWord :
    onNext (step (State.reset.withFetchWord 32 0x05000017)) (·.output) = some [0x01000017#32, 13#32]
    ∧ decodeTableWord 64 0x40800000010012C0 = some (.configure 4800#24 0x40800000#32) := by decide +kernel

/-! ### The host commands (44_host_commands.md, tables H2, H3, F1, F2) -/

theorem test_configure_4 :
    onNext (exec (.configure 4800#24 0x40800000#32) State.reset) id = some testConfigured := by decide +kernel

/-- Table H2: the ends of the accepted range, and the refused values next to them. -/
theorem test_configure_validity :
    [0x40000000#32, 0x42000000#32, 0x3FFFFFFF#32, 0x42000001#32, 0x7FC00000#32, 0x3F800000#32].map
      (fun v => onNext (exec (.configure 4800#24 v) State.reset) (·.output))
    = [some [], some [], some [0x06000005#32, 0x010012C0#32], some [0x06000005#32, 0x010012C0#32],
        some [0x06000005#32, 0x010012C0#32], some [0x06000005#32, 0x010012C0#32]] := by decide +kernel

/-- R293's example, table F1 code 6 and table F2: NaN refused, ±2^20 accepted, the next magnitude refused. -/
theorem test_samples_validity :
    onNext (exec (.samples 0#32 0#32 [0x3F000000#32, 0x7FC00000#32]) testConfigured) (fun t => (t.r, t.output))
      = some (0#64, [0x06000006#32, 0x02000002#32])
    ∧ onNext (exec (.samples 0#32 0#32 [0x49800000#32, 0xC9800000#32]) testConfigured) (fun t => (t.r, t.output))
      = some (2#64, [])
    ∧ onNext (exec (.samples 0#32 0#32 [0x49800400#32]) testConfigured) (fun t => (t.r, t.output))
      = some (0#64, [0x06000006#32, 0x02000001#32]) := by decide +kernel

/-- Table F1 code 4: NOT_CONFIGURED outranks the NaN sample. -/
theorem test_samples_not_configured :
    onNext (exec (.samples 0#32 0#32 [0x7FC00000#32]) State.reset) (·.output)
      = some [0x06000004#32, 0x02000001#32] := by decide +kernel

/-- R296's example. -/
theorem test_flush_partial :
    onNext (exec (.flush 0#24) testAssembling) (fun t => (t.output, t.framerState, t.framesDispatched))
      = some ([0x04000004#32, 0#32, 0#32, 0x60000000#32], .idle, 1#32) := by decide +kernel

/-- Table F2 and table F1 code 3: the reserved bit outranks NOT_CONFIGURED. -/
theorem test_flush_reserved :
    onNext (exec (.flush 1#24) State.reset) (·.output) = some [0x06000003#32, 0x03000001#32] := by decide +kernel

/-- R294's example: RESET leaves the fault state and keeps the configuration. -/
theorem test_reset_leaves_fault : onNext (exec (.reset 0#24) testFaulted) id = some testConfigured := by
  decide +kernel

/-- R295's example, table H3 and table F1 code 7. -/
theorem test_readReg :
    onNext (exec (.readReg 0#16 0x03#8) testConfigured) (·.output) = some [0x01000003#32, 0x408C1797#32]
    ∧ onNext (exec (.readReg 0#16 0x00#8) testConfigured) (·.output) = some [0x01000000#32, 1#32]
    ∧ onNext (exec (.readReg 0#16 0x17#8) testConfigured) (·.output) = some [0x01000017#32, 0x0000000D#32]
    ∧ onNext (exec (.readReg 0#16 0x1C#8) State.reset) (·.output) = some [0x0100001C#32, 0#32]
    ∧ onNext (exec (.readReg 0#16 0xFF#8) State.reset) (·.output) = some [0x06000007#32, 0x050000FF#32] := by
  decide +kernel

/-- The fault gate (R323): a faulted block reads STATUS and ignores FLUSH. -/
theorem test_fault_gate :
    onNext (exec (.readReg 0#16 0x00#8) testFaulted) (·.output) = some [0x01000000#32, 0x00000105#32]
    ∧ onNext (exec (.flush 0#24) testFaulted) id = some testFaulted := by decide +kernel

/-- Table F1 codes 1 and 2. -/
theorem test_illegal_and_internal :
    [0x06000000#32, 0x00000000#32, 0xFF000000#32, 0x91000000#32, 0x80123456#32, 0x05000100#32].map
      (fun w => onNext (stepOn testConfigured [w]) (·.output))
    = [some [0x06000001#32, 0x06000000#32], some [0x06000001#32, 0x00000000#32],
        some [0x06000001#32, 0xFF000000#32], some [0x06000002#32, 0x91000000#32],
        some [0x06000002#32, 0x80123456#32], some [0x06000003#32, 0x05000100#32]] := by decide +kernel

/-! ### The equalizer (40_equalizer.md and vectors E1 to E4) -/

theorem test_equalize :
    opEqualize words32 0x3F000000#32 testConfigured = 0x400C1797#32
    ∧ opEqualize words32 0x3F000000#32 { testConfigured with balance := 0x3DCCCCCD#32 } = 0x40281C4F#32
    ∧ opEqualize words32 0x3DCCCCCD#32 { testConfigured with balance := 0xBD4CCCC0#32 } = 0x3E6025CD#32 := by decide +kernel

theorem test_unwrap :
    [0x40600000#32, 0xC0600000#32, 0x40E00000#32, 0x40490FF9#32, 0x40490FDB#32, 0xC0490FDB#32].map (unwrap binary32)
    = [0xC0321FB6#32, 0x40321FB6#32, 0x3F378128#32, 0xC0490FBD#32, 0x40490FDB#32, 0xC0490FDB#32] := by
  decide +kernel

/-- R152's example: SMP = [0.0, 0.1, 0.3, 0.2, -0.7, -0.8, 0.7, 0.75]. -/
theorem test_eqSymbol :
    let s := testSamples [0#32, 0x3DCCCCCD#32, 0x3E99999A#32, 0x3E4CCCCD#32, 0xBF333333#32, 0xBF4CCCCD#32,
      0x3F333333#32, 0x3F400000#32];
    [opEqSymbol words32 1 0#32 s, opEqSymbol words32 1 0x3E800000#32 s, opEqSymbol words32 1 0x3FC00000#32 s, opEqSymbol words32 2 0xBF000000#32 s,
      opEqSymbol words32 0 0xBF800000#32 s, opEqSymbol words32 3 0x3FC00000#32 s, opEqSymbol words32 4 0x40100000#32 s]
    = [0x3EE025BF#32, 0x3F281C4F#32, 0x3F8C1797#32, 0x3F6025BE#32, 0#32, 0xBE113880#32, 0x3FC6335F#32] := by
  decide +kernel

/-- Vectors E2. -/
theorem test_gainLimits :
    gainLimits binary32 0x4099999A#32 = ⟨0x40A81C50#32, 0x40995D32#32, 0x40B6DB6D#32⟩
    ∧ gainLimits binary32 0x42000000#32 = ⟨0x420C1797#32, 0x41FF9B53#32, 0x42186185#32⟩ := by decide +kernel

/-- A Correction with these adjustments. -/
def testCorrection (balAdj gainAdj : F32) : Correction F32 := ⟨0#32, 0#32, balAdj, gainAdj, 0#32, 0#32, 0⟩

/-- R155's example and vectors E3: the exact recalibration threshold and a value above it. -/
theorem test_eqApply :
    (let a := opEqApply words32 (testCorrection 0x3E4CCCCD#32 0x3DCCCCCD#32) testConfigured;
      (a.1.balance, a.1.gain, a.2) = (0x3E4CCCCD#32, 0x408F4ACA#32, false))
    ∧ (let a := opEqApply words32 (testCorrection 0x3EEC8B1F#32 0#32) { testConfigured with synchronized := true };
      (a.1.balance, a.1.synchronized, a.2) = (0x3D8DED13#32, true, false))
    ∧ (let a := opEqApply words32 (testCorrection 0x3EEC8B44#32 0#32) { testConfigured with synchronized := true };
      (a.1.balance, a.1.synchronized, a.2) = (0x3D8DED29#32, false, true))
    ∧ (let a := opEqApply words32 (testCorrection 0xC0000000#32 0xBF800000#32) testConfigured;
      (a.1.balance, a.1.gain, a.2) = (0xBF860A92#32, 0x407F9B53#32, false)) := by decide +kernel

/-! ### The detectors words32 (41_sync_detector.md and vectors S1 to S5) -/

theorem test_toSymbol :
    [0xC0800000#32, 0xC0490FDB#32, 0xBFC90FDC#32, 0xBFC90FDB#32, 0x8DA24260#32, 0x80000000#32, 0x00000000#32,
      0x3FC90FDB#32, 0x3FC90FDC#32, 0x40490FDB#32, 0x40800000#32].map (toSymbol binary32)
    = [3#2, 3#2, 3#2, 2#2, 2#2, 0#2, 0#2, 0#2, 1#2, 1#2, 1#2] := by decide +kernel

theorem test_idealPhase_and_distance :
    idealPhase binary32 1#2 = 0x4016CBE4#32 ∧ bitDistance 3#2 0#2 = 2 ∧ bitDistance 1#2 3#2 = 1 := by decide +kernel

theorem test_softScore :
    softScore binary32 (Params.examples.syncPattern.map (idealPhase binary32)) Params.examples.syncPattern = 0x42369672#32
    ∧ softScore binary32 (List.replicate 10 0x400C1797#32) Params.examples.syncPattern = 0#32
    ∧ softScore binary32 (List.replicate 10 0x3F000000#32) Params.examples.syncPattern = 0x34000000#32 := by decide +kernel

theorem test_hardErrors :
    [0#2, 1#2, 2#2, 3#2].map
      (fun d => opHardErrors { testConfigured with hardHist := List.replicate 10 d }) = [13, 7, 13, 7] := by
  decide +kernel

theorem test_stddev :
    stddev binary32 [0x3F800000#32, 0x40000000#32, 0x40400000#32, 0x40800000#32] = (0x3F8F1BBD#32, 0x40200000#32)
    ∧ stddev binary32 [0x40A00000#32] = (0#32, 0x40A00000#32) := by decide +kernel

/-! ### The symbol processor (42_symbol_processor.md) -/

/-- R222's example: samples of 0.5, the symbol at n = 3 with mu = 0.0. -/
theorem test_symbolStep :
    let t := opSymbolStep words32 3 { testSamples (List.replicate 10 0x3F000000#32) with samplePoint := 0#32 };
    (t.softHist.getLast?, t.hardHist.getLast?, t.samplePoint, t.symbolsSinceSync)
      = (some 0x400C1797#32, some 1#2, 0x40800000#32, 1#32) := by decide +kernel

/-- R221's examples and vector V2. -/
theorem test_sampleStep :
    ((opSampleStep words32 3 { testConfigured with samplePoint := 0x40000000#32 }).samplePoint,
      (opSampleStep words32 3 { testConfigured with samplePoint := 0x40000000#32 }).totalSymbols) = (0x3F800000#32, 0#32)
    ∧ (opSampleStep words32 3 { testSamples (List.replicate 10 0#32) with samplePoint := 0x3FC00000#32 }).totalSymbols = 1#32 := by
  decide +kernel

/-- R223's example: NUDGE_MAX = 0.05, SMP = [0.0, 0.1, 0.3, 0.2, 0.0, 0.0]. -/
theorem test_timingNudge :
    let s : State := { testSamples [0#32, 0x3DCCCCCD#32, 0x3E99999A#32, 0x3E4CCCCD#32, 0#32, 0#32] with
      params := { Params.examples with nudgeMax := 0x3D4CCCCD#32 } };
    [opTimingNudge words32 1 0x3F000000#32 0#2 s, opTimingNudge words32 2 0x3E800000#32 0#2 s, opTimingNudge words32 1 0x3F000000#32 2#2 s,
      opTimingNudge words32 4 0x3F000000#32 0#2 s] = [0x3D4CCCCD#32, 0xBD4CCCCD#32, 0xBD4CCCCD#32, 0#32] := by decide +kernel

/-- Vector V6: the coast at symbol 384 and the loss of sync after symbol 800. -/
theorem test_syncCheck :
    (opSyncCheck words32 3 0#32 { testConfigured with
      symbolsSinceSync := 384#32, hardHist := List.replicate 10 1#2 }).output = [0x0300000B#32, 0#32, 0#32]
    ∧ (opSyncCheck words32 3 0#32 { testConfigured with symbolsSinceSync := 384#32 }).output = []
    ∧ (opSyncCheck words32 3 0#32 { testConfigured with symbolsSinceSync := 800#32, synchronized := true }).synchronized = true
    ∧ (opSyncCheck words32 3 0#32 { testConfigured with symbolsSinceSync := 801#32, synchronized := true }).synchronized
      = false := by decide +kernel

/-- R226's example: the LAG Correction of program P4. -/
theorem test_acceptSync :
    let t := opAcceptSync words32 ⟨0xC0000000#32, 0x3F800000#32, 0xBB498D95#32, 0x3E8D66C0#32, 0x42215E37#32, 0x422CDBEC#32, 0⟩
      .lag testConfigured;
    (t.output, t.gain, t.samplePoint, t.synchronized)
      = ([0x0300000A#32, 0x422CDBEC#32, 0xBF800000#32], 0x4094EE03#32, 0x40400000#32, true) := by decide +kernel

/-- R228's example: DELAY_SYMBOLS = 2, dibits 00 01 10 11 00 01. -/
theorem test_recordPush :
    let t := [0#2, 1#2, 2#2, 3#2, 0#2, 1#2].foldl (fun u d => opRecordPush words32 d u)
      { testConfigured with params := { Params.examples with recordEnable := true, delaySymbols := 2 } }
    (t.output, t.delayFifo, t.pack) = ([0x0500001B#32], [0#2, 1#2], []) := by decide +kernel

/-! ### The framer (43_frame_assembler.md) -/

/-- R260's example and vector L2.4: a partial frame, and a frame of no bits. -/
theorem test_framerSync :
    (opFramerSync words32 testAssembling).output = [0x04000004#32, 0#32, 0#32, 0x60000000#32]
    ∧ (opFramerSync words32 { testAssembling with asmBits := [] }).output = [0x04000000#32, 0#32, 0#32] := by decide +kernel

/-- R261's and R262's examples: the dibit 11 fills the frame 00011011 at ref_ts = 5000 with 36 dibits counted. -/
theorem test_framerDibit :
    let t := opFramerDibit words32 3#2 { testConfigured with
      framerState := .assembling, asmBits := [false, false, false, true, true, false], refTs := 5000#64,
      dibitsSinceTs := 35#32 };
    (t.output, t.framerState, t.asmBits, t.dibitsSinceTs)
      = ([0x04800008#32, 0x0000138F#32, 0#32, 0x1B000000#32], .idle, [], 36#32) := by decide +kernel

/-- R263's example and the vectors of L2.4. -/
theorem test_frameTimestamp :
    opFrameTimestamp { testConfigured with refTs := 1500#64, dibitsSinceTs := 65#32 } = 1513#64
    ∧ opFrameTimestamp { testConfigured with refTs := 0xFFFFFFFFFFFFFFFF#64, dibitsSinceTs := 4800#32 } = 999#64
    ∧ opFrameTimestamp { testConfigured with symbolRate := 2400#32, dibitsSinceTs := 3#32 } = 1#64 := by decide +kernel

/-- R351's example. -/
theorem test_datapathReset :
    let t := opDatapathReset words32 { testConfigured with balance := 0x3E4CCCCD#32, framesDispatched := 3#32 };
    (t.balance, t.framesDispatched, t.sps) = (0#32, 0#32, 0x40800000#32) := by decide +kernel

/-! ### Witnesses: concrete values that meet the hypotheses of each obligation, clause by clause -/

theorem test_witness_DecodeEncode : (Instr.samples 1#32 2#32 [3#32]).wellFormed = true := by decide +kernel

theorem test_witness_EncodeDecode :
    decode [0x03000000#32, 0x04000000#32] = .command (.flush 0#24) [0x04000000#32] := by decide +kernel

theorem test_witness_BytesLittleEndian : 0 < 4 ∧ 3 < 4 := by decide +kernel

theorem test_witness_StepRunsCommand :
    (let s : State := { testConfigured with input := [0x03000000#32, 0x04000000#32] };
      (Instr.flush 0#24).wellFormed = true ∧ s.input = encode (.flush 0#24) ++ [0x04000000#32])
    ∧ State.reset.input = []
    ∧ (let s : State := { testConfigured with input := [0x02000001#32, 0#32, 0#32] };
      s.input = 0x02000001#32 :: [0#32, 0#32] ∧ [0#32, 0#32].length < payloadLength 0x02000001#32) := by decide +kernel

/-- A SAMPLES whose payload just fits, and one that is one word short. -/
theorem test_witness_LengthFromFirstWord :
    (let s : State := { testConfigured with input := [0x02000001#32, 0#32, 0#32, 0#32] };
      s.input = 0x02000001#32 :: [0#32, 0#32, 0#32]
        ∧ 2 + ((0x02000001#32 : Word).extractLsb' 0 24).toNat ≤ [0#32, 0#32, 0#32].length)
    ∧ (let s : State := { testConfigured with input := [0x01000001#32] }
      s.input = 0x01000001#32 :: [] ∧ ([] : List Word).length < 1) := by decide +kernel

/-- Both ends of every range of R119. -/
theorem test_witness_IllegalReservedWords :
    (∀ w ∈ [0x00000000#32, 0x06000000#32, 0x7F000000#32, 0xA0000000#32, 0xFF000000#32],
      testConfigured.fault = false ∧ (w.extractLsb' 24 8).toNat ∉ [0x01, 0x02, 0x03, 0x04, 0x05]
        ∧ ¬(0x80 ≤ (w.extractLsb' 24 8).toNat ∧ (w.extractLsb' 24 8).toNat ≤ 0x9F))
    ∧ (∀ w ∈ [0x80000000#32, 0x9F000000#32], 0x80 ≤ (w.extractLsb' 24 8).toNat ∧ (w.extractLsb' 24 8).toNat ≤ 0x9F)
    ∧ (∀ w ∈ [0x03000001#32, 0x04800000#32], ((w.extractLsb' 24 8).toNat = 3 ∨ (w.extractLsb' 24 8).toNat = 4)
        ∧ w.extractLsb' 0 24 ≠ 0#24)
    ∧ ∀ w ∈ [0x05000100#32, 0x05800000#32], (w.extractLsb' 24 8).toNat = 5 ∧ w.extractLsb' 8 16 ≠ 0#16 := by
  simp only [List.mem_cons, List.not_mem_nil, or_false, forall_eq_or_imp, forall_eq]
  decide +kernel

theorem test_witness_InternalIdsRaise : testConfigured.fault = false := by decide +kernel

theorem test_witness_IllegalOpcodesRaise : State.reset.fault = false := by decide +kernel

/-- A RESET, the last implemented register, the first reserved one, and a SAMPLES with its payload. -/
theorem test_witness_FaultGate :
    testFaulted.fault = true
    ∧ payloadLength 0x04000000#32 ≤ ([] : List Word).length
    ∧ (payloadLength 0x0500001C#32 ≤ ([] : List Word).length ∧ 0x0500001C#32 ≠ (0x04000000#32 : Word)
        ∧ ((0x0500001C#32 : Word).extractLsb' 0 8).toNat ≤ 0x1C)
    ∧ (payloadLength 0x0500001D#32 ≤ ([] : List Word).length ∧ ¬((0x0500001D#32 : Word).extractLsb' 0 8).toNat ≤ 0x1C)
    ∧ payloadLength 0x02000001#32 ≤ [0#32, 0#32, 0#32].length := by decide +kernel

/-- Each of the seven codes is the first that applies to some command, and none applies to another. -/
theorem test_witness_FaultPriority :
    ([(Instr.illegal06 0#25, State.reset), (.optimize 0#24, State.reset), (.flush 1#24, State.reset),
        (.samples 0#32 0#32 [0x7FC00000#32], State.reset), (.configure 0#24 0x40800000#32, State.reset),
        (.samples 0#32 0#32 [0x49800001#32], testConfigured), (.readReg 0#16 0x1D#8, State.reset),
        (.readReg 0#16 0x1C#8, State.reset)].map
      fun e => (e.2.fault, e.1.wellFormed, firstFault (commandWord e.1) (payloadOf e.1) e.2))
    = [(false, true, some 1#8), (false, true, some 2#8), (false, true, some 3#8), (false, true, some 4#8),
        (false, true, some 5#8), (false, true, some 6#8), (false, true, some 7#8), (false, true, none)]
    ∧ testFaulted.fault = true := by decide +kernel

/-- A command that keeps the fault state, one that enters it, and RESET. -/
theorem test_witness_FaultStateWriters :
    (onNext (exec (.flush 0#24) testConfigured) (·.fault) = some false)
    ∧ onNext (exec (.flush 1#24) testConfigured) (·.faultCode) = some 3#8
    ∧ onNext (exec (.reset 0#24) testFaulted) (·.fault) = some false := by decide +kernel

theorem test_witness_ResetResult :
    (1#24 : Operand) ≠ 0#24 ∧ testConfigured.fault = false ∧ testFaulted.fault = true := by decide +kernel

/-- The ends of the accepted range of SPS, the values next to them, a NaN and a rate of 0. -/
theorem test_witness_ConfigureResult :
    State.reset.fault = false
    ∧ (∀ sps ∈ [0x40000000#32, 0x42000000#32], (1#24 : Operand) ≠ 0#24 ∧ F32.isFinite sps = true
        ∧ 2 ≤ F32.value sps ∧ F32.value sps ≤ 32)
    ∧ F32.value 0x3FFFFFFF#32 < 2 ∧ 32 < F32.value 0x42000001#32 ∧ F32.isFinite 0x7FC00000#32 = false := by
  simp only [List.mem_cons, List.not_mem_nil, or_false, forall_eq_or_imp, forall_eq]
  decide +kernel

theorem test_witness_ReadRegResult :
    (0x1C#8 : BitVec 8).toNat ≤ 0x1C ∧ 0x1C < (0x1D#8 : BitVec 8).toNat ∧ 0x1C < (0xFF#8 : BitVec 8).toNat
    ∧ (1#16 : BitVec 16) ≠ 0#16 ∧ testConfigured.fault = false := by decide +kernel

theorem test_witness_FlushResult :
    (1#24 : Operand) ≠ 0#24 ∧ State.reset.fault = false ∧ State.reset.configured = false
    ∧ (testConfigured.fault = false ∧ testConfigured.configured = true ∧ testConfigured.framerState = .idle)
    ∧ testAssembling.fault = false ∧ testAssembling.configured = true ∧ testAssembling.framerState = .assembling := by
  decide +kernel

/-- The largest accepted sample and the smallest refused one; an unconfigured block. -/
theorem test_witness_SamplesSteps :
    State.reset.fault = false ∧ State.reset.configured = false
    ∧ testConfigured.fault = false ∧ testConfigured.configured = true
    ∧ (∃ v ∈ [0#32, 0x49800001#32], acceptedSample v = false)
    ∧ ∀ v ∈ [0x49800000#32, 0xC9800000#32, 0x80000000#32], acceptedSample v = true := by
  simp only [List.mem_cons, List.not_mem_nil, or_false, forall_eq_or_imp, forall_eq, exists_eq_or_imp, exists_eq_left]
  decide +kernel

/-- A block that takes `r` to its largest value. -/
theorem test_witness_SamplesHistory :
    let s : State := { testConfigured with r := 0xFFFFFFFFFFFFFFFE#64, p := 0xFFFFFFFFFFFFFFFE#64, smp := [(3, 1#32)] }
    s.fault = false ∧ s.configured = true ∧ (∀ v ∈ [0x3F000000#32], acceptedSample v = true)
      ∧ Memory.wf binary32 s.smp = true ∧ s.r.toNat + [0x3F000000#32].length < 2 ^ 64 := by
  simp only [List.mem_cons, List.not_mem_nil, or_false, forall_eq]
  decide +kernel

/-- A block of samples just long enough for one to have its look-ahead, and one that is not. -/
theorem test_witness_SamplesProgress :
    testConfigured.fault = false ∧ testConfigured.configured = true ∧ acceptedSps testConfigured.sps = true
    ∧ testConfigured.p.toNat ≤ testConfigured.r.toNat
    ∧ (List.replicate 7 0x3F000000#32).all acceptedSample = true
    ∧ testConfigured.r.toNat + 7 < 2 ^ 64
    ∧ ((0 : Int) + (⌈F32.value testConfigured.sps⌉ + 2) < ((7#64 : BitVec 64).toNat : Int)
        ∧ ¬(0 : Int) + (⌈F32.value testConfigured.sps⌉ + 2) < ((6#64 : BitVec 64).toNat : Int))
    ∧ onNext (exec (.samples 0#32 0#32 (List.replicate 7 0x3F000000#32)) testConfigured) (·.p) = some 1#64
    ∧ onNext (exec (.samples 0#32 0#32 (List.replicate 6 0x3F000000#32)) testConfigured) (·.p) = some 0#64 := by
  decide +kernel

theorem test_witness_SamplesValidated :
    testConfigured.fault = false ∧ testConfigured.configured = true
    ∧ F32.isFinite 0x7F800000#32 = false ∧ (2 : ℚ) ^ 20 < |F32.value 0xC9800001#32|
    ∧ ∀ v ∈ [0x49800000#32, 0xC9800000#32, 0x00000001#32],
      F32.isFinite v = true ∧ |F32.value v| ≤ (2 : ℚ) ^ 20 := by
  simp only [List.mem_cons, List.not_mem_nil, or_false, forall_eq_or_imp, forall_eq]
  decide +kernel

/-- The largest finite value and half a unit of its last place below the bound: the sum is 2^128 - 2^104 + 2^102. -/
theorem test_witness_AddMulRounded :
    F32.isFinite 0x7F7FFFFF#32 = true ∧ F32.isFinite 0x72800000#32 = true ∧ F32.isFinite 0x3F800000#32 = true
    ∧ |(F32.value 0x7F7FFFFF#32 : ℝ) + (F32.value 0x72800000#32 : ℝ)| < 2 ^ 128 - 2 ^ 103
    ∧ |(F32.value 0x7F7FFFFF#32 : ℝ) - (F32.value 0x72800000#32 : ℝ)| < 2 ^ 128 - 2 ^ 103
    ∧ |(F32.value 0x7F7FFFFF#32 : ℝ) * (F32.value 0x3F800000#32 : ℝ)| < 2 ^ 128 - 2 ^ 103 := by
  have a : F32.value 0x7F7FFFFF#32 = 2 ^ 128 - 2 ^ 104 := by decide +kernel
  have b : F32.value 0x72800000#32 = 2 ^ 102 := by decide +kernel
  have c : F32.value 0x3F800000#32 = 1 := by decide +kernel
  refine ⟨by decide +kernel, by decide +kernel, by decide +kernel, ?_, ?_, ?_⟩ <;> simp only [a, b, c] <;>
    push_cast <;> rw [abs_of_pos] <;> norm_num

/-- The largest finite value divided by 1.0. -/
theorem test_witness_DivSqrtRounded :
    F32.isFinite 0x7F7FFFFF#32 = true ∧ F32.isFinite 0x3F800000#32 = true ∧ F32.value 0x3F800000#32 ≠ 0
    ∧ |(F32.value 0x7F7FFFFF#32 : ℝ) / (F32.value 0x3F800000#32 : ℝ)| < 2 ^ 128 - 2 ^ 103
    ∧ 0 ≤ F32.value 0x3F800000#32 := by
  have a : F32.value 0x7F7FFFFF#32 = 2 ^ 128 - 2 ^ 104 := by decide +kernel
  have c : F32.value 0x3F800000#32 = 1 := by decide +kernel
  refine ⟨by decide +kernel, by decide +kernel, by decide +kernel, ?_, by decide +kernel⟩
  simp only [a, c]
  push_cast
  rw [abs_of_pos] <;> norm_num

theorem test_witness_CompareFloorExact :
    F32.isFinite 0xBF000000#32 = true ∧ F32.floor 0xBF000000#32 = -1 ∧ (-16777216 : Int).natAbs ≤ 2 ^ 24 := by
  decide +kernel

theorem test_witness_GainLimitsOrdered :
    acceptedSps 0x40000000#32 = true ∧ acceptedSps 0x42000000#32 = true := by decide +kernel

theorem test_witness_UnwrapOneTurn : |Real.pi| ≤ Real.pi ∧ |3 * Real.pi| ≤ 3 * Real.pi := by
  have := Real.pi_pos
  constructor <;> rw [abs_of_pos] <;> linarith

theorem test_witness_EqSymbolInterpolates : (2 : ℝ) = ((⌊(2 : ℝ)⌋ : Int) : ℝ) := by norm_num

/-- The last and first pattern of each region, each finite. -/
theorem test_witness_DibitQuadrants :
    ∀ v ∈ [0x00000000#32, 0x3FC90FDB#32, 0x3FC90FDC#32, 0x7F7FFFFF#32, 0x80000000#32, 0x80000001#32, 0xBFC90FDB#32,
      0xBFC90FDC#32, 0xFF7FFFFF#32], F32.isFinite v = true := by
  simp only [List.mem_cons, List.not_mem_nil, or_false, forall_eq_or_imp, forall_eq]
  decide +kernel

theorem test_witness_HardErrorsCount :
    testConfigured.hardHist.length = testConfigured.params.syncPattern.length := by decide +kernel

theorem test_witness_SoftScoreAccumulates : [0x3F800000#32].length = ([1#2] : List Dibit).length := by decide +kernel

theorem test_witness_StddevPopulation : ([1, 1] : List ℝ) ≠ [] ∧ ∀ v ∈ ([1, 1] : List ℝ), v = 1 := by simp

/-- Two symbols 1 and 3 against 00 and 00 spread about their mean error 2 - π/4; two symbols 1 against 00 and 10, whose ideal
phases cancel, do not. -/
theorem test_witness_MeasureCancels :
    (4 : ℝ) ≠ 0 ∧ ([0#2, 0#2] : List Dibit) ≠ [] ∧ ([1, 3] : List ℝ).length = ([0#2, 0#2] : List Dibit).length
    ∧ (let mean := (([1, 3] : List ℝ).sum - (([0#2, 0#2] : List Dibit).map (idealPhase realNumerics)).sum) / 2;
      0 < (([1, 3] : List ℝ).map fun v => |v - mean|).sum)
    ∧ (let mean := (([1, 1] : List ℝ).sum - (([0#2, 2#2] : List Dibit).map (idealPhase realNumerics)).sum) / 2;
      (([1, 1] : List ℝ).map fun v => |v - mean|).sum = 0) := by
  refine ⟨by norm_num, by simp, rfl, ?_, ?_⟩
  · simp only [List.map_cons, List.map_nil, List.sum_cons, List.sum_nil, idealPhase, realNumerics, realConst]
    norm_num
    rw [show (3 : ℝ) - (4 - (Real.pi / 4 + Real.pi / 4)) / 2 = 1 + Real.pi / 4 by ring]
    have := abs_nonneg (1 - (4 - (Real.pi / 4 + Real.pi / 4)) / 2)
    rw [abs_of_pos (by positivity : 0 < 1 + Real.pi / 4)]
    positivity
  · simp [idealPhase, realNumerics, realConst]

theorem test_witness_SearchInWindow :
    let c : Search ℝ := ⟨0, 0, 1⟩
    |c.off| ≤ 1 ∧ 0 < c.step ∧ c.score = (fun x : ℝ => -x * x) c.off := by norm_num

theorem test_witness_SearchEnds :
    F32.isFinite (⟨0#32, 0#32, 0x3E800000#32⟩ : Search F32).step = true ∧ F32.lt 0x00000000#32 0x3D800000#32 = true := by
  decide +kernel

/-- A block with a pattern of one dibit, whose constant signal is far above the threshold, no search and no noise. -/
def testDetecting : State :=
  { State.histAppendAll words32 (List.replicate 12 0x41200000#32) testConfigured with
    params := { Params.examples with syncPattern := [1#2], minStep := 0x41200000#32, syncHoldoff := 1 }
    softHist := [0x42200000#32], lagHist := [0#32], hardHist := [0#2], symbolsSinceSync := 1#32 }

/-- The same block with samples that alternate between 0 and 10. -/
def testNoisy : State :=
  { State.histAppendAll words32 (List.replicate 6 [0#32, 0x41200000#32]).flatten testConfigured with
    params := testDetecting.params
    softHist := [0x42200000#32], lagHist := [0#32], hardHist := [0#2], symbolsSinceSync := 1#32 }

/-- OPTIMIZE answers a valid Correction; and the two samples that it reads at n = 5 are noisier than allowed. -/
theorem test_witness_OptimizeValid :
    (opOptimize words32 [1#2] 0#32 0#32 5 0#32 testDetecting).isSome = true
    ∧ F32.lt testNoisy.params.noiseStddevMax
        (stddev binary32 ((List.range 2).map fun j => testNoisy.sampleAt words32 (5 + (j : Int)))).1 = true
    ∧ (opOptimize words32 [1#2] 0#32 0#32 5 0#32 testNoisy).isSome = false := by decide +kernel

set_option maxRecDepth 4000 in
theorem test_witness_PrebiasCases :
    (testConfigured.prebiasDone = false ∧ (List.replicate 399 0#32).length < 400 ∧ 400 ≤ (List.replicate 400 0#32).length)
    ∧ testConfigured.synchronized = false
    ∧ F32.le (stddev binary32 ((List.replicate 400 0#32).take 400)).1 testConfigured.params.prebiasNoiseMax = true
    ∧ F32.le (stddev binary32 (((List.replicate 200 0#32) ++ List.replicate 200 0x41200000#32).take 400)).1
        testConfigured.params.prebiasNoiseMax = false
    ∧ ({ testConfigured with prebiasDone := true } : State).prebiasDone = true := by decide +kernel

/-- The sample point 2.0 goes to 1.0, which takes no symbol; the next pattern below 2.0 takes one. -/
theorem test_witness_SampleStepCases :
    F32.lt (F32.sub 0x40000000#32 0x3F800000#32) 0x3F800000#32 = false
    ∧ F32.lt (F32.sub 0x3FFFFFFF#32 0x3F800000#32) 0x3F800000#32 = true := by decide +kernel

theorem test_witness_SymbolStepResult :
    ({ testConfigured with params := { Params.examples with softOutEnable := true } } : State).params.softOutEnable
      = true := by decide +kernel

/-- No nudge allowed; a flat slope; a slope that is not flat with a nudge allowed. -/
theorem test_witness_TimingNudgeSign :
    F32.eq testConfigured.params.nudgeMax 0#32 = true
    ∧ (let s : State := { testSamples [0#32, 0x3DCCCCCD#32, 0x3DCCCCCD#32] with
          params := { Params.examples with nudgeMax := 0x3D4CCCCD#32 } }
        let e := fun j => unwrap binary32 (opEqualize words32 (s.sampleAt words32 j) s)
        F32.eq s.params.nudgeMax 0#32 = false ∧ F32.eq (F32.sub (e 1) (e 0)) 0#32 = false
          ∧ F32.eq (F32.sub (e 2) (e 1)) 0#32 = true) := by decide +kernel

/-- The hold-off one symbol before its end, and scores that do not exceed the threshold. -/
theorem test_witness_SyncCheckResult :
    ({ testConfigured with symbolsSinceSync := 9#32 } : State).symbolsSinceSync.toNat
      < testConfigured.params.syncHoldoff
    ∧ F32.lt 0x42200000#32 (softScore binary32 testConfigured.softHist testConfigured.params.syncPattern) = false
    ∧ F32.lt 0x42200000#32 (softScore binary32 testConfigured.lagHist testConfigured.params.syncPattern) = false := by
  decide +kernel

/-- A valid first detector; and one that fires, is invalid, and is counted. -/
theorem test_witness_FirstValidDetector :
    (tryDetectors words32 5 0#32 (detectors words32 (updateScores words32 testDetecting)) (updateScores words32 testDetecting)).2 = true
    ∧ (tryDetectors words32 5 0#32 (detectors words32 (updateScores words32 testNoisy)) (updateScores words32 testNoisy)).2 = false
    ∧ (tryDetectors words32 5 0#32 (detectors words32 (updateScores words32 testNoisy)) (updateScores words32 testNoisy)).1.invalidCount = 1#32 := by
  decide +kernel

theorem test_witness_RecordingDelayed :
    testConfigured.params.recordEnable = false
    ∧ (let s : State := { testConfigured with params := { Params.examples with recordEnable := true } }
      s.params.recordEnable = true ∧ s.delayFifo = [] ∧ s.pack = []) := by decide +kernel

/-- IDLE, a full assembler, one with room for more than a dibit, and one with room for just one. -/
theorem test_witness_FramerTransitions :
    testConfigured.framerState = .idle ∧ testAssembling.framerState = .assembling
    ∧ testAssembling.params.frameBits ≤ (List.replicate 8 true).length
    ∧ (testAssembling.asmBits.length < testAssembling.params.frameBits
        ∧ testAssembling.asmBits.length + 2 ≠ testAssembling.params.frameBits)
    ∧ (List.replicate 6 true).length + 2 = testAssembling.params.frameBits := by decide +kernel

theorem test_witness_FrameTimestamp : testConfigured.symbolRate ≠ 0#32 := by decide +kernel

/-- The first and the last bit of the one word that a single bit needs. -/
theorem test_witness_FrameBitPacking :
    0 < 32 * ((([true] : List Bool).length + 31) / 32) ∧ 31 < 32 * ((([true] : List Bool).length + 31) / 32)
    ∧ ([true] : List Bool).length < 2 ^ 23 := by decide

theorem test_witness_FramesPerSync :
    testConfigured.params.legal = true ∧ testConfigured.framerState = .idle ∧ testConfigured.asmBits = [] := by
  decide +kernel

/-- The first sample, and the last index before `r` would wrap. -/
theorem test_witness_HistoryReads :
    Memory.wf binary32 testConfigured.smp = true ∧ testConfigured.r.toNat + 1 < 2 ^ 64
    ∧ (0xFFFFFFFFFFFFFFFE#64 : BitVec 64).toNat + 1 < 2 ^ 64
    ∧ (-1 : Int) < 0 ∧ (0 : Int) ≤ 0 ∧ (0 : Int) < ((0xFFFFFFFFFFFFFFFE#64 : BitVec 64).toNat : Int) := by decide +kernel

theorem test_witness_PowerOnKept : Params.examples.legal = true := by decide +kernel

/-- A configured block with a frame in progress meets the bookkeeping invariant. -/
theorem test_witness_StepKeepsBookkeeping :
    testAssembling.Kept ∧ onNext (stepOn testAssembling [0x03000000#32]) (·.framerState) = some .idle := by
  refine ⟨?_, by decide +kernel⟩
  constructor <;> decide +kernel

/-- A block that holds a sample meets the history invariant, and its next SAMPLES takes one more. -/
theorem test_witness_StepKeepsHistory :
    (testSamples [0x3F000000#32]).Kept ∧ (testSamples [0x3F000000#32]).HistoryKept
    ∧ (testSamples [0x3F000000#32]).r.toNat + 2 ^ 24 < 2 ^ 64
    ∧ onNext (stepOn (testSamples [0x3F000000#32]) [0x02000001#32, 0#32, 0#32, 0x3F000000#32]) (·.r)
      = some 2#64 := by
  refine ⟨?_, ?_, by decide +kernel, by decide +kernel⟩
  · constructor <;> decide +kernel
  · refine ⟨?_, by decide +kernel⟩
    have e : (testSamples [0x3F000000#32]).smp = [(0, 0x3F000000#32)] := by decide +kernel
    rw [e]
    intro cell h
    rw [List.mem_singleton] at h
    subst h
    decide +kernel

/-- A configured block is within its clamps, and so is one over the reals with its limits at 5, 6 and 7. -/
theorem test_witness_StepKeepsClamps :
    testConfigured.BalanceKept ∧ testConfigured.GainKept
    ∧ (let b : RealState :=
        { State.initial 0 Params.examples with configured := true, gainMin := 5, gainInitial := 6, gainMax := 7, gain := 6 }
      RealState.BalanceKept b ∧ b.configured = true ∧ RealState.GainKept b) := by
  have := Real.pi_pos
  refine ⟨⟨by decide +kernel, by decide +kernel⟩, fun _ => ⟨?_, ?_, ?_, ?_⟩, ⟨?_, ?_⟩, rfl,
    fun _ => ⟨?_, ?_, ?_, ?_⟩⟩
  · decide +kernel
  · decide +kernel
  · decide +kernel
  · decide +kernel
  all_goals simp only [State.initial]; linarith

theorem test_witness_SetupWriters :
    onNext (exec (.configure 0xFFFFFF#24 0x42000000#32) State.reset) (·.symbolRate) = some 0x00FFFFFF#32
    ∧ onNext (exec (.flush 0#24) testConfigured) (·.sps) = some 0x40800000#32 := by decide +kernel

theorem test_witness_InternalOpsFrame :
    let op : InternalOp F32 := .eqReset
    op.id ≠ 0x83#8 ∧ op.id ≠ 0x9B#8 ∧ op.id ≠ 0x8F#8 ∧ (InternalOp.hardErrors : InternalOp F32).id = 0x8A#8 := by
  decide +kernel

/-! ### The block over the real numbers (R8, NUMERICS = REAL) -/

/-- CONFIGURE at SPS 4.0 over the reals (R153, R291): the sample point is 4 and the gain 5.7 × 4.0 / 5.208, with no rounding;
SPS is read back as that number. -/
theorem test_real_configure :
    let b := runCommand reals (.configure 4800#24 0x40800000#32) (State.initial 0 Params.examples)
    b.configured = true ∧ b.samplePoint = 4 ∧ b.gain = 5.7 * (4 / 5.208)
      ∧ regValue reals 0x01#8 b = some (.inr 4) := by
  have value : F32.value 0x40800000#32 = 4 := by decide +kernel
  have number : numberOfWord reals 0x40800000#32 = (4 : ℝ) := by simp [numberOfWord, reals, value]
  have valid : configurationValid reals 4800#24 0x40800000#32 = true := by
    have finite : F32.isFinite 0x40800000#32 = true := by decide +kernel
    simp only [configurationValid, finite, number, reals_num, Bool.and_eq_true, Bool.not_eq_true',
      realNumerics_not_lt, realNumerics_const, realConst]
    exact ⟨⟨⟨by decide, trivial⟩, by norm_num⟩, by norm_num⟩
  have e : runCommand reals (.configure 4800#24 0x40800000#32) (State.initial 0 Params.examples)
      = configureEffect reals 4800#24 4 (State.initial 0 Params.examples) := by
    simp [runCommand, runConfigure, faultGate, State.initial, configureCommand, valid, number]
  rw [e]
  exact ⟨rfl, rfl, rfl, rfl⟩

/-- SAMPLE_STEP over the reals (R221): the sample point 7/2 goes to 5/2, exactly, and no symbol is taken. -/
theorem test_real_sampleStep :
    (opSampleStep reals 0 { (State.initial 0 Params.examples : RealState) with samplePoint := 7 / 2 }).samplePoint = 5 / 2 := by
  simp only [opSampleStep, reals_num, realNumerics_lt, realNumerics_sub, realNumerics_const, realConst]
  rw [if_neg (by norm_num)]
  norm_num

end Sys2Proof.Machine
end

section
/-! The number that a binary32 pattern stands for (R7, R10): its fields as arithmetic on the pattern, its place among the
integer multiples of the least subnormal, and the order of the numbers as the order of the keys. -/

namespace Sys2Proof.Machine

/-! ### The fields as arithmetic -/

theorem F32.sign_eq (v : F32) : F32.sign v = decide (2 ^ 31 ≤ v.toNat) := by
  have := v.isLt
  rw [F32.sign, BitVec.getLsbD, Nat.testBit_eq_decide_div_mod_eq, decide_eq_decide]
  omega

theorem F32.expField_eq (v : F32) : F32.expField v = v.toNat / 2 ^ 23 % 2 ^ 8 := by
  simp [F32.expField, BitVec.extractLsb'_toNat, Nat.shiftRight_eq_div_pow]

theorem F32.fracField_eq (v : F32) : F32.fracField v = v.toNat % 2 ^ 23 := by
  simp [F32.fracField, BitVec.extractLsb'_toNat]

theorem F32.abs_toNat (v : F32) : (F32.abs v).toNat = v.toNat % 2 ^ 31 := by
  rw [F32.abs, BitVec.toNat_and, show (0x7FFFFFFF#32).toNat = 2 ^ 31 - 1 by decide, Nat.and_two_pow_sub_one_eq_mod]

@[simp] theorem F32.sign_neg (v : F32) : F32.sign (F32.neg v) = !F32.sign v := by
  simp [F32.sign, F32.neg]

@[simp] theorem F32.expField_neg (v : F32) : F32.expField (F32.neg v) = F32.expField v := by
  simp [F32.expField, F32.neg, BitVec.extractLsb'_xor]

@[simp] theorem F32.fracField_neg (v : F32) : F32.fracField (F32.neg v) = F32.fracField v := by
  simp [F32.fracField, F32.neg, BitVec.extractLsb'_xor]

theorem F32.significand_lt (v : F32) : F32.significand v < 2 ^ 24 := by
  have := F32.fracField_eq v
  unfold F32.significand
  split <;> omega

theorem F32.isFinite_iff (v : F32) : F32.isFinite v = true ↔ F32.expField v ≠ 255 := by simp [F32.isFinite]

theorem F32.not_isNaN_of_isFinite {v : F32} (h : F32.isFinite v = true) : F32.isNaN v = false := by
  rw [F32.isFinite_iff] at h
  simp [F32.isNaN, h]

theorem F32.not_isInf_of_isFinite {v : F32} (h : F32.isFinite v = true) : F32.isInf v = false := by
  rw [F32.isFinite_iff] at h
  simp [F32.isInf, h]

/-! ### Negation -/

theorem F32.significand_neg (v : F32) : F32.significand (F32.neg v) = F32.significand v := by
  simp [F32.significand]

theorem F32.exponent_neg (v : F32) : F32.exponent (F32.neg v) = F32.exponent v := by
  simp [F32.exponent]

theorem F32.isFinite_neg (v : F32) : F32.isFinite (F32.neg v) = F32.isFinite v := by
  simp [F32.isFinite]

theorem F32.signedSignificand_neg (v : F32) : F32.signedSignificand (F32.neg v) = -F32.signedSignificand v := by
  unfold F32.signedSignificand
  rw [F32.sign_neg, F32.significand_neg]
  cases F32.sign v <;> simp

theorem F32.value_neg (v : F32) : F32.value (F32.neg v) = -F32.value v := by
  rw [F32.value, F32.value, F32.signedSignificand_neg, F32.exponent_neg]
  push_cast
  ring

/-! ### A value as an integer times its last place -/

theorem F32.neg_149_le_exponent (v : F32) : -149 ≤ F32.exponent v := by
  unfold F32.exponent
  omega

theorem F32.natAbs_signedSignificand (v : F32) : (F32.signedSignificand v).natAbs = F32.significand v := by
  unfold F32.signedSignificand
  split <;> simp

/-- A value is 0 only where its significand is. -/
theorem F32.value_eq_zero_iff (v : F32) : F32.value v = 0 ↔ F32.significand v = 0 := by
  rw [F32.value, mul_eq_zero_iff_right (zpow_ne_zero _ two_ne_zero), Int.cast_eq_zero,
    ← F32.natAbs_signedSignificand, Int.natAbs_eq_zero]

theorem F32.isZero_iff (v : F32) : F32.isZero v = true ↔ F32.value v = 0 := by
  rw [F32.value_eq_zero_iff, F32.isZero, decide_eq_true_iff, F32.significand]
  split <;> omega

/-- The sign as a factor, -1 or 1. -/
def F32.signFactor (sign : Bool) : ℝ := if sign then -1 else 1

@[simp] theorem F32.signFactor_false : F32.signFactor false = 1 := rfl
@[simp] theorem F32.signFactor_true : F32.signFactor true = -1 := rfl

@[simp] theorem F32.abs_signFactor (sign : Bool) : |F32.signFactor sign| = 1 := by cases sign <;> simp

/-- The magnitude that a sign is taken from. -/
theorem F32.abs_signFactor_mul {sign : Bool} {y : ℝ} (nonneg : 0 ≤ y) : |F32.signFactor sign * y| = y := by
  rw [abs_mul, F32.abs_signFactor, one_mul, abs_of_nonneg nonneg]

theorem F32.signFactor_mul_natAbs (z : Int) : F32.signFactor (decide (z < 0)) * (z.natAbs : ℝ) = z := by
  rcases lt_or_ge z 0 with neg | nonneg
  · rw [decide_eq_true neg, F32.signFactor_true, Nat.cast_natAbs, abs_of_neg neg]
    simp
  · rw [decide_eq_false (not_lt.2 nonneg), F32.signFactor_false, Nat.cast_natAbs, abs_of_nonneg nonneg, one_mul]

theorem F32.signFactor_bne (a b : Bool) : F32.signFactor (a != b) = F32.signFactor a * F32.signFactor b := by
  cases a <;> cases b <;> simp

theorem F32.coe_signedSignificand (v : F32) :
    (F32.signedSignificand v : ℝ) = F32.signFactor (F32.sign v) * F32.significand v := by
  unfold F32.signedSignificand
  cases F32.sign v <;> simp

/-- The value as a real number, its sign a factor. -/
theorem F32.coe_value (v : F32) :
    (F32.value v : ℝ) = F32.signFactor (F32.sign v) * (F32.significand v * (2 : ℝ) ^ F32.exponent v) := by
  rw [F32.value, Rat.cast_mul, Rat.cast_intCast, F32.coe_signedSignificand, mul_assoc]
  norm_num

/-- A value at an exponent at or below its own. -/
theorem F32.coe_value_at {v : F32} {q : Int} (h : q ≤ F32.exponent v) :
    (F32.value v : ℝ) = ((F32.signedSignificand v * 2 ^ (F32.exponent v - q).toNat : Int) : ℝ) * (2 : ℝ) ^ q := by
  obtain ⟨n, hn⟩ := Int.eq_ofNat_of_zero_le (Int.sub_nonneg.2 h)
  rw [F32.value, hn, Int.toNat_natCast, show F32.exponent v = n + q by omega]
  push_cast
  rw [zpow_add₀ two_ne_zero, zpow_natCast, mul_assoc]

/-- Every finite value is below 2^128 in magnitude. -/
theorem F32.abs_value_lt {v : F32} (h : F32.isFinite v = true) : |(F32.value v : ℝ)| < 2 ^ 128 := by
  have field : F32.expField v ≤ 254 := by
    have := F32.expField_eq v
    have := (F32.isFinite_iff v).1 h
    omega
  have sig : (F32.significand v : ℝ) < 2 ^ 24 := by exact_mod_cast F32.significand_lt v
  have exp : (2 : ℝ) ^ F32.exponent v ≤ 2 ^ (104 : Int) :=
    zpow_le_zpow_right₀ one_le_two (by unfold F32.exponent; omega)
  calc |(F32.value v : ℝ)| = F32.significand v * (2 : ℝ) ^ F32.exponent v := by
        rw [F32.coe_value, F32.abs_signFactor_mul (by positivity)]
    _ < 2 ^ 24 * (2 : ℝ) ^ (104 : Int) := mul_lt_mul sig exp (by positivity) (by positivity)
    _ = 2 ^ 128 := by norm_cast

theorem F32.sign_of_pos {v : F32} (h : 0 < F32.value v) : F32.sign v = false := by
  rw [Bool.eq_false_iff]
  intro negative
  have value : (0 : ℝ) < F32.value v := by exact_mod_cast h
  rw [F32.coe_value, negative, F32.signFactor_true, neg_one_mul, neg_pos] at value
  exact absurd value (not_lt.2 (by positivity))

/-! ### The order of the values -/

/-- The number of a magnitude pattern (exponent and fraction fields as one number) in units of 2^-149. -/
def F32.units (n : Nat) : Nat := if n < 2 ^ 23 then n else (n % 2 ^ 23 + 2 ^ 23) * 2 ^ (n / 2 ^ 23 - 1)

theorem F32.units_lt_succ (n : Nat) : F32.units n < F32.units (n + 1) := by
  unfold F32.units
  by_cases small : n + 1 < 2 ^ 23
  · simp only [show n < 2 ^ 23 by omega, small, if_true]
    omega
  by_cases carry : (n + 1) % 2 ^ 23 = 0
  · by_cases first : n < 2 ^ 23
    · simp [show n = 2 ^ 23 - 1 by omega]
    · have fraction : n % 2 ^ 23 = 2 ^ 23 - 1 := by omega
      have field : (n + 1) / 2 ^ 23 - 1 = n / 2 ^ 23 - 1 + 1 := by omega
      have := Nat.two_pow_pos (n / 2 ^ 23 - 1)
      rw [if_neg first, if_neg small, carry, fraction, field, pow_succ 2 (n / 2 ^ 23 - 1)]
      omega
  · have fraction : (n + 1) % 2 ^ 23 = n % 2 ^ 23 + 1 := by omega
    have field : (n + 1) / 2 ^ 23 = n / 2 ^ 23 := by omega
    have := Nat.two_pow_pos (n / 2 ^ 23 - 1)
    simp only [show ¬n < 2 ^ 23 by omega, small, if_false, fraction, field]
    nlinarith

theorem F32.units_strictMono : StrictMono F32.units := strictMono_nat_of_lt_succ F32.units_lt_succ

/-- The significand at its exponent, counted in units of 2^-149. -/
theorem F32.units_magnitude (v : F32) :
    (F32.units (v.toNat % 2 ^ 31) : ℝ) = F32.significand v * (2 : ℝ) ^ (F32.exponent v + 149) := by
  have exp : F32.exponent v + 149 = ((max (F32.expField v) 1 - 1 : Nat) : Int) := by
    unfold F32.exponent
    omega
  have field := F32.expField_eq v
  have fraction := F32.fracField_eq v
  rw [exp, zpow_natCast, F32.units, F32.significand]
  by_cases subnormal : F32.expField v = 0
  · rw [if_pos (by omega), if_pos subnormal, subnormal, show v.toNat % 2 ^ 31 = F32.fracField v by omega]
    simp
  · rw [if_neg (by omega), if_neg subnormal, show v.toNat % 2 ^ 31 % 2 ^ 23 = F32.fracField v by omega,
      show v.toNat % 2 ^ 31 / 2 ^ 23 - 1 = max (F32.expField v) 1 - 1 by omega]
    push_cast
    rfl

/-- The number of a key in units of 2^-149: odd, as the keys of the two signs are opposite. -/
def F32.signedUnits (k : Int) : Int := if k < 0 then -(F32.units k.natAbs : Int) else F32.units k.natAbs

theorem F32.signedUnits_strictMono : StrictMono F32.signedUnits := by
  intro a b h
  unfold F32.signedUnits
  have mono := F32.units_strictMono
  by_cases hb : b < 0
  · have := mono (show b.natAbs < a.natAbs by omega)
    rw [if_pos (by omega), if_pos hb]
    omega
  by_cases ha : a < 0
  · have := mono (show 0 < a.natAbs by omega)
    rw [if_pos ha, if_neg hb]
    omega
  · have := mono (show a.natAbs < b.natAbs by omega)
    rw [if_neg ha, if_neg hb]
    omega

/-- The value counts units of 2^-149, as many as the magnitude pattern says. -/
theorem F32.coe_value_eq_units (v : F32) :
    (F32.value v : ℝ) = F32.signFactor (F32.sign v) * F32.units (v.toNat % 2 ^ 31) * (2 : ℝ) ^ (-149 : Int) := by
  rw [F32.coe_value, F32.units_magnitude, mul_assoc, mul_assoc, ← zpow_add₀ two_ne_zero, add_neg_cancel_right]

/-- The value of a pattern is its key's number of units. -/
theorem F32.coe_value_eq_signedUnits (v : F32) :
    (F32.value v : ℝ) = F32.signedUnits (F32.key v) * (2 : ℝ) ^ (-149 : Int) := by
  have zero : F32.units 0 = 0 := rfl
  rw [F32.coe_value_eq_units]
  congr 1
  simp only [F32.key, F32.abs_toNat, F32.signedUnits]
  generalize v.toNat % 2 ^ 31 = n
  cases F32.sign v
  · simp
  · rcases Nat.eq_zero_or_pos n with rfl | pos
    · simp [zero]
    · simp [pos]

/-- The order of the values is the order of the keys. -/
theorem F32.value_lt_iff (a b : F32) : F32.value a < F32.value b ↔ F32.key a < F32.key b := by
  rw [← Rat.cast_lt (K := ℝ), F32.coe_value_eq_signedUnits, F32.coe_value_eq_signedUnits,
    mul_lt_mul_iff_left₀ (by positivity), Int.cast_lt, F32.signedUnits_strictMono.lt_iff_lt]

theorem F32.value_le_iff (a b : F32) : F32.value a ≤ F32.value b ↔ F32.key a ≤ F32.key b := by
  rw [← not_lt, F32.value_lt_iff, not_lt]

theorem F32.value_eq_iff (a b : F32) : F32.value a = F32.value b ↔ F32.key a = F32.key b := by
  rw [le_antisymm_iff, F32.value_le_iff, F32.value_le_iff, le_antisymm_iff]

/-! ### Floor -/

theorem F32.floor_eq {v : F32} (h : F32.isFinite v = true) : F32.floor v = ⌊F32.value v⌋ := by
  rw [F32.floor, if_pos h, F32.value]
  split
  case isTrue nonneg =>
    obtain ⟨n, e⟩ := Int.eq_ofNat_of_zero_le nonneg
    rw [e, Int.toNat_natCast, zpow_natCast]
    exact_mod_cast (Int.floor_intCast _).symm
  case isFalse neg =>
    obtain ⟨n, e⟩ := Int.eq_ofNat_of_zero_le (show 0 ≤ -F32.exponent v by omega)
    rw [show F32.exponent v = -(n : Int) by omega, neg_neg, Int.toNat_natCast, zpow_neg, zpow_natCast, ← div_eq_mul_inv]
    exact_mod_cast (Rat.floor_intCast_div_natCast (F32.signedSignificand v) (2 ^ n)).symm

end Sys2Proof.Machine
end

section
/-! When a pattern is nearest (R8): among the multiples of a last place, half of it decides. -/

namespace Sys2Proof.Machine

/-- Another multiple of `u` than the one within half of `u` is at least half of `u` away. -/
theorem half_le_abs_of_ne {u x : ℝ} {k j : Int} (pos : 0 < u) (half : |k * u - x| ≤ u / 2) (ne : j ≠ k) :
    u / 2 ≤ |j * u - x| := by
  have apart : (1 : ℝ) ≤ |((j - k : Int) : ℝ)| := by
    exact_mod_cast Int.one_le_abs (sub_ne_zero.2 ne)
  have step : u ≤ |(j * u - x) - (k * u - x)| := by
    calc u ≤ |((j - k : Int) : ℝ)| * u := le_mul_of_one_le_left pos.le apart
      _ = |(j * u - x) - (k * u - x)| := by
        rw [← abs_of_pos pos, ← abs_mul, abs_of_pos pos]
        push_cast
        ring_nf
  linarith [abs_sub (j * u - x) (k * u - x)]

/-- A finite value is a multiple of a last place or smaller than what has that last place in 24 bits. -/
theorem F32.multiple_or_small (c : F32) (e : Int) :
    (∃ j : Int, (F32.value c : ℝ) = j * (2 : ℝ) ^ e) ∨ (-149 < e ∧ |(F32.value c : ℝ)| < (2 : ℝ) ^ (e + 23)) := by
  by_cases fine : e ≤ F32.exponent c
  · exact .inl ⟨_, F32.coe_value_at fine⟩
  · right
    have low := F32.neg_149_le_exponent c
    refine ⟨by omega, ?_⟩
    have sig : (F32.significand c : ℝ) < 2 ^ 24 := by exact_mod_cast F32.significand_lt c
    have exp : (2 : ℝ) ^ F32.exponent c ≤ 2 ^ (e - 1) := zpow_le_zpow_right₀ one_le_two (by omega)
    calc |(F32.value c : ℝ)| = F32.significand c * (2 : ℝ) ^ F32.exponent c := by
          rw [F32.coe_value, F32.abs_signFactor_mul (by positivity)]
      _ < 2 ^ 24 * (2 : ℝ) ^ (e - 1) := mul_lt_mul sig exp (by positivity) (by positivity)
      _ = 2 ^ (e + 23) := by
          rw [show e + 23 = ((24 : Nat) : Int) + (e - 1) by push_cast; ring, zpow_add₀ two_ne_zero, zpow_natCast]

/-- What is smaller than `g`, the least magnitude of a last place, is farther from an `x` beyond `g` than `g` or `-g` is. -/
theorem exists_closer_of_small {c x g : ℝ} (small : |c| < g) (large : g ≤ |x|) :
    ∃ i : Int, |i * g - x| < |c - x| := by
  obtain ⟨hl, hr⟩ := abs_lt.1 small
  rcases le_abs.1 large with pos | neg
  · refine ⟨1, ?_⟩
    rw [Int.cast_one, one_mul, abs_of_nonpos (by linarith), abs_of_neg (by linarith)]
    linarith
  · refine ⟨-1, ?_⟩
    rw [Int.cast_neg, Int.cast_one, neg_one_mul, abs_of_nonneg (by linarith), abs_of_pos (by linarith)]
    linarith

/-- A pattern within half of a last place `2 ^ e` of `x` is nearest to it where the patterns as large as `x` have no finer last
place; where it is half a place off it must be even (R8). -/
theorem F32.nearest_of_half_place {v : F32} {x : ℝ} {e k : Int} (finite : F32.isFinite v = true)
    (value : (F32.value v : ℝ) = k * (2 : ℝ) ^ e) (half : |(F32.value v : ℝ) - x| ≤ (2 : ℝ) ^ e / 2)
    (tie : |(F32.value v : ℝ) - x| = (2 : ℝ) ^ e / 2 → F32.significand v % 2 = 0)
    (place : e = -149 ∨ (2 : ℝ) ^ (e + 23) ≤ |x|) : F32.Nearest v x := by
  have pos : (0 : ℝ) < 2 ^ e := by positivity
  have away {j : Int} (ne : j ≠ k) : |(F32.value v : ℝ) - x| ≤ |j * (2 : ℝ) ^ e - x| :=
    half.trans (half_le_abs_of_ne pos (value ▸ half) ne)
  refine ⟨finite, fun c _ => ?_⟩
  rcases F32.multiple_or_small c e with ⟨j, hc⟩ | ⟨coarse, small⟩
  · rw [hc]
    by_cases same : j = k
    · rw [same, ← value]
      refine ⟨le_rfl, fun _ ne => absurd ?_ ne⟩
      exact_mod_cast (hc.trans (same ▸ value.symm) : (F32.value c : ℝ) = F32.value v)
    · exact ⟨away same, fun eq _ => tie (half.antisymm (eq ▸ half_le_abs_of_ne pos (value ▸ half) same))⟩
  · have large : (2 : ℝ) ^ (e + 23) ≤ |x| := place.resolve_left (by omega)
    obtain ⟨i, closer⟩ := exists_closer_of_small small large
    have multiple : (i : ℝ) * (2 : ℝ) ^ (e + 23) = ((i * 2 ^ 23 : Int) : ℝ) * (2 : ℝ) ^ e := by
      rw [zpow_add₀ two_ne_zero, show (23 : Int) = ((23 : Nat) : Int) by rfl, zpow_natCast]
      push_cast
      ring
    have within : |(F32.value v : ℝ) - x| ≤ |i * (2 : ℝ) ^ (e + 23) - x| := by
      rw [multiple]
      by_cases same : i * 2 ^ 23 = k
      · rw [same, value]
      · exact away same
    exact ⟨(within.trans_lt closer).le, fun eq => absurd eq (within.trans_lt closer).ne⟩

/-- A pattern is nearest to its own number. -/
theorem F32.nearest_of_eq {v : F32} {x : ℝ} (finite : F32.isFinite v = true) (value : (F32.value v : ℝ) = x) :
    F32.Nearest v x := by
  refine ⟨finite, fun c _ => ⟨by simp [value], fun eq ne => absurd ?_ ne⟩⟩
  rw [value, sub_self, abs_zero, eq_comm, abs_eq_zero, sub_eq_zero, ← value] at eq
  exact_mod_cast eq

/-- A pattern less than half of its own last place from `x` is nearest to `x`. -/
theorem F32.nearest_of_lt_half {v : F32} {x : ℝ} (finite : F32.isFinite v = true)
    (half : |(F32.value v : ℝ) - x| < (2 : ℝ) ^ F32.exponent v / 2)
    (place : (2 : ℝ) ^ (F32.exponent v + 23) ≤ |x|) : F32.Nearest v x := by
  refine F32.nearest_of_half_place (e := F32.exponent v) (k := F32.signedSignificand v) finite ?_ half.le
    (fun eq => absurd eq half.ne) (.inr place)
  rw [F32.value]
  push_cast
  rfl

end Sys2Proof.Machine
end

section
/-! `F32.round` is correct (R8): it gives the nearest pattern to every magnitude that its arguments describe. -/

namespace Sys2Proof.Machine

/-! ### Patterns by sign and magnitude -/

/-- The pattern of this sign whose exponent and fraction fields are the number `n`. -/
def F32.pattern (sign : Bool) (n : Nat) : F32 := F32.zero sign ||| BitVec.ofNat 32 n

theorem F32.pattern_toNat (sign : Bool) {n : Nat} (h : n < 2 ^ 31) :
    (F32.pattern sign n).toNat = sign.toNat * 2 ^ 31 + n := by
  have zero : (F32.zero sign).toNat = sign.toNat * 2 ^ 31 := by cases sign <;> decide
  rw [F32.pattern, BitVec.toNat_or, zero, BitVec.toNat_ofNat, Nat.mod_eq_of_lt (h.trans (by decide)),
    ← Nat.shiftLeft_eq, Nat.shiftLeft_add_eq_or_of_lt h]

theorem F32.sign_pattern (sign : Bool) {n : Nat} (h : n < 2 ^ 31) : F32.sign (F32.pattern sign n) = sign := by
  rw [F32.sign_eq, F32.pattern_toNat sign h]
  cases sign <;> simp only [Bool.toNat_true, Bool.toNat_false, decide_eq_true_iff, decide_eq_false_iff_not] <;> omega

theorem F32.expField_pattern (sign : Bool) {n : Nat} (h : n < 2 ^ 31) :
    F32.expField (F32.pattern sign n) = n / 2 ^ 23 := by
  rw [F32.expField_eq, F32.pattern_toNat sign h]
  omega

theorem F32.fracField_pattern (sign : Bool) {n : Nat} (h : n < 2 ^ 31) :
    F32.fracField (F32.pattern sign n) = n % 2 ^ 23 := by
  rw [F32.fracField_eq, F32.pattern_toNat sign h]
  omega

theorem F32.isFinite_pattern (sign : Bool) {n : Nat} (h : n < 0x7F800000) : F32.isFinite (F32.pattern sign n) = true := by
  rw [F32.isFinite_iff, F32.expField_pattern sign (by omega)]
  omega

/-- `k` last places at the biased exponent `E`: a subnormal, a normal, or the number after the last of either. -/
structure F32.Normalised (E k : Nat) : Prop where
  upper : k ≤ 2 ^ 24
  lower : E = 0 ∨ 2 ^ 23 ≤ k

theorem F32.units_normalised {E k : Nat} (h : F32.Normalised E k) : F32.units (E * 2 ^ 23 + k) = k * 2 ^ E := by
  obtain ⟨upper, lower⟩ := h
  unfold F32.units
  by_cases subnormal : E * 2 ^ 23 + k < 2 ^ 23
  · rw [if_pos subnormal, show E = 0 by omega]
    simp
  rw [if_neg subnormal]
  rcases upper.eq_or_lt with rfl | normal
  · rw [show (E * 2 ^ 23 + 2 ^ 24) % 2 ^ 23 = 0 by omega, show (E * 2 ^ 23 + 2 ^ 24) / 2 ^ 23 - 1 = E + 1 by omega,
      pow_succ 2 E]
    ring
  · rw [show (E * 2 ^ 23 + k) % 2 ^ 23 + 2 ^ 23 = k by omega, show (E * 2 ^ 23 + k) / 2 ^ 23 - 1 = E by omega]

theorem F32.coe_value_pattern (sign : Bool) {E k : Nat} (h : F32.Normalised E k) (n : E * 2 ^ 23 + k < 2 ^ 31) :
    (F32.value (F32.pattern sign (E * 2 ^ 23 + k)) : ℝ) = F32.signFactor sign * (k * (2 : ℝ) ^ ((E : Int) - 149)) := by
  rw [F32.coe_value_eq_units, F32.sign_pattern sign n, F32.pattern_toNat sign n,
    show (sign.toNat * 2 ^ 31 + (E * 2 ^ 23 + k)) % 2 ^ 31 = E * 2 ^ 23 + k by omega, F32.units_normalised h,
    sub_eq_add_neg, zpow_add₀ two_ne_zero, zpow_natCast]
  push_cast
  ring

/-- The significand is even where the number of last places is. -/
theorem F32.significand_pattern_even (sign : Bool) {E k : Nat} (h : F32.Normalised E k) (n : E * 2 ^ 23 + k < 2 ^ 31)
    (even : k % 2 = 0) : F32.significand (F32.pattern sign (E * 2 ^ 23 + k)) % 2 = 0 := by
  obtain ⟨upper, lower⟩ := h
  unfold F32.significand
  rw [F32.expField_pattern sign n, F32.fracField_pattern sign n]
  split <;> omega

/-! ### The parts of `F32.roundMagnitude` -/

/-- The exponent of the last place that the result keeps. -/
def F32.lastPlace (m : Nat) (q : Int) : Int := max (((Nat.log2 m + 1 : Nat) : Int) + q - 24) (-149)

/-- `m / 2 ^ d` to nearest, ties to even, where the sticky flag puts the exact dividend above `m`. -/
def F32.roundHalfEven (m d : Nat) (sticky : Bool) : Nat :=
  if m % 2 ^ d > 2 ^ (d - 1) ∨ (m % 2 ^ d = 2 ^ (d - 1) ∧ (sticky = true ∨ m / 2 ^ d % 2 = 1)) then m / 2 ^ d + 1
  else m / 2 ^ d

/-- How many last places the result keeps. -/
def F32.kept (m : Nat) (q : Int) (sticky : Bool) : Nat :=
  if F32.lastPlace m q ≤ q then m * 2 ^ (q - F32.lastPlace m q).toNat
  else F32.roundHalfEven m (F32.lastPlace m q - q).toNat sticky

theorem F32.roundMagnitude_eq {m : Nat} (q : Int) (sticky : Bool) (h : m ≠ 0) :
    F32.roundMagnitude m q sticky
      = min ((F32.lastPlace m q + 149).toNat * 2 ^ 23 + F32.kept m q sticky) 0x7F800000 := by
  rw [F32.roundMagnitude, if_neg h]
  rfl

theorem F32.round_eq_pattern (sign : Bool) (m : Nat) (q : Int) (sticky : Bool) :
    F32.round sign m q sticky = F32.pattern sign (F32.roundMagnitude m q sticky) := rfl

theorem F32.neg_149_le_lastPlace (m : Nat) (q : Int) : -149 ≤ F32.lastPlace m q := le_max_right _ _

/-- `y` is the magnitude that `m`, `q` and the sticky flag describe. -/
structure F32.Truncates (m : Nat) (q : Int) (sticky : Bool) (y : ℝ) : Prop where
  lower : m * (2 : ℝ) ^ q ≤ y
  upper : y < (m + 1) * (2 : ℝ) ^ q
  exact : sticky = false ↔ y = m * (2 : ℝ) ^ q

theorem F32.truncates_exact (m : Nat) (q : Int) : F32.Truncates m q false (m * (2 : ℝ) ^ q) where
  lower := le_rfl
  upper := by
    have : (0 : ℝ) < 2 ^ q := by positivity
    linarith
  exact := by simp

/-- Rounding the quotient of `m + t` leaves it within a half, and a half off only to an even quotient. -/
theorem F32.roundHalfEven_spec {m d : Nat} {sticky : Bool} {t : ℝ} (hd : 1 ≤ d) (nonneg : 0 ≤ t) (lt_one : t < 1)
    (exact : sticky = false ↔ t = 0) :
    |F32.roundHalfEven m d sticky * (2 : ℝ) ^ d - (m + t)| ≤ 2 ^ d / 2
      ∧ (|F32.roundHalfEven m d sticky * (2 : ℝ) ^ d - (m + t)| = 2 ^ d / 2 → F32.roundHalfEven m d sticky % 2 = 0) := by
  have whole : 2 ^ d = 2 * 2 ^ (d - 1) := by rw [← pow_succ', Nat.sub_add_cancel hd]
  have low_lt : m % 2 ^ d < 2 * 2 ^ (d - 1) := whole ▸ Nat.mod_lt m (Nat.two_pow_pos d)
  have parts : (m : ℝ) = (m / 2 ^ d : Nat) * (2 * 2 ^ (d - 1) : Nat) + (m % 2 ^ d : Nat) := by
    rw [← whole]
    exact_mod_cast (Nat.div_add_mod' m (2 ^ d)).symm
  have wholeR : (2 : ℝ) ^ d = 2 * (2 ^ (d - 1) : Nat) := by exact_mod_cast whole
  unfold F32.roundHalfEven
  rw [wholeR, parts]
  generalize m % 2 ^ d = low at *
  generalize m / 2 ^ d = quotient at *
  generalize 2 ^ (d - 1) = half at *
  push_cast
  split
  case isTrue up =>
    have off : |((quotient : ℝ) + 1) * (2 * half) - (quotient * (2 * half) + low + t)| = 2 * half - (low + t) := by
      have : (low : ℝ) + 1 ≤ 2 * half := by exact_mod_cast low_lt
      rw [abs_of_nonneg] <;> linarith
    rw [off]
    rcases up with above | ⟨tie, why⟩
    · have : (half : ℝ) + 1 ≤ low := by exact_mod_cast above
      exact ⟨by linarith, fun eq => by linarith⟩
    · have : (low : ℝ) = half := by exact_mod_cast tie
      refine ⟨by linarith, fun eq => ?_⟩
      have : t = 0 := by linarith
      rcases why with st | odd
      · simp [exact.2 this] at st
      · omega
  case isFalse down =>
    have off : |(quotient : ℝ) * (2 * half) - (quotient * (2 * half) + low + t)| = low + t := by
      rw [abs_sub_comm, abs_of_nonneg] <;> linarith [(Nat.cast_nonneg low : (0 : ℝ) ≤ low)]
    rw [off]
    rcases lt_trichotomy low half with below | tie | above
    · have : (low : ℝ) + 1 ≤ half := by exact_mod_cast below
      exact ⟨by linarith, fun eq => by linarith⟩
    · have : (low : ℝ) = half := by exact_mod_cast tie
      have even : sticky = false ∧ quotient % 2 = 0 := by
        cases sticky <;> simp [tie] at down ⊢
        omega
      rw [exact.1 even.1]
      exact ⟨by linarith, fun _ => even.2⟩
    · exact absurd (.inl above) down

theorem F32.roundHalfEven_bounds (m d : Nat) (sticky : Bool) :
    m / 2 ^ d ≤ F32.roundHalfEven m d sticky ∧ F32.roundHalfEven m d sticky ≤ m / 2 ^ d + 1 := by
  unfold F32.roundHalfEven
  split <;> omega

/-! ### What is kept -/

theorem F32.kept_of_le {m n : Nat} {q : Int} (sticky : Bool) (h : q = n + F32.lastPlace m q) :
    F32.kept m q sticky = m * 2 ^ n := by
  rw [F32.kept, if_pos (by omega), show (q - F32.lastPlace m q).toNat = n by omega]

theorem F32.kept_of_lt {m d : Nat} {q : Int} (sticky : Bool) (h : F32.lastPlace m q = d + q) (pos : 1 ≤ d) :
    F32.kept m q sticky = F32.roundHalfEven m d sticky := by
  rw [F32.kept, if_neg (by omega), show (F32.lastPlace m q - q).toNat = d by omega]

/-- Either nothing is cut off or at least one bit is. -/
theorem F32.lastPlace_cases (m : Nat) (q : Int) :
    (∃ n : Nat, q = n + F32.lastPlace m q) ∨ (∃ d : Nat, F32.lastPlace m q = d + q ∧ 1 ≤ d) := by
  rcases le_or_gt (F32.lastPlace m q) q with fits | cut
  · exact .inl ⟨(q - F32.lastPlace m q).toNat, by omega⟩
  · exact .inr ⟨(F32.lastPlace m q - q).toNat, by omega, by omega⟩

/-- Where nothing is cut off, what is kept is exact. -/
theorem F32.kept_exact {m : Nat} {q : Int} (sticky : Bool) (h : F32.lastPlace m q ≤ q) :
    F32.kept m q sticky * (2 : ℝ) ^ F32.lastPlace m q = m * (2 : ℝ) ^ q := by
  rcases F32.lastPlace_cases m q with ⟨n, hn⟩ | ⟨d, hd, pos⟩
  · have place : (2 : ℝ) ^ q = 2 ^ n * 2 ^ F32.lastPlace m q := by
      rw [← zpow_natCast, ← zpow_add₀ two_ne_zero, ← hn]
    rw [F32.kept_of_le sticky hn, place]
    push_cast
    ring
  · omega

/-- What is kept is within half a last place of `y`, and half a place off only where it is even. -/
theorem F32.kept_spec {m : Nat} {q : Int} {sticky : Bool} {y : ℝ} (h : F32.Truncates m q sticky y)
    (wide : sticky = true → q < F32.lastPlace m q) :
    |F32.kept m q sticky * (2 : ℝ) ^ F32.lastPlace m q - y| ≤ (2 : ℝ) ^ F32.lastPlace m q / 2
      ∧ (|F32.kept m q sticky * (2 : ℝ) ^ F32.lastPlace m q - y| = (2 : ℝ) ^ F32.lastPlace m q / 2 →
        F32.kept m q sticky % 2 = 0) := by
  obtain ⟨lower, upper, exact⟩ := h
  rcases F32.lastPlace_cases m q with ⟨n, hn⟩ | ⟨d, hd, cut⟩
  · have pos : (0 : ℝ) < 2 ^ F32.lastPlace m q := by positivity
    have flag : sticky = false := Bool.eq_false_iff.2 fun inexact => absurd (wide inexact) (by omega)
    rw [F32.kept_exact sticky (by omega), ← exact.1 flag, sub_self, abs_zero]
    exact ⟨by linarith, fun eq => by linarith⟩
  · have pos : (0 : ℝ) < 2 ^ q := by positivity
    have place : (2 : ℝ) ^ F32.lastPlace m q = 2 ^ d * 2 ^ q := by
      rw [hd, zpow_add₀ two_ne_zero, zpow_natCast]
    have rest : y = (m + (y / 2 ^ q - m)) * 2 ^ q := by field_simp; ring
    obtain ⟨near, even⟩ := F32.roundHalfEven_spec (m := m) (sticky := sticky) (t := y / 2 ^ q - m) cut
      (by rw [sub_nonneg, le_div_iff₀ pos]; exact lower) (by rw [sub_lt_iff_lt_add', div_lt_iff₀ pos]; exact upper)
      (by rw [exact, sub_eq_zero, div_eq_iff pos.ne'])
    have off : |F32.roundHalfEven m d sticky * (2 : ℝ) ^ F32.lastPlace m q - y|
        = |F32.roundHalfEven m d sticky * (2 : ℝ) ^ d - (m + (y / 2 ^ q - m))| * 2 ^ q := by
      rw [place, ← abs_of_pos pos, ← abs_mul, abs_of_pos pos, sub_mul, ← rest, mul_assoc]
    rw [F32.kept_of_lt sticky hd cut, off, place, mul_div_right_comm]
    exact ⟨mul_le_mul_of_nonneg_right near pos.le, fun eq => even (mul_right_cancel₀ pos.ne' eq)⟩

/-- What is kept has at most 24 bits, or is the number after them. -/
theorem F32.kept_le {m : Nat} (q : Int) (sticky : Bool) : F32.kept m q sticky ≤ 2 ^ 24 := by
  have bits : m < 2 ^ (Nat.log2 m + 1) := Nat.lt_log2_self
  have place : ((Nat.log2 m + 1 : Nat) : Int) + q - 24 ≤ F32.lastPlace m q := le_max_left _ _
  rcases F32.lastPlace_cases m q with ⟨n, hn⟩ | ⟨d, hd, cut⟩
  · rw [F32.kept_of_le sticky hn]
    calc m * 2 ^ n ≤ 2 ^ (Nat.log2 m + 1) * 2 ^ n := by gcongr
      _ = 2 ^ (Nat.log2 m + 1 + n) := (pow_add ..).symm
      _ ≤ 2 ^ 24 := Nat.pow_le_pow_right (by decide) (by omega)
  · rw [F32.kept_of_lt sticky hd cut]
    have quotient : m / 2 ^ d < 2 ^ 24 := by
      rw [Nat.div_lt_iff_lt_mul (Nat.two_pow_pos d), ← pow_add]
      exact bits.trans_le (Nat.pow_le_pow_right (by decide) (by omega))
    exact (F32.roundHalfEven_bounds m d sticky).2.trans quotient

/-- Above the subnormals what is kept has 24 bits. -/
theorem F32.le_kept {m : Nat} {q : Int} (sticky : Bool) (h : m ≠ 0) (normal : F32.lastPlace m q ≠ -149) :
    2 ^ 23 ≤ F32.kept m q sticky := by
  have bits : 2 ^ Nat.log2 m ≤ m := Nat.log2_self_le h
  have place : F32.lastPlace m q = ((Nat.log2 m + 1 : Nat) : Int) + q - 24 := (max_choice _ _).resolve_right normal
  rcases F32.lastPlace_cases m q with ⟨n, hn⟩ | ⟨d, hd, cut⟩
  · rw [F32.kept_of_le sticky hn]
    calc 2 ^ 23 = 2 ^ Nat.log2 m * 2 ^ n := by rw [← pow_add]; congr 1; omega
      _ ≤ m * 2 ^ n := by gcongr
  · rw [F32.kept_of_lt sticky hd cut]
    refine (F32.roundHalfEven_bounds m d sticky).1.trans' ?_
    rw [Nat.le_div_iff_mul_le (Nat.two_pow_pos d), ← pow_add, show 23 + d = Nat.log2 m by omega]
    exact bits

/-- Above the subnormals the magnitude is at least the least one with this last place. -/
theorem F32.two_pow_lastPlace_le {m : Nat} {q : Int} (h : m ≠ 0) (normal : F32.lastPlace m q ≠ -149) :
    (2 : ℝ) ^ (F32.lastPlace m q + 23) ≤ m * (2 : ℝ) ^ q := by
  have bits : (2 : ℝ) ^ Nat.log2 m ≤ m := by exact_mod_cast Nat.log2_self_le h
  have place : F32.lastPlace m q = ((Nat.log2 m + 1 : Nat) : Int) + q - 24 := (max_choice _ _).resolve_right normal
  rw [show F32.lastPlace m q + 23 = (Nat.log2 m : Nat) + q by omega, zpow_add₀ two_ne_zero, zpow_natCast]
  gcongr

theorem F32.kept_normalised {m : Nat} {q : Int} (sticky : Bool) (h : m ≠ 0) :
    F32.Normalised (F32.lastPlace m q + 149).toNat (F32.kept m q sticky) where
  upper := F32.kept_le q sticky
  lower := by
    by_cases normal : F32.lastPlace m q = -149
    · exact .inl (by omega)
    · exact .inr (F32.le_kept sticky h normal)

/-! ### `F32.round` -/

/-- A magnitude below 2^128 - 2^103 does not round to an infinity. -/
theorem F32.kept_below_inf {m : Nat} {q : Int} {sticky : Bool} {y : ℝ} (h : m ≠ 0) (t : F32.Truncates m q sticky y)
    (wide : sticky = true → q < F32.lastPlace m q) (small : y < 2 ^ 128 - 2 ^ 103) :
    (F32.lastPlace m q + 149).toNat * 2 ^ 23 + F32.kept m q sticky < 0x7F800000 := by
  have upper := F32.kept_le (m := m) q sticky
  by_contra large
  have place : 104 ≤ F32.lastPlace m q := by omega
  rcases place.eq_or_lt with last | past
  · have all : F32.kept m q sticky = 2 ^ 24 := by omega
    obtain ⟨near, -⟩ := F32.kept_spec t wide
    rw [all, ← last, abs_le] at near
    norm_num at near small
    linarith [near.2]
  · have low := F32.two_pow_lastPlace_le h (show F32.lastPlace m q ≠ -149 by omega)
    have : (2 : ℝ) ^ (128 : Int) ≤ 2 ^ (F32.lastPlace m q + 23) := zpow_le_zpow_right₀ one_le_two (by omega)
    have : (0 : ℝ) < 2 ^ 103 := by positivity
    have : (2 : ℝ) ^ (128 : Int) = 2 ^ 128 := by norm_cast
    linarith [t.lower]

/-- A rounded magnitude that is no infinity, as its pattern. -/
theorem F32.round_eq_kept {m : Nat} {q : Int} {sticky : Bool} (sign : Bool) (h : m ≠ 0)
    (n : (F32.lastPlace m q + 149).toNat * 2 ^ 23 + F32.kept m q sticky < 0x7F800000) :
    F32.round sign m q sticky
      = F32.pattern sign ((F32.lastPlace m q + 149).toNat * 2 ^ 23 + F32.kept m q sticky) := by
  rw [F32.round_eq_pattern, F32.roundMagnitude_eq q sticky h, min_eq_left n.le]

/-- The number of a rounded magnitude that is no infinity. -/
theorem F32.coe_value_round {m : Nat} {q : Int} {sticky : Bool} (sign : Bool) (h : m ≠ 0)
    (n : (F32.lastPlace m q + 149).toNat * 2 ^ 23 + F32.kept m q sticky < 0x7F800000) :
    (F32.value (F32.round sign m q sticky) : ℝ)
      = F32.signFactor sign * (F32.kept m q sticky * (2 : ℝ) ^ F32.lastPlace m q) := by
  have place := F32.neg_149_le_lastPlace m q
  rw [F32.round_eq_kept sign h n, F32.coe_value_pattern sign (F32.kept_normalised sticky h) (by omega),
    show ((F32.lastPlace m q + 149).toNat : Int) - 149 = F32.lastPlace m q by omega]

/-- A magnitude of 0 rounds to the zero of its sign. -/
theorem F32.nearest_zero (sign : Bool) : F32.Nearest (F32.zero sign) 0 := by
  have value : F32.value (F32.zero sign) = 0 := by cases sign <;> decide +kernel
  exact F32.nearest_of_eq (by cases sign <;> decide) (by rw [value, Rat.cast_zero])

theorem F32.round_zero (sign : Bool) (q : Int) (sticky : Bool) : F32.round sign 0 q sticky = F32.zero sign := by
  simp [F32.round, F32.roundMagnitude]

/-- Rounding gives the nearest pattern; a quotient with a sticky flag needs more than 24 bits (R8). -/
theorem F32.round_nearest {m : Nat} {q : Int} {sticky : Bool} {y : ℝ} (sign : Bool) (t : F32.Truncates m q sticky y)
    (bits : sticky = true → 2 ^ 24 ≤ m) (small : y < 2 ^ 128 - 2 ^ 103) :
    F32.Nearest (F32.round sign m q sticky) (F32.signFactor sign * y) := by
  by_cases h : m = 0
  · subst h
    have flag : sticky = false := Bool.eq_false_iff.2 fun inexact => absurd (bits inexact) (by decide)
    have : y = 0 := by simpa using t.exact.1 flag
    rw [this, mul_zero, F32.round_zero]
    exact F32.nearest_zero sign
  have wide (inexact : sticky = true) : q < F32.lastPlace m q := by
    have : 24 ≤ Nat.log2 m := (Nat.le_log2 h).2 (bits inexact)
    have : ((Nat.log2 m + 1 : Nat) : Int) + q - 24 ≤ F32.lastPlace m q := le_max_left _ _
    omega
  have n := F32.kept_below_inf h t wide small
  have value := F32.coe_value_round sign h n
  have off : |(F32.value (F32.round sign m q sticky) : ℝ) - F32.signFactor sign * y|
      = |F32.kept m q sticky * (2 : ℝ) ^ F32.lastPlace m q - y| := by
    rw [value, ← mul_sub, abs_mul, F32.abs_signFactor, one_mul]
  obtain ⟨near, even⟩ := F32.kept_spec t wide
  refine F32.nearest_of_half_place (e := F32.lastPlace m q)
    (k := (if sign then -1 else 1) * (F32.kept m q sticky : Int)) ?_ ?_ (off ▸ near) (fun eq => ?_) ?_
  · rw [F32.round_eq_kept sign h n]
    exact F32.isFinite_pattern sign n
  · rw [value]
    cases sign <;> simp
  · rw [F32.round_eq_kept sign h n]
    exact F32.significand_pattern_even sign (F32.kept_normalised sticky h) (by omega) (even (off ▸ eq))
  · refine or_iff_not_imp_left.2 fun normal => ?_
    rw [abs_mul, F32.abs_signFactor, one_mul]
    exact (F32.two_pow_lastPlace_le h normal).trans (t.lower.trans (le_abs_self y))

end Sys2Proof.Machine
end

section
/-! The statements of 00_scope.md about the number type (R8 to R10). -/

namespace Sys2Proof.Machine

/-! ### Sum, difference and product -/

/-- Rounding an integer at an exponent gives the nearest pattern. -/
theorem F32.round_int_nearest (z q : Int) (small : |(z : ℝ) * (2 : ℝ) ^ q| < 2 ^ 128 - 2 ^ 103) :
    F32.Nearest (F32.round (decide (z < 0)) z.natAbs q false) (z * (2 : ℝ) ^ q) := by
  have pos : (0 : ℝ) < 2 ^ q := by positivity
  rw [abs_mul, abs_of_pos pos, ← Int.cast_abs, ← Nat.cast_natAbs] at small
  rw [← F32.signFactor_mul_natAbs, mul_assoc]
  exact F32.round_nearest _ (F32.truncates_exact z.natAbs q) (by simp) small

theorem F32.add_nearest {a b : F32} (ha : F32.isFinite a = true) (hb : F32.isFinite b = true)
    (small : |(F32.value a : ℝ) + (F32.value b : ℝ)| < 2 ^ 128 - 2 ^ 103) :
    F32.Nearest (F32.add a b) ((F32.value a : ℝ) + (F32.value b : ℝ)) := by
  rw [F32.coe_value_at (min_le_left (F32.exponent a) (F32.exponent b)),
    F32.coe_value_at (min_le_right (F32.exponent a) (F32.exponent b)), ← add_mul, ← Int.cast_add] at small ⊢
  simp only [F32.add, F32.not_isNaN_of_isFinite ha, F32.not_isNaN_of_isFinite hb, F32.not_isInf_of_isFinite ha,
    F32.not_isInf_of_isFinite hb, Bool.or_self, Bool.false_eq_true, if_false]
  split
  case isTrue zero =>
    rw [zero, Int.cast_zero, zero_mul]
    exact F32.nearest_zero _
  case isFalse nonzero => exact F32.round_int_nearest _ _ small

theorem F32.sub_nearest {a b : F32} (ha : F32.isFinite a = true) (hb : F32.isFinite b = true)
    (small : |(F32.value a : ℝ) - (F32.value b : ℝ)| < 2 ^ 128 - 2 ^ 103) :
    F32.Nearest (F32.sub a b) ((F32.value a : ℝ) - (F32.value b : ℝ)) := by
  have negated : (F32.value a : ℝ) - F32.value b = F32.value a + F32.value (F32.neg b) := by
    rw [F32.value_neg, Rat.cast_neg, sub_eq_add_neg]
  have sub : F32.sub a b = F32.add a (F32.neg b) := by
    simp [F32.sub, F32.not_isNaN_of_isFinite ha, F32.not_isNaN_of_isFinite hb]
  rw [negated] at small ⊢
  rw [sub]
  exact F32.add_nearest ha (by rw [F32.isFinite_neg, hb]) small

/-- The exact product. -/
theorem F32.coe_value_mul (a b : F32) :
    (F32.value a : ℝ) * F32.value b = F32.signFactor (F32.sign a != F32.sign b)
      * ((F32.significand a * F32.significand b : Nat) * (2 : ℝ) ^ (F32.exponent a + F32.exponent b)) := by
  rw [F32.coe_value, F32.coe_value, F32.signFactor_bne, zpow_add₀ two_ne_zero]
  push_cast
  ring

theorem F32.mul_nearest {a b : F32} (ha : F32.isFinite a = true) (hb : F32.isFinite b = true)
    (small : |(F32.value a : ℝ) * (F32.value b : ℝ)| < 2 ^ 128 - 2 ^ 103) :
    F32.Nearest (F32.mul a b) ((F32.value a : ℝ) * (F32.value b : ℝ)) := by
  have mul : F32.mul a b = F32.round (F32.sign a != F32.sign b) (F32.significand a * F32.significand b)
      (F32.exponent a + F32.exponent b) false := by
    simp [F32.mul, F32.not_isNaN_of_isFinite ha, F32.not_isNaN_of_isFinite hb, F32.not_isInf_of_isFinite ha,
      F32.not_isInf_of_isFinite hb]
  rw [F32.coe_value_mul, F32.abs_signFactor_mul (by positivity)] at small
  rw [F32.coe_value_mul, mul]
  exact F32.round_nearest _ (F32.truncates_exact _ _) (by simp) small

/-- Settles O23: each operation is one `F32.round` of the exact result. -/
theorem addMulRounded : Obligations.AddMulRounded := fun _ _ ha hb =>
  ⟨F32.add_nearest ha hb, F32.sub_nearest ha hb, F32.mul_nearest ha hb⟩

/-! ### Quotient -/

/-- A natural quotient and its remainder's flag describe the exact quotient. -/
theorem F32.truncates_div (n : Nat) {d : Nat} (q : Int) (pos : 0 < d) :
    F32.Truncates (n / d) q (decide (n % d ≠ 0)) ((n : ℝ) / d * (2 : ℝ) ^ q) := by
  have posR : (0 : ℝ) < d := by exact_mod_cast pos
  have unit : (0 : ℝ) < 2 ^ q := by positivity
  refine ⟨mul_le_mul_of_nonneg_right Nat.cast_div_le unit.le, mul_lt_mul_of_pos_right ?_ unit, ?_⟩
  · rw [div_lt_iff₀ posR]
    exact_mod_cast Nat.lt_mul_of_div_lt (Nat.lt_succ_self (n / d)) pos
  · rw [mul_left_inj' unit.ne', div_eq_iff posR.ne', decide_eq_false_iff_not, not_not, ← Nat.dvd_iff_mod_eq_zero]
    norm_cast
    exact ⟨fun dvd => (Nat.div_mul_cancel dvd).symm, fun eq => ⟨n / d, by rw [mul_comm]; exact eq⟩⟩

/-- The exact quotient, its dividend widened by 64 bits. -/
theorem F32.coe_value_div (a b : F32) :
    (F32.value a : ℝ) / F32.value b = F32.signFactor (F32.sign a != F32.sign b)
      * (((F32.significand a * 2 ^ 64 : Nat) : ℝ) / F32.significand b
        * (2 : ℝ) ^ (F32.exponent a - 64 - F32.exponent b)) := by
  have sign : F32.signFactor (F32.sign a) / F32.signFactor (F32.sign b)
      = F32.signFactor (F32.sign a) * F32.signFactor (F32.sign b) := by
    cases F32.sign b <;> simp [div_neg]
  have widened : (2 : ℝ) ^ 64 * 2 ^ (F32.exponent a - 64 - F32.exponent b)
      = 2 ^ F32.exponent a / 2 ^ F32.exponent b := by
    rw [← zpow_natCast, ← zpow_add₀ two_ne_zero, ← zpow_sub₀ two_ne_zero]
    congr 1
    push_cast
    ring
  rw [F32.coe_value, F32.coe_value, F32.signFactor_bne, mul_div_mul_comm, mul_div_mul_comm, sign, ← widened]
  push_cast
  ring

theorem F32.div_nearest {a b : F32} (ha : F32.isFinite a = true) (hb : F32.isFinite b = true) (nonzero : F32.value b ≠ 0)
    (small : |(F32.value a : ℝ) / (F32.value b : ℝ)| < 2 ^ 128 - 2 ^ 103) :
    F32.Nearest (F32.div a b) ((F32.value a : ℝ) / (F32.value b : ℝ)) := by
  have zero : F32.isZero b = false := by rw [Bool.eq_false_iff, ne_eq, F32.isZero_iff]; exact nonzero
  have pos : 0 < F32.significand b := Nat.pos_of_ne_zero ((F32.value_eq_zero_iff b).not.1 nonzero)
  have div : F32.div a b = F32.round (F32.sign a != F32.sign b) (F32.significand a * 2 ^ 64 / F32.significand b)
      (F32.exponent a - 64 - F32.exponent b) (decide (F32.significand a * 2 ^ 64 % F32.significand b ≠ 0)) := by
    simp [F32.div, F32.not_isNaN_of_isFinite ha, F32.not_isNaN_of_isFinite hb, F32.not_isInf_of_isFinite ha,
      F32.not_isInf_of_isFinite hb, zero]
  rw [F32.coe_value_div, F32.abs_signFactor_mul (by positivity)] at small
  rw [F32.coe_value_div, div]
  refine F32.round_nearest _ (F32.truncates_div _ _ pos) (fun inexact => ?_) small
  have dividend : F32.significand a ≠ 0 := by
    intro none
    simp [none] at inexact
  rw [Nat.le_div_iff_mul_le pos]
  have := F32.significand_lt b
  omega

/-! ### Square root -/

/-- The bit-by-bit square root takes the floor of the root. -/
theorem F32.isqrt_spec (k n root : Nat) (low : root * root ≤ n) (high : n < (root + 2 ^ k) * (root + 2 ^ k)) :
    F32.isqrt k n root * F32.isqrt k n root ≤ n ∧ n < (F32.isqrt k n root + 1) * (F32.isqrt k n root + 1) := by
  induction k generalizing root with
  | zero => exact ⟨low, high⟩
  | succ k ih =>
    rw [F32.isqrt]
    split
    case isTrue fits => exact ih _ fits (by rw [add_assoc, ← two_mul, ← pow_succ']; exact high)
    case isFalse above => exact ih _ low (not_le.1 above)

theorem F32.isqrt_eq_sqrt {n : Nat} (h : n < 2 ^ 96) : F32.isqrt 48 n 0 = Nat.sqrt n := by
  obtain ⟨low, high⟩ := F32.isqrt_spec 48 n 0 (by simp) (by omega)
  exact Nat.eq_sqrt.2 ⟨low, high⟩

/-- A natural root and the flag of its rest describe the exact root. -/
theorem F32.truncates_sqrt (n : Nat) (q : Int) :
    F32.Truncates (Nat.sqrt n) q (decide (Nat.sqrt n * Nat.sqrt n ≠ n)) (Real.sqrt n * (2 : ℝ) ^ q) := by
  have unit : (0 : ℝ) < 2 ^ q := by positivity
  refine ⟨mul_le_mul_of_nonneg_right Real.nat_sqrt_le_real_sqrt unit.le,
    mul_lt_mul_of_pos_right Real.real_sqrt_lt_nat_sqrt_succ unit, ?_⟩
  rw [mul_left_inj' unit.ne', decide_eq_false_iff_not, not_not, Real.sqrt_eq_iff_mul_self_eq (by positivity) (by positivity)]
  norm_cast
  exact eq_comm

theorem F32.sqrt_lt {v : F32} (h : F32.isFinite v = true) : Real.sqrt (F32.value v : ℝ) < 2 ^ 128 - 2 ^ 103 := by
  have root : Real.sqrt (F32.value v : ℝ) < 2 ^ 64 := by
    rw [Real.sqrt_lt' (by positivity), ← pow_mul]
    exact (le_abs_self _).trans_lt (F32.abs_value_lt h)
  exact root.trans (by norm_num)

/-- The square root of a positive value, from the widened significand at half the exponent. -/
theorem F32.sqrt_coe_value {v : F32} {widen : Nat} {half : Int} (pos : F32.sign v = false)
    (even : F32.exponent v = half + half + widen) :
    Real.sqrt (F32.value v : ℝ) = Real.sqrt ((F32.significand v * 2 ^ widen : Nat) : ℝ) * (2 : ℝ) ^ half := by
  have square : (F32.value v : ℝ) = ((F32.significand v * 2 ^ widen : Nat) : ℝ) * (2 ^ half * 2 ^ half) := by
    rw [F32.coe_value, pos, F32.signFactor_false, one_mul, even, zpow_add₀ two_ne_zero, zpow_add₀ two_ne_zero, zpow_natCast]
    push_cast
    ring
  rw [square, Real.sqrt_mul (by positivity), Real.sqrt_mul_self (by positivity)]

theorem F32.sqrt_nearest {a : F32} (ha : F32.isFinite a = true) (nonneg : 0 ≤ F32.value a) :
    F32.Nearest (F32.sqrt a) (Real.sqrt (F32.value a : ℝ)) := by
  rcases nonneg.eq_or_lt with zero | pos
  · have sqrt : F32.sqrt a = a := by simp [F32.sqrt, F32.not_isNaN_of_isFinite ha, (F32.isZero_iff a).2 zero.symm]
    rw [sqrt, ← zero, Rat.cast_zero, Real.sqrt_zero]
    exact F32.nearest_of_eq ha (by rw [← zero, Rat.cast_zero])
  have sign := F32.sign_of_pos pos
  have zero : F32.isZero a = false := by rw [Bool.eq_false_iff, ne_eq, F32.isZero_iff]; exact pos.ne'
  have significand : F32.significand a ≠ 0 := (F32.value_eq_zero_iff a).not.1 pos.ne'
  obtain ⟨widen, hw⟩ : ∃ widen, widen = 64 + (F32.exponent a % 2).toNat := ⟨_, rfl⟩
  have least : 2 ^ 64 ≤ F32.significand a * 2 ^ widen :=
    (Nat.pow_le_pow_right (by decide) (by omega)).trans (Nat.le_mul_of_pos_left _ (Nat.pos_of_ne_zero significand))
  have most : F32.significand a * 2 ^ widen < 2 ^ 96 := by
    calc F32.significand a * 2 ^ widen < 2 ^ 24 * 2 ^ widen := by
          gcongr
          exact F32.significand_lt a
      _ ≤ 2 ^ 24 * 2 ^ 65 := Nat.mul_le_mul_left _ (Nat.pow_le_pow_right (by decide) (by omega))
      _ ≤ 2 ^ 96 := by decide
  have sqrt : F32.sqrt a = F32.round false (Nat.sqrt (F32.significand a * 2 ^ widen)) ((F32.exponent a - widen) / 2)
      (decide (Nat.sqrt (F32.significand a * 2 ^ widen) * Nat.sqrt (F32.significand a * 2 ^ widen)
        ≠ F32.significand a * 2 ^ widen)) := by
    rw [← F32.isqrt_eq_sqrt most, hw]
    simp [F32.sqrt, F32.not_isNaN_of_isFinite ha, F32.not_isInf_of_isFinite ha, zero, sign]
  have bits : 2 ^ 24 ≤ Nat.sqrt (F32.significand a * 2 ^ widen) := Nat.le_sqrt.2 (by omega)
  have root := F32.sqrt_coe_value (widen := widen) (half := (F32.exponent a - widen) / 2) sign (by omega)
  have rounded := F32.round_nearest false (F32.truncates_sqrt (F32.significand a * 2 ^ widen) ((F32.exponent a - widen) / 2))
    (fun _ => bits) (root ▸ F32.sqrt_lt ha)
  rwa [← sqrt, F32.signFactor_false, one_mul, ← root] at rounded

/-- Settles O24: quotient and root are taken with more than 24 bits and a sticky flag, and rounded once. -/
theorem divSqrtRounded : Obligations.DivSqrtRounded :=
  ⟨fun _ _ ha hb => F32.div_nearest ha hb, fun _ ha => F32.sqrt_nearest ha⟩

/-! ### Comparison, floor and integers -/

theorem F32.compare_floor {a b : F32} (ha : F32.isFinite a = true) (hb : F32.isFinite b = true) :
    (F32.lt a b = true ↔ F32.value a < F32.value b) ∧ (F32.le a b = true ↔ F32.value a ≤ F32.value b)
      ∧ (F32.eq a b = true ↔ F32.value a = F32.value b) ∧ F32.floor a = ⌊F32.value a⌋ := by
  have na := F32.not_isNaN_of_isFinite ha
  have nb := F32.not_isNaN_of_isFinite hb
  refine ⟨?_, ?_, ?_, F32.floor_eq ha⟩
  · simp [F32.lt_iff, na, nb, F32.value_lt_iff]
  · simp [F32.le_iff, na, nb, F32.value_le_iff]
  · simp [F32.eq_iff, na, nb, F32.value_eq_iff]

/-- An integer of 24 bits loses none of them. -/
theorem F32.value_ofInt_of_lt {z : Int} (h : z.natAbs < 2 ^ 24) : F32.value (F32.ofInt z) = (z : ℚ) := by
  by_cases zero : z = 0
  · subst zero
    decide +kernel
  have nonzero : z.natAbs ≠ 0 := Int.natAbs_ne_zero.2 zero
  have bits : Nat.log2 z.natAbs < 24 := (Nat.log2_lt nonzero).2 h
  have place : F32.lastPlace z.natAbs 0 ≤ 0 := max_le (by omega) (by decide)
  have upper := F32.kept_le (m := z.natAbs) 0 false
  have value := F32.coe_value_round (q := 0) (sticky := false) (decide (z < 0)) nonzero (by omega)
  rw [F32.kept_exact false place, zpow_zero, mul_one, F32.signFactor_mul_natAbs] at value
  exact_mod_cast value

theorem F32.value_ofInt {z : Int} (h : z.natAbs ≤ 2 ^ 24) : F32.value (F32.ofInt z) = (z : ℚ) := by
  rcases h.eq_or_lt with last | lt
  · rcases Int.natAbs_eq_iff.1 last with rfl | rfl <;> decide +kernel
  · exact F32.value_ofInt_of_lt lt

theorem F32.isFinite_ofInt {z : Int} (h : z.natAbs ≤ 2 ^ 24) : F32.isFinite (F32.ofInt z) = true := by
  have bound : (z.natAbs : ℝ) ≤ 2 ^ 24 := by exact_mod_cast h
  have nearest := F32.round_int_nearest z 0 (by
    rw [zpow_zero, mul_one, ← Int.cast_abs, ← Nat.cast_natAbs]
    linarith [show (2 : ℝ) ^ 24 < 2 ^ 128 - 2 ^ 103 by norm_num])
  exact nearest.1

/-- Settles O25: keys order the values, and an integer of 24 bits is kept whole. -/
theorem compareFloorExact : Obligations.CompareFloorExact :=
  ⟨fun _ _ ha hb => F32.compare_floor ha hb, fun _ h => ⟨F32.isFinite_ofInt h, F32.value_ofInt h⟩⟩

/-! ### The named constants -/

/-- All of an interval is less than half a last place from this pattern, and none of it below the patterns of that place. -/
abbrev F32.NearestOn (v : F32) (lo hi : ℚ) : Prop :=
  F32.isFinite v = true ∧ (2 : ℚ) ^ (F32.exponent v + 23) ≤ lo
    ∧ F32.value v - 2 ^ F32.exponent v / 2 < lo ∧ hi < F32.value v + 2 ^ F32.exponent v / 2

theorem F32.NearestOn.nearest {v : F32} {lo hi : ℚ} {x : ℝ} (h : F32.NearestOn v lo hi) (low : lo ≤ x) (high : x ≤ hi) :
    F32.Nearest v x := by
  obtain ⟨finite, place, below, above⟩ := h
  rw [← Rat.cast_le (K := ℝ)] at place
  rw [← Rat.cast_lt (K := ℝ)] at below above
  push_cast at place below above
  refine F32.nearest_of_lt_half finite ?_ ((place.trans low).trans (le_abs_self x))
  rw [abs_lt]
  constructor <;> linarith

/-- A rational constant. -/
theorem nearest_const_rational {k : RealConst} (x : ℚ) (real : realConst k = x) (h : F32.NearestOn (binary32Const k) x x) :
    F32.Nearest (binary32Const k) (realConst k) :=
  h.nearest real.ge real.le

/-- A rational multiple of π, from eight decimals of π. -/
theorem nearest_const_mul_pi {k : RealConst} (r : ℚ) (real : realConst k = Real.pi * r) (pos : 0 ≤ r)
    (h : F32.NearestOn (binary32Const k) (3.14159265 * r) (3.14159266 * r)) :
    F32.Nearest (binary32Const k) (realConst k) := by
  have posR : (0 : ℝ) ≤ r := by exact_mod_cast pos
  have low : (3.14159265 : ℝ) ≤ Real.pi := by linarith [Real.pi_gt_d20]
  have high : Real.pi ≤ (3.14159266 : ℝ) := by linarith [Real.pi_lt_d20]
  refine h.nearest ?_ ?_ <;> rw [real] <;> push_cast <;> gcongr

/-- Settles O26: a zero is exact, and every other constant is enclosed within half a last place of its pattern. -/
theorem constantsNearest : Obligations.ConstantsNearest := by
  intro k
  cases k with
  | zero => exact F32.nearest_zero false
  | one => exact nearest_const_rational 1 (by norm_num [realConst]) (by decide +kernel)
  | two => exact nearest_const_rational 2 (by norm_num [realConst]) (by decide +kernel)
  | pi => exact nearest_const_mul_pi 1 (by norm_num [realConst]) (by norm_num) (by decide +kernel)
  | twoPi => exact nearest_const_mul_pi 2 (by norm_num [realConst]; ring) (by norm_num) (by decide +kernel)
  | halfPi => exact nearest_const_mul_pi (1 / 2) (by norm_num [realConst]; ring) (by norm_num) (by decide +kernel)
  | balanceLimit => exact nearest_const_mul_pi (1 / 3) (by norm_num [realConst]; ring) (by norm_num) (by decide +kernel)
  | quarterPi => exact nearest_const_mul_pi (1 / 4) (by norm_num [realConst]; ring) (by norm_num) (by decide +kernel)
  | threeQuarterPi => exact nearest_const_mul_pi (3 / 4) (by norm_num [realConst]; ring) (by norm_num) (by decide +kernel)
  | recalThreshold => exact nearest_const_mul_pi (1 / 8) (by norm_num [realConst]; ring) (by norm_num) (by decide +kernel)
  | gainRefSps => exact nearest_const_rational 5.208 (by norm_num [realConst]) (by decide +kernel)
  | gainRef => exact nearest_const_rational 5.7 (by norm_num [realConst]) (by decide +kernel)
  | gainHalfRange => exact nearest_const_rational 0.5 (by norm_num [realConst]) (by decide +kernel)
  | loopGain => exact nearest_const_rational 0.15 (by norm_num [realConst]) (by decide +kernel)
  | syncDetectThreshold => exact nearest_const_rational 40 (by norm_num [realConst]) (by decide +kernel)
  | optimizedThreshold => exact nearest_const_rational 40 (by norm_num [realConst]) (by decide +kernel)
  | spsMin => exact nearest_const_rational 2 (by norm_num [realConst]) (by decide +kernel)
  | spsMax => exact nearest_const_rational 32 (by norm_num [realConst]) (by decide +kernel)
  | sampleMaxAbs => exact nearest_const_rational (2 ^ 20) (by norm_num [realConst]) (by decide +kernel)

end Sys2Proof.Machine
end

section
/-! What the operations of a sample keep, by one walk over them (R221 to R228): an invariant that each of the operations that
write a store of the block keeps is kept by SAMPLE_STEP, whatever the detectors decide. -/

namespace Sys2Proof.Machine

variable {α ω : Type} {K : Reading α ω}

/-- The state with its working fields blank: the output, the sample point, the timestamps, and the flags, counters and scores of
a symbol. What is left are the stores that an invariant of the block speaks of. -/
def State.Over.blanked (K : Reading α ω) (s : State.Over α ω) : State.Over α ω :=
  { s with
    output := [], synchronized := false, samplePoint := K.num.const .zero
    symbolsSinceSync := 0#32, prebiasDone := false, totalSymbols := 0#32, syncCount := 0#32, invalidCount := 0#32
    lastScorePrimary := K.num.const .zero, lastScoreLag := K.num.const .zero, lastScoreControl := K.num.const .zero
    lastCorrectedBits := 0#32, framesDispatched := 0#32, refTs := 0#64, dibitsSinceTs := 0#32 }

/-- A property of the stores that every operation which writes them within a sample keeps. -/
structure SampleInvariant (K : Reading α ω) (P : State.Over α ω → Prop) : Prop where
  inert : ∀ {s t}, P s → t.blanked K = s.blanked K → P t
  framerSync : ∀ {s}, P s → P (opFramerSync K s)
  framerDibit : ∀ (d) {s}, P s → P (opFramerDibit K d s)
  recordPush : ∀ (d) {s}, P s → P (opRecordPush K d s)
  pushHistories : ∀ (soft d lag) {s}, P s → P (pushHistories soft d lag s)
  eqApply : ∀ (c) {s}, P s → P (opEqApply K c s).1
  eqReset : ∀ {s}, P s → P (opEqReset s)

namespace SampleInvariant

variable {P : State.Over α ω → Prop} (inv : SampleInvariant K P) {s : State.Over α ω}
include inv

theorem emit (record : Record α ω) (h : P s) : P (State.emit K record s) := inv.inert h rfl

theorem advanceSymbol (nudge : α) (h : P s) : P (advanceSymbol K.num nudge s) := inv.inert h rfl

theorem acceptSync (c : Correction α) (kind : SyncKind) (h : P s) : P (opAcceptSync K c kind s) := by
  rw [opAcceptSync_eq]
  have accepted : P (acceptedState K c s) := inv.inert (inv.eqApply c h) rfl
  exact inv.framerSync (inv.emit _ accepted)

theorem coastSync (h : P s) : P (opCoastSync K s) := by
  rw [opCoastSync_eq]
  have coasted : P (coastedState s) := inv.inert h rfl
  exact inv.framerSync (inv.emit _ coasted)

theorem tryDetectors (n : Int) (mu : α) (ds : List (Detector α)) (h : P s) : P (tryDetectors K n mu ds s).1 := by
  induction ds generalizing s with
  | nil => exact h
  | cons d rest ih =>
    rcases tryDetectors_cons K n mu d rest s with ⟨-, e⟩ | ⟨-, c, -, e⟩ | ⟨-, -, e⟩ <;> rw [e]
    · exact ih h
    · exact inv.acceptSync c d.kind (inv.inert h rfl)
    · exact ih (inv.inert h rfl)

theorem detection (n : Int) (mu : α) (h : P s) : P (detection K n mu s).1 := by
  have scored : P (updateScores K s) := inv.inert h rfl
  unfold Machine.detection
  split
  · exact inv.tryDetectors n mu _ scored
  · exact scored

theorem syncCheck (n : Int) (mu : α) (h : P s) : P (opSyncCheck K n mu s) := by
  have detected := inv.detection n mu h
  rcases opSyncCheck_cases K n mu s with ⟨-, e⟩ | ⟨-, -, e⟩ | ⟨-, -, -, e⟩ | ⟨-, -, -, e⟩ <;> rw [e]
  · exact detected
  · exact inv.coastSync detected
  · exact inv.eqReset detected
  · exact detected

theorem symbolStep (n : Int) (h : P s) : P (opSymbolStep K n s) := by
  refine inv.syncCheck _ _ (inv.advanceSymbol _ (inv.pushHistories _ _ _ (inv.recordPush _ (inv.framerDibit _ ?_))))
  split
  · exact inv.emit _ h
  · exact h

theorem sampleStep (n : Int) (h : P s) : P (opSampleStep K n s) := by
  have moved : P { s with samplePoint := K.num.sub s.samplePoint (K.num.const .one) } := inv.inert h rfl
  rcases opSampleStep_cases K n s with e | e <;> rw [e]
  · exact moved
  · exact inv.symbolStep n moved

/-- PROCESS_PENDING keeps it too, where it does not speak of `p`. -/
theorem processPending (advance : ∀ {s}, P s → P { s with p := s.p + 1#64 }) (h : P s) : P (opProcessPending K s) :=
  processLoop_induct K (fun _ _ hs => advance (inv.sampleStep _ hs)) _ h

end SampleInvariant

/-! ### What no operation of a sample writes -/

/-- What SAMPLE_STEP keeps: the setup, the sample history and its counters. -/
structure SampleFrame (s t : State.Over α ω) : Prop where
  setup : State.SameSetup s t
  smp : t.smp = s.smp
  r : t.r = s.r
  p : t.p = s.p

theorem SampleFrame.trans {s t u : State.Over α ω} (h : SampleFrame s t) (k : SampleFrame t u) : SampleFrame s u :=
  ⟨h.setup.trans k.setup, k.smp.trans h.smp, k.r.trans h.r, k.p.trans h.p⟩

theorem SymbolFrame.sample {s t : State.Over α ω} (h : SymbolFrame s t) : SampleFrame s t := ⟨h.setup, h.smp, h.r, h.p⟩

/-- The working fields are no part of the setup or of the sample history. -/
theorem SampleFrame.of_blanked {s t : State.Over α ω} (e : t.blanked K = s.blanked K) : SampleFrame s t where
  setup :=
    { params := (congrArg State.Over.params e :), input := (congrArg State.Over.input e :)
      configured := (congrArg State.Over.configured e :), sps := (congrArg State.Over.sps e :)
      symbolRate := (congrArg State.Over.symbolRate e :), gainInitial := (congrArg State.Over.gainInitial e :)
      gainMin := (congrArg State.Over.gainMin e :), gainMax := (congrArg State.Over.gainMax e :)
      fault := (congrArg State.Over.fault e :), faultCode := (congrArg State.Over.faultCode e :)
      faultInfo := (congrArg State.Over.faultInfo e :) }
  smp := (congrArg State.Over.smp e :)
  r := (congrArg State.Over.r e :)
  p := (congrArg State.Over.p e :)

theorem sampleFrame_invariant (s : State.Over α ω) : SampleInvariant K (SampleFrame s) where
  inert h e := h.trans (.of_blanked e)
  framerSync h := h.trans (opFramerSync_frame K _).sample
  framerDibit d _ h := h.trans (opFramerDibit_frame K d _).sample
  recordPush d _ h := h.trans (opRecordPush_frame K d _).sample
  pushHistories _ _ _ _ h := h.trans ⟨⟨rfl, rfl, rfl, rfl, rfl, rfl, rfl, rfl, rfl, rfl, rfl⟩, rfl, rfl, rfl⟩
  eqApply c _ h := h.trans (opEqApply_frame K c _).sample
  eqReset h := h.trans (opEqReset_frame _).sample

theorem opSampleStep_frame (n : Int) (s : State.Over α ω) : SampleFrame s (opSampleStep K n s) :=
  (sampleFrame_invariant s).sampleStep n (.of_blanked (K := K) rfl)

theorem opPrebias_frame (vs : List α) (s : State.Over α ω) : SampleFrame s (opPrebias K vs s) := by
  rcases opPrebias_cases K vs s with ⟨-, e⟩ | ⟨-, -, b, e, -⟩ <;> rw [e] <;>
    exact ⟨⟨rfl, rfl, rfl, rfl, rfl, rfl, rfl, rfl, rfl, rfl, rfl⟩, rfl, rfl, rfl⟩

theorem histAppendAll_setup [DecidableEq α] (vs : List α) (s : State.Over α ω) :
    State.SameSetup s (State.histAppendAll K vs s) :=
  histAppendAll_induct (P := State.SameSetup s)
    (fun _ _ h => h.trans ⟨rfl, rfl, rfl, rfl, rfl, rfl, rfl, rfl, rfl, rfl, rfl⟩) vs (.refl s)

theorem opProcessPending_setup (s : State.Over α ω) : State.SameSetup s (opProcessPending K s) :=
  processLoop_induct K (P := State.SameSetup s)
    (fun t _ h => (h.trans (opSampleStep_frame t.p.toNat t).setup).trans
      ⟨rfl, rfl, rfl, rfl, rfl, rfl, rfl, rfl, rfl, rfl, rfl⟩) _ (.refl s)

/-- SAMPLES writes nothing of the setup. -/
theorem samplesEffect_setup [DecidableEq α] (tsLo tsHi : Word) (vs : List α) (s : State.Over α ω) :
    State.SameSetup s (samplesEffect K tsLo tsHi vs s) := by
  have stamped : State.SameSetup s (takeTimestamp tsLo tsHi s) := ⟨rfl, rfl, rfl, rfl, rfl, rfl, rfl, rfl, rfl, rfl, rfl⟩
  exact stamped.trans ((opPrebias_frame vs _).setup.trans ((histAppendAll_setup vs _).trans (opProcessPending_setup _)))

theorem flushEffect_setup (s : State.Over α ω) : State.SameSetup s (flushEffect K s) := by
  rcases flushEffect_cases K s with ⟨-, e⟩ | ⟨-, e⟩ <;> rw [e] <;>
    exact ⟨rfl, rfl, rfl, rfl, rfl, rfl, rfl, rfl, rfl, rfl, rfl⟩

end Sys2Proof.Machine
end

section
/-! What a command does, as one list of effects (R290 to R296, R323), and who writes the setup of the block. -/

namespace Sys2Proof.Machine

variable {α ω : Type} {K : Reading α ω}

/-- The effects of a command, each with the checks that lead to it. -/
inductive CommandEffect [DecidableEq α] (K : Reading α ω) (s : State.Over α ω) : Instr → State.Over α ω → Prop where
  | ignored (i : Instr) : s.fault = true → CommandEffect K s i s
  | raised (i : Instr) (cause : FaultCause) : s.fault = false → CommandEffect K s i (raiseFault K cause (commandWord i) s)
  | configured (rate : Operand) (spsWord : Word) : s.fault = false → configurationValid K rate spsWord = true →
      CommandEffect K s (.configure rate spsWord) (configureEffect K rate (numberOfWord K spsWord) s)
  | sampled (tsLo tsHi : Word) (data : List Word) : s.fault = false → s.configured = true →
      CommandEffect K s (.samples tsLo tsHi data) (samplesEffect K tsLo tsHi (data.map (numberOfWord K)) s)
  | flushed : s.fault = false → s.configured = true → CommandEffect K s (.flush 0#24) (flushEffect K s)
  | wasReset : CommandEffect K s (.reset 0#24) (resetEffect K s)
  | responded (addr : BitVec 8) (v : ω) : CommandEffect K s (.readReg 0#16 addr) (State.emit K (.resp addr v) s)

/-- A command word that only raises a fault raises it or is ignored. -/
theorem raiseOnly_effect [DecidableEq α] {i : Instr} {s : State.Over α ω} (cause : FaultCause) :
    CommandEffect K s i (raiseOnly K cause (commandWord i) s) := by
  rcases raiseOnly_cases (K := K) cause (commandWord i) s with ⟨fault, e⟩ | ⟨clear, e⟩ <;> rw [e]
  · exact .ignored i fault
  · exact .raised i cause clear

/-- The fault gate before a command leaves it to what it does unfaulted. -/
theorem faultGate_effect [DecidableEq α] {i : Instr} {s : State.Over α ω} {act : State.Over α ω → State.Over α ω}
    (h : s.fault = false → CommandEffect K s i (act s)) : CommandEffect K s i (faultGate act s) := by
  rcases faultGate_cases act s with ⟨fault, e⟩ | ⟨clear, e⟩ <;> rw [e]
  · exact .ignored i fault
  · exact h clear

/-- Every command has one of these effects. -/
theorem runCommand_effect [DecidableEq α] (i : Instr) (s : State.Over α ω) : CommandEffect K s i (runCommand K i s) := by
  rcases runCommand_cases K i s with ⟨rate, spsWord, rfl⟩ | ⟨tsLo, tsHi, data, rfl⟩ | ⟨x, rfl⟩ | ⟨x, rfl⟩
    | ⟨reserved, addr, rfl⟩ | ⟨-, e | e⟩
  case inl =>
    refine faultGate_effect fun clear => ?_
    rcases configureCommand_cases K rate spsWord s with ⟨valid, e⟩ | ⟨-, e⟩ <;> rw [e]
    · exact .configured rate spsWord clear valid
    · exact .raised _ _ clear
  case inr.inl =>
    refine faultGate_effect fun clear => ?_
    rcases samplesCommand_cases K tsLo tsHi data s with ⟨configured, -, e⟩ | ⟨-, -, e⟩ | ⟨-, e⟩ <;> rw [e]
    · exact .sampled tsLo tsHi data clear configured
    · exact .raised _ _ clear
    · exact .raised _ _ clear
  case inr.inr.inl =>
    refine faultGate_effect fun clear => ?_
    rcases flushCommand_cases K x s with ⟨rfl, configured, e⟩ | ⟨-, -, e⟩ | ⟨-, e⟩ <;> rw [e]
    · exact .flushed clear configured
    · exact .raised _ _ clear
    · exact .raised _ _ clear
  case inr.inr.inr.inl =>
    show CommandEffect K s _ (runReset K x s)
    rcases runReset_cases K x s with ⟨rfl, e⟩ | ⟨-, e⟩ <;> rw [e]
    · exact .wasReset
    · exact raiseOnly_effect _
  case inr.inr.inr.inr.inl =>
    show CommandEffect K s _ (runReadReg K reserved addr s)
    rcases runReadReg_cases K reserved addr s with ⟨rfl, v, -, e⟩ | ⟨rfl, -, e⟩ | ⟨-, e⟩ <;> rw [e]
    · exact .responded addr v
    · exact raiseOnly_effect _
    · exact raiseOnly_effect _
  all_goals rw [e]; exact raiseOnly_effect _

/-- What a command of the machine leads to has one of these effects. -/
theorem exec_effect {i : Instr} {s t : State} (h : exec i s = .next t) : CommandEffect words32 s i t := by
  rw [exec_eq] at h
  cases h
  exact runCommand_effect i s

/-- Every step waits, or has one of these effects on the state without the words of its command. -/
theorem runStep_effect [DecidableEq α] (s : State.Over α ω) :
    runStep K s = s ∨ ∃ i rest, decode s.input = .command i rest
      ∧ CommandEffect K (State.withInput rest s) i (runStep K s) := by
  rcases runStep_cases K s with ⟨_, -, e⟩ | ⟨i, rest, hd, e⟩ <;> rw [e]
  · exact .inl rfl
  · exact .inr ⟨i, rest, hd, runCommand_effect i _⟩

/-! ### The fault state (R47, R320) -/

theorem FaultCause.code_named (cause : FaultCause) : 1 ≤ cause.code.toNat ∧ cause.code.toNat ≤ 7 := by
  cases cause <;> decide

/-- What a command does to the fault state. -/
theorem CommandEffect.fault_state {i : Instr} {s t : State} (h : CommandEffect words32 s i t) :
    (t.fault = s.fault ∧ t.faultCode = s.faultCode ∧ t.faultInfo = s.faultInfo)
      ∨ (s.fault = false ∧ ∃ code : BitVec 8, 1 ≤ code.toNat ∧ code.toNat ≤ 7 ∧ t = State.faulted code (commandWord i) s)
      ∨ (i = .reset 0#24 ∧ t.fault = false ∧ t.faultCode = 0#8 ∧ t.faultInfo = 0#32) := by
  have kept {u : State} (setup : State.SameSetup s u) :
      u.fault = s.fault ∧ u.faultCode = s.faultCode ∧ u.faultInfo = s.faultInfo :=
    ⟨setup.fault, setup.faultCode, setup.faultInfo⟩
  cases h with
  | ignored => exact .inl ⟨rfl, rfl, rfl⟩
  | raised _ cause clear =>
    exact .inr (.inl ⟨clear, cause.code, cause.code_named.1, cause.code_named.2, raiseFault_eq cause _ s⟩)
  | configured => exact .inl ⟨rfl, rfl, rfl⟩
  | sampled tsLo tsHi data => exact .inl (kept (samplesEffect_setup tsLo tsHi _ s))
  | flushed => exact .inl (kept (flushEffect_setup s))
  | wasReset => exact .inr (.inr ⟨rfl, rfl, rfl, rfl⟩)
  | responded => exact .inl ⟨rfl, rfl, rfl⟩

/-- Settles O12: of the effects of a command only fault entry and RESET write the fault state. -/
theorem faultStateWriters : Obligations.FaultStateWriters :=
  ⟨fun _ _ _ h => (exec_effect h).fault_state, fun s => ⟨resetEffect words32 s, rfl, rfl, rfl, rfl⟩,
    fun _ => ⟨rfl, rfl, rfl⟩⟩

/-! ### The configuration and the parameters (R5, R32, R33) -/

/-- A rate that CONFIGURE accepts, as the word that SYMBOL_RATE reads as (R113). -/
theorem symbolRateOf_spec {rate : Operand} (h : rate ≠ 0#24) :
    symbolRateOf rate = 0#8 ++ rate ∧ 1 ≤ (symbolRateOf rate).toNat ∧ (symbolRateOf rate).toNat ≤ 2 ^ 24 - 1 := by
  have := rate.isLt
  have : (symbolRateOf rate).toNat = rate.toNat := by simp [symbolRateOf]; omega
  have : rate.toNat ≠ 0 := fun e => h (BitVec.eq_of_toNat_eq e)
  refine ⟨BitVec.eq_of_toNat_eq ?_, by omega, by omega⟩
  rw [toNat_append_eq]
  simp
  omega

/-- What a command does to the parameters and the configuration. -/
theorem CommandEffect.configuration {i : Instr} {s t : State} (h : CommandEffect words32 s i t) :
    t.params = s.params
      ∧ ((t.configured = s.configured ∧ t.sps = s.sps ∧ t.symbolRate = s.symbolRate
          ∧ t.gainInitial = s.gainInitial ∧ t.gainMin = s.gainMin ∧ t.gainMax = s.gainMax)
        ∨ ∃ (rate : Operand) (sps : Word), i = .configure rate sps
          ∧ t.configured = true ∧ t.sps = sps ∧ t.symbolRate = 0#8 ++ rate
          ∧ 1 ≤ t.symbolRate.toNat ∧ t.symbolRate.toNat ≤ 2 ^ 24 - 1) := by
  have kept {u : State} (setup : State.SameSetup s u) : u.params = s.params ∧ u.configured = s.configured
      ∧ u.sps = s.sps ∧ u.symbolRate = s.symbolRate ∧ u.gainInitial = s.gainInitial ∧ u.gainMin = s.gainMin
      ∧ u.gainMax = s.gainMax :=
    ⟨setup.params, setup.configured, setup.sps, setup.symbolRate, setup.gainInitial, setup.gainMin, setup.gainMax⟩
  cases h with
  | configured rate sps _ valid =>
    have nonzero : rate ≠ 0#24 := by
      simp only [configurationValid, Bool.and_eq_true, decide_eq_true_eq] at valid
      exact valid.1.1.1
    exact ⟨rfl, .inr ⟨rate, sps, rfl, rfl, rfl, symbolRateOf_spec nonzero⟩⟩
  | sampled tsLo tsHi data => exact (kept (samplesEffect_setup tsLo tsHi _ s)).imp_right .inl
  | flushed => exact (kept (flushEffect_setup s)).imp_right .inl
  | ignored | raised | wasReset | responded => exact ⟨rfl, .inl ⟨rfl, rfl, rfl, rfl, rfl, rfl⟩⟩

/-- Settles O59: of the effects of a command only CONFIGURE's writes the configuration, and none the parameters. -/
theorem setupWriters : Obligations.SetupWriters :=
  ⟨fun _ _ _ h => (exec_effect h).configuration, fun _ => ⟨rfl, rfl, rfl⟩⟩

/-! ### STATUS (R48, R50) -/

@[simp] theorem bitOf_getElem_zero (b : Bool) : (bitOf b)[0] = b := by cases b <;> rfl

/-- Settles O16: the concatenation that STATUS is, peeled from its last field to the one in question. -/
theorem statusBits : Obligations.StatusBits := by
  intro s
  refine ⟨?configured, ?synchronized, ?fault, ?assembling, ?prebiased, ?control, ?gap, ?code, ?high⟩
  case gap | code =>
    rw [statusWord]
    repeat rw [BitVec.extractLsb'_append_eq_of_le (by decide)]
    rw [BitVec.extractLsb'_append_eq_of_add_le (by decide)]
    simp
  case high =>
    rw [statusWord]
    repeat rw [BitVec.extractLsb'_append_eq_of_le (by decide)]
    simp
  all_goals
    rw [statusWord]
    repeat rw [BitVec.getLsbD_append]
    simp

end Sys2Proof.Machine
end

section
/-! The configuration that CONFIGURE accepts at binary32 (R291) as bounds on the pattern, and the order of the gain limits that
it computes (R153). -/

namespace Sys2Proof.Machine

/-! ### Finite patterns and their order -/

theorem F32.key_eq_toNat {v : F32} (h : v.toNat < 2 ^ 31) : F32.key v = v.toNat := by
  rw [F32.key, F32.sign_eq, F32.abs_toNat, decide_eq_false (not_le.2 h), Nat.mod_eq_of_lt h]
  rfl

/-- A pattern with a positive key is that key. -/
theorem F32.toNat_lt_of_key_pos {v : F32} (h : 0 < F32.key v) : v.toNat < 2 ^ 31 := by
  by_contra negative
  rw [F32.key, F32.sign_eq, decide_eq_true (not_lt.1 negative), if_pos rfl] at h
  omega

theorem F32.not_lt_iff {a b : F32} (ha : F32.isFinite a = true) (hb : F32.isFinite b = true) :
    F32.lt a b = false ↔ F32.key b ≤ F32.key a := by
  simp [F32.lt, F32.not_isNaN_of_isFinite ha, F32.not_isNaN_of_isFinite hb]

/-- CONFIGURE accepts a rate above 0 and the patterns from that of 2.0 to that of 32.0 (R291). -/
theorem configurationValid_iff (rate : Operand) (sps : Word) :
    configurationValid words32 rate sps = true ↔ rate ≠ 0#24 ∧ 0x40000000 ≤ sps.toNat ∧ sps.toNat ≤ 0x42000000 := by
  have finite_min : F32.isFinite 0x40000000#32 = true := by decide
  have finite_max : F32.isFinite 0x42000000#32 = true := by decide
  have key_min : F32.key 0x40000000#32 = 0x40000000 := by decide
  have key_max : F32.key 0x42000000#32 = 0x42000000 := by decide
  have unfolded : configurationValid words32 rate sps = true ↔
      ((rate ≠ 0#24 ∧ F32.isFinite sps = true) ∧ F32.lt sps 0x40000000#32 = false) ∧ F32.lt 0x42000000#32 sps = false := by
    simp [configurationValid, binary32, binary32Const]
  rw [unfolded]
  constructor
  · rintro ⟨⟨⟨nonzero, finite⟩, low⟩, high⟩
    rw [F32.not_lt_iff finite finite_min, key_min] at low
    rw [F32.not_lt_iff finite_max finite, key_max] at high
    have key := F32.key_eq_toNat (F32.toNat_lt_of_key_pos (v := sps) (by omega))
    exact ⟨nonzero, by omega, by omega⟩
  · rintro ⟨nonzero, low, high⟩
    have finite : F32.isFinite sps = true := by rw [F32.isFinite_iff, F32.expField_eq]; omega
    rw [F32.not_lt_iff finite finite_min, F32.not_lt_iff finite_max finite, key_min, key_max,
      F32.key_eq_toNat (by omega)]
    exact ⟨⟨⟨nonzero, finite⟩, by omega⟩, by omega⟩

/-- The patterns from that of 2.0 to that of 32.0 are finite and stand for the numbers between. -/
theorem sps_finite_value {sps : F32} (low : 0x40000000 ≤ sps.toNat) (high : sps.toNat ≤ 0x42000000) :
    F32.isFinite sps = true ∧ 2 ≤ F32.value sps ∧ F32.value sps ≤ 32 := by
  have value_min : F32.value 0x40000000#32 = 2 := by decide +kernel
  have value_max : F32.value 0x42000000#32 = 32 := by decide +kernel
  have key := F32.key_eq_toNat (v := sps) (by omega)
  refine ⟨by rw [F32.isFinite_iff, F32.expField_eq]; omega, ?_, ?_⟩
  · rw [← value_min, F32.value_le_iff, key]
    exact (by decide : F32.key 0x40000000#32 = 0x40000000) ▸ by omega
  · rw [← value_max, F32.value_le_iff, key]
    exact (by decide : F32.key 0x42000000#32 = 0x42000000) ▸ by omega

/-! ### Rounding keeps the order -/

/-- The patterns nearest to two numbers are in the order of the numbers. -/
theorem F32.Nearest.value_le {v w : F32} {x y : ℝ} (hv : F32.Nearest v x) (hw : F32.Nearest w y) (h : x < y) :
    F32.value v ≤ F32.value w := by
  by_contra above
  have gap : (F32.value w : ℝ) < F32.value v := by exact_mod_cast not_le.1 above
  have fromV := sq_le_sq.2 (hv.2 w hw.1).1
  have fromW := sq_le_sq.2 (hw.2 v hv.1).1
  nlinarith

/-- Products with a positive factor are in the order of the other factors. -/
theorem F32.mul_le_mul_right {a b c : F32} (ha : F32.isFinite a = true) (hb : F32.isFinite b = true)
    (hc : F32.isFinite c = true) (nonneg : 0 ≤ F32.value a) (lt : F32.value a < F32.value b) (pos : 0 < F32.value c)
    (small : F32.value b * F32.value c ≤ 64) : F32.le (F32.mul a c) (F32.mul b c) = true := by
  have nonnegR : (0 : ℝ) ≤ F32.value a := by exact_mod_cast nonneg
  have ltR : (F32.value a : ℝ) < F32.value b := by exact_mod_cast lt
  have posR : (0 : ℝ) < F32.value c := by exact_mod_cast pos
  have smallR : (F32.value b : ℝ) * F32.value c ≤ 64 := by exact_mod_cast small
  have products : (F32.value a : ℝ) * F32.value c < F32.value b * F32.value c := mul_lt_mul_of_pos_right ltR posR
  have bound : (64 : ℝ) < 2 ^ 128 - 2 ^ 103 := by norm_num
  have nearest_a := F32.mul_nearest ha hc (by rw [abs_of_nonneg (mul_nonneg nonnegR posR.le)]; linarith)
  have nearest_b := F32.mul_nearest hb hc (by rw [abs_of_nonneg (by nlinarith)]; linarith)
  rw [(F32.compare_floor nearest_a.1 nearest_b.1).2.1]
  exact nearest_a.value_le nearest_b products

/-! ### The gain limits (R153) -/

/-- The ratio of an accepted SPS to GAIN_REF_SPS is from a quarter to 8. -/
theorem gainRatio_bounds {sps : F32} (low : 0x40000000 ≤ sps.toNat) (high : sps.toNat ≤ 0x42000000) :
    F32.isFinite (F32.div sps 0x40A6A7F0#32) = true ∧ 1 / 4 ≤ F32.value (F32.div sps 0x40A6A7F0#32)
      ∧ F32.value (F32.div sps 0x40A6A7F0#32) ≤ 8 := by
  obtain ⟨finite, two_le, le_max⟩ := sps_finite_value low high
  have two_leR : (2 : ℝ) ≤ F32.value sps := by exact_mod_cast two_le
  have le_maxR : (F32.value sps : ℝ) ≤ 32 := by exact_mod_cast le_max
  have ref : 5 < F32.value 0x40A6A7F0#32 ∧ F32.value 0x40A6A7F0#32 < 6 := by decide +kernel
  have five_lt : (5 : ℝ) < F32.value 0x40A6A7F0#32 := by exact_mod_cast ref.1
  have lt_six : (F32.value 0x40A6A7F0#32 : ℝ) < 6 := by exact_mod_cast ref.2
  have above : (1 / 4 : ℝ) < F32.value sps / F32.value 0x40A6A7F0#32 := by rw [lt_div_iff₀] <;> linarith
  have below : (F32.value sps : ℝ) / F32.value 0x40A6A7F0#32 < 8 := by rw [div_lt_iff₀] <;> linarith
  have nearest := F32.div_nearest finite (by decide) (by linarith [ref.1] : F32.value 0x40A6A7F0#32 ≠ 0)
    (by rw [abs_of_pos (by linarith)]; linarith [show (8 : ℝ) < 2 ^ 128 - 2 ^ 103 by norm_num])
  have quarter : F32.value 0x3E800000#32 = 1 / 4 := by decide +kernel
  have eight : F32.value 0x41000000#32 = 8 := by decide +kernel
  refine ⟨nearest.1, ?_, ?_⟩
  · rw [← quarter]
    exact (F32.nearest_of_eq (x := 1 / 4) (by decide) (by rw [quarter]; norm_num)).value_le nearest above
  · rw [← eight]
    exact nearest.value_le (F32.nearest_of_eq (x := 8) (by decide) (by rw [eight]; norm_num)) below

/-- The limits as products of constants with the ratio. -/
theorem gainLimits_binary32 (sps : F32) : gainLimits binary32 sps =
    { initial := F32.mul 0x40B66666#32 (F32.div sps 0x40A6A7F0#32)
      min := F32.mul 0x40A66666#32 (F32.div sps 0x40A6A7F0#32)
      max := F32.mul 0x40C66666#32 (F32.div sps 0x40A6A7F0#32) } := by
  have least : F32.sub 0x40B66666#32 0x3F000000#32 = 0x40A66666#32 := by decide +kernel
  have greatest : F32.add 0x40B66666#32 0x3F000000#32 = 0x40C66666#32 := by decide +kernel
  rw [← least, ← greatest]
  rfl

/-- The limits that EQ_CONFIGURE computes are in order for every accepted SPS. -/
theorem gainLimits_ordered {sps : F32} (low : 0x40000000 ≤ sps.toNat) (high : sps.toNat ≤ 0x42000000) :
    F32.le (gainLimits binary32 sps).min (gainLimits binary32 sps).initial = true
      ∧ F32.le (gainLimits binary32 sps).initial (gainLimits binary32 sps).max = true := by
  obtain ⟨finite, quarter_le, le_eight⟩ := gainRatio_bounds low high
  have order : 0 ≤ F32.value 0x40A66666#32 ∧ F32.value 0x40A66666#32 < F32.value 0x40B66666#32
      ∧ F32.value 0x40B66666#32 < F32.value 0x40C66666#32 ∧ F32.value 0x40C66666#32 ≤ 7 := by decide +kernel
  obtain ⟨nonneg, lower, upper, le_seven⟩ := order
  rw [gainLimits_binary32]
  exact ⟨F32.mul_le_mul_right (by decide) (by decide) finite nonneg lower (by linarith) (by nlinarith),
    F32.mul_le_mul_right (by decide) (by decide) finite (nonneg.trans lower.le) upper (by linarith) (by nlinarith)⟩

end Sys2Proof.Machine
end

section
/-! The clamps of the balance and of the gain (R33 to R35), for every reading whose comparisons order its clamps. -/

namespace Sys2Proof.Machine

variable {α ω : Type} {K : Reading α ω} {s t : State.Over α ω}

/-! ### What the framer and the recording keep of the corrections, and what EQ_APPLY writes of them -/

theorem opFramerSync_corrections (s : State.Over α ω) :
    (opFramerSync K s).balance = s.balance ∧ (opFramerSync K s).gain = s.gain := by
  rcases opFramerSync_cases K s with ⟨-, e⟩ | ⟨-, e⟩ <;> rw [e] <;> exact ⟨rfl, rfl⟩

theorem opFramerDibit_corrections (d : Dibit) (s : State.Over α ω) :
    (opFramerDibit K d s).balance = s.balance ∧ (opFramerDibit K d s).gain = s.gain := by
  rcases opFramerDibit_cases K d s with ⟨-, e⟩ | ⟨-, -, e⟩ | ⟨-, -, -, e⟩ | ⟨-, -, -, e⟩ <;> rw [e] <;> exact ⟨rfl, rfl⟩

theorem packDibit_corrections (d : Dibit) (s : State.Over α ω) :
    (packDibit K d s).balance = s.balance ∧ (packDibit K d s).gain = s.gain := by
  rcases packDibit_cases K d s with ⟨-, e⟩ | ⟨-, e⟩ <;> rw [e] <;> exact ⟨rfl, rfl⟩

theorem opRecordPush_corrections (d : Dibit) (s : State.Over α ω) :
    (opRecordPush K d s).balance = s.balance ∧ (opRecordPush K d s).gain = s.gain := by
  rcases opRecordPush_cases K d s with ⟨-, e⟩ | ⟨-, -, e⟩ | ⟨-, -, e⟩ <;> rw [e]
  · exact ⟨rfl, rfl⟩
  · exact ⟨rfl, rfl⟩
  · exact packDibit_corrections _ _

theorem flushEffect_corrections (s : State.Over α ω) :
    (flushEffect K s).balance = s.balance ∧ (flushEffect K s).gain = s.gain := by
  rcases flushEffect_cases K s with ⟨-, e⟩ | ⟨-, e⟩ <;> rw [e] <;> exact ⟨rfl, rfl⟩

/-- EQ_APPLY clamps the balance; the gain it clamps or, on a recalibration, restores (R155). -/
theorem opEqApply_corrections (c : Correction α) (s : State.Over α ω) :
    (opEqApply K c s).1.balance = appliedBalance K.num s.synchronized s.balance c.balAdj
      ∧ ((opEqApply K c s).1.gain = appliedGain K.num s.synchronized s.gain c.gainAdj s.gainMin s.gainMax
        ∨ (opEqApply K c s).1.gain = s.gainInitial) := by
  unfold opEqApply
  dsimp only
  split
  · exact ⟨rfl, .inr rfl⟩
  · exact ⟨rfl, .inl rfl⟩

theorem opPrebias_gain (vs : List α) (s : State.Over α ω) : (opPrebias K vs s).gain = s.gain := by
  rcases opPrebias_cases K vs s with ⟨-, e⟩ | ⟨-, -, b, e, -⟩ <;> rw [e]

/-! ### The two invariants -/

/-- No comparison finds `v` below `lo` or above `hi`. -/
def Within (N : Numerics α) (v lo hi : α) : Prop := N.lt v lo = false ∧ N.lt hi v = false

/-- The balance is within its limits (R34). -/
def BalanceWithin (K : Reading α ω) (s : State.Over α ω) : Prop :=
  Within K.num s.balance (K.num.neg (K.num.const .balanceLimit)) (K.num.const .balanceLimit)

/-- Gain limits in order (R33). -/
def LimitsOrdered (N : Numerics α) (lo initial hi : α) : Prop := N.le lo initial = true ∧ N.le initial hi = true

/-- Once configured, the gain is within its limits, which are in order (R33, R35). -/
def GainWithin (K : Reading α ω) (s : State.Over α ω) : Prop :=
  s.configured = true →
    Within K.num s.gain s.gainMin s.gainMax ∧ LimitsOrdered K.num s.gainMin s.gainInitial s.gainMax

theorem BalanceWithin.congr (h : BalanceWithin K s) (balance : t.balance = s.balance) : BalanceWithin K t := by
  rwa [BalanceWithin, balance]

theorem GainWithin.congr (h : GainWithin K s) (setup : State.SameSetup s t) (gain : t.gain = s.gain) :
    GainWithin K t := by
  rwa [GainWithin, setup.configured, setup.gainMin, setup.gainMax, setup.gainInitial, gain]

/-- What a reading needs for its clamps to hold: `clamp` answers within limits in order, the limits of the balance are on the
two sides of zero, and those of the gain are in order at every accepted SPS. -/
structure ClampOrder (K : Reading α ω) : Prop where
  clamp_within : ∀ (v) {lo hi}, K.num.lt hi lo = false → Within K.num (clamp K.num v lo hi) lo hi
  not_lt_of_le : ∀ {a b}, K.num.le a b = true → K.num.lt b a = false
  le_trans : ∀ {a b c}, K.num.le a b = true → K.num.le b c = true → K.num.le a c = true
  limit_neg_le : K.num.le (K.num.neg (K.num.const .balanceLimit)) (K.num.const .zero) = true
  le_limit : K.num.le (K.num.const .zero) (K.num.const .balanceLimit) = true
  gainLimits : ∀ {rate spsWord}, configurationValid K rate spsWord = true →
    LimitsOrdered K.num (gainLimits K.num (numberOfWord K spsWord)).min
      (gainLimits K.num (numberOfWord K spsWord)).initial (gainLimits K.num (numberOfWord K spsWord)).max

namespace ClampOrder

variable (order : ClampOrder K)
include order

theorem within_of_le {v lo hi : α} (low : K.num.le lo v = true) (high : K.num.le v hi = true) : Within K.num v lo hi :=
  ⟨order.not_lt_of_le low, order.not_lt_of_le high⟩

theorem balance_zero : Within K.num (K.num.const .zero) (K.num.neg (K.num.const .balanceLimit))
    (K.num.const .balanceLimit) :=
  order.within_of_le order.limit_neg_le order.le_limit

theorem balance_clamp (v : α) :
    Within K.num (clamp K.num v (K.num.neg (K.num.const .balanceLimit)) (K.num.const .balanceLimit))
      (K.num.neg (K.num.const .balanceLimit)) (K.num.const .balanceLimit) :=
  order.clamp_within v (order.not_lt_of_le (order.le_trans order.limit_neg_le order.le_limit))

theorem gain_clamp (v : α) {lo initial hi : α} (h : LimitsOrdered K.num lo initial hi) :
    Within K.num (clamp K.num v lo hi) lo hi :=
  order.clamp_within v (order.not_lt_of_le (order.le_trans h.1 h.2))

/-! ### Every operation keeps them -/

theorem balanceWithin_invariant : SampleInvariant K (BalanceWithin K) where
  inert h e := h.congr (congrArg State.Over.balance e :)
  framerSync h := h.congr (opFramerSync_corrections _).1
  framerDibit d _ h := h.congr (opFramerDibit_corrections d _).1
  recordPush d _ h := h.congr (opRecordPush_corrections d _).1
  pushHistories _ _ _ _ h := h
  eqApply c s _ := by
    rw [BalanceWithin, (opEqApply_corrections c s).1]
    exact order.balance_clamp _
  eqReset h := h

theorem gainWithin_invariant : SampleInvariant K (GainWithin K) where
  inert h e := h.congr (SampleFrame.of_blanked e).setup (congrArg State.Over.gain e :)
  framerSync h := h.congr (opFramerSync_frame K _).setup (opFramerSync_corrections _).2
  framerDibit d _ h := h.congr (opFramerDibit_frame K d _).setup (opFramerDibit_corrections d _).2
  recordPush d _ h := h.congr (opRecordPush_frame K d _).setup (opRecordPush_corrections d _).2
  pushHistories _ _ _ _ h := h
  eqApply c s h := by
    have setup := (opEqApply_frame K c s).setup
    rw [GainWithin, setup.configured, setup.gainMin, setup.gainMax, setup.gainInitial]
    intro configured
    obtain ⟨-, limits⟩ := h configured
    refine ⟨?_, limits⟩
    rcases (opEqApply_corrections (K := K) c s).2 with e | e <;> rw [e]
    · exact order.gain_clamp _ limits
    · exact order.within_of_le limits.1 limits.2
  eqReset h configured := ⟨order.within_of_le (h configured).2.1 (h configured).2.2, (h configured).2⟩

theorem balanceWithin_prebias (vs : List α) (h : BalanceWithin K s) : BalanceWithin K (opPrebias K vs s) := by
  rcases opPrebias_cases K vs s with ⟨-, e⟩ | ⟨-, -, b, e, same | ⟨-, moved⟩⟩ <;> rw [e]
  · exact h
  · exact h.congr same
  · rw [BalanceWithin, moved]
    exact order.balance_clamp _

theorem balanceWithin_command [DecidableEq α] {i : Instr} (effect : CommandEffect K s i t) (h : BalanceWithin K s) :
    BalanceWithin K t := by
  cases effect with
  | ignored | raised | responded => exact h
  | configured | wasReset => exact order.balance_zero
  | sampled tsLo tsHi data =>
    have stamped : BalanceWithin K (takeTimestamp tsLo tsHi s) := h
    exact order.balanceWithin_invariant.processPending (fun h => h)
      (histAppendAll_induct (fun _ _ h => h) _ (order.balanceWithin_prebias _ stamped))
  | flushed => exact h.congr (flushEffect_corrections s).1

theorem gainWithin_command [DecidableEq α] {i : Instr} (effect : CommandEffect K s i t) (h : GainWithin K s) :
    GainWithin K t := by
  cases effect with
  | ignored | raised | responded => exact h
  | configured rate spsWord _ valid =>
    have limits := order.gainLimits valid
    exact fun _ => ⟨order.within_of_le limits.1 limits.2, limits⟩
  | wasReset => exact fun configured => ⟨order.within_of_le (h configured).2.1 (h configured).2.2, (h configured).2⟩
  | sampled tsLo tsHi data =>
    have stamped : GainWithin K (takeTimestamp tsLo tsHi s) := h
    exact order.gainWithin_invariant.processPending (fun h => h)
      (histAppendAll_induct (fun _ _ h => h) _ (stamped.congr (opPrebias_frame _ _).setup (opPrebias_gain _ _)))
  | flushed => exact h.congr (flushEffect_setup s) (flushEffect_corrections s).2

theorem balanceWithin_step [DecidableEq α] (h : BalanceWithin K s) : BalanceWithin K (runStep K s) := by
  rcases runStep_effect (K := K) s with e | ⟨i, rest, -, effect⟩
  · rwa [e]
  · exact order.balanceWithin_command effect h

theorem gainWithin_step [DecidableEq α] (h : GainWithin K s) : GainWithin K (runStep K s) := by
  rcases runStep_effect (K := K) s with e | ⟨i, rest, -, effect⟩
  · rwa [e]
  · exact order.gainWithin_command effect h

end ClampOrder

/-! ### The two readings -/

theorem clampOrder_words32 : ClampOrder words32 where
  clamp_within _ _ _ h := clamp_within h
  not_lt_of_le := F32.not_lt_of_le
  le_trans := F32.le_trans
  limit_neg_le := by decide
  le_limit := by decide
  gainLimits valid := by
    obtain ⟨-, low, high⟩ := (configurationValid_iff _ _).1 valid
    exact gainLimits_ordered low high

theorem real_within {v lo hi : ℝ} : Within realNumerics v lo hi ↔ lo ≤ v ∧ v ≤ hi := by simp [Within]

theorem real_limitsOrdered {lo initial hi : ℝ} : LimitsOrdered realNumerics lo initial hi ↔ lo ≤ initial ∧ initial ≤ hi := by
  simp [LimitsOrdered]

/-- Over the reals the limits are multiples of an SPS of at least 2. -/
theorem real_gainLimits_ordered {rate : Operand} {spsWord : Word} (valid : configurationValid reals rate spsWord = true) :
    LimitsOrdered realNumerics (gainLimits realNumerics (numberOfWord reals spsWord)).min
      (gainLimits realNumerics (numberOfWord reals spsWord)).initial
      (gainLimits realNumerics (numberOfWord reals spsWord)).max := by
  have two_le : 2 ≤ numberOfWord reals spsWord := by
    simp only [configurationValid, reals_num, Bool.and_eq_true, Bool.not_eq_true', realNumerics_not_lt] at valid
    exact valid.1.2
  have ratio : 0 ≤ numberOfWord reals spsWord / 5.208 := by positivity
  rw [real_limitsOrdered]
  simp only [gainLimits, realNumerics_mul, realNumerics_sub, realNumerics_add, realNumerics_div, realNumerics_const,
    realConst]
  constructor <;> gcongr <;> norm_num

theorem clampOrder_reals : ClampOrder reals where
  clamp_within v lo hi h := real_within.2 (real_clamp_within v ((realNumerics_not_lt _ _).1 h))
  not_lt_of_le h := (realNumerics_not_lt _ _).2 ((realNumerics_le _ _).1 h)
  le_trans h k := (realNumerics_le _ _).2 (((realNumerics_le _ _).1 h).trans ((realNumerics_le _ _).1 k))
  limit_neg_le := by
    simp only [reals_num, realNumerics_le, realNumerics_neg, realNumerics_const, realConst]
    linarith [Real.pi_pos]
  le_limit := by
    simp only [reals_num, realNumerics_le, realNumerics_const, realConst]
    linarith [Real.pi_pos]
  gainLimits := real_gainLimits_ordered

theorem balanceKept_iff (s : State) : s.BalanceKept ↔ BalanceWithin words32 s := Iff.rfl

theorem gainKept_iff (s : State) : s.GainKept ↔ GainWithin words32 s := by
  simp [State.GainKept, GainWithin, Within, LimitsOrdered, and_assoc, binary32]

theorem real_balanceKept_iff (b : RealState) : RealState.BalanceKept b ↔ BalanceWithin reals b := real_within.symm

theorem real_gainKept_iff (b : RealState) : RealState.GainKept b ↔ GainWithin reals b := by
  simp [RealState.GainKept, GainWithin, real_within, real_limitsOrdered, and_assoc]

/-- Settles O58: one walk over the effects of a command, for every reading whose comparisons order its clamps. -/
theorem stepKeepsClamps : Obligations.StepKeepsClamps := by
  refine ⟨fun s t h => ?_, fun b => ?_⟩
  · obtain rfl : runStep words32 s = t := by simpa [step_eq] using h
    rw [balanceKept_iff, balanceKept_iff, gainKept_iff, gainKept_iff]
    exact ⟨rfl, clampOrder_words32.balanceWithin_step, clampOrder_words32.gainWithin_step⟩
  · rw [real_balanceKept_iff, real_balanceKept_iff, real_gainKept_iff, real_gainKept_iff]
    exact ⟨clampOrder_reals.balanceWithin_step, clampOrder_reals.gainWithin_step⟩

end Sys2Proof.Machine
end

section
/-! The bookkeeping invariant along a step (R5, R32, R40, R44, R45, R47, R81, R261, R320). -/

namespace Sys2Proof.Machine

/-! ### Along the operations of a sample -/

/-- The invariant does not speak of the input or of the working fields. -/
theorem kept_blanked_iff (s : State) : State.Kept ((State.withInput [] s).blanked words32) ↔ s.Kept :=
  ⟨fun h => { h with }, fun h => { h with }⟩

theorem State.Kept.of_blanked {s t : State} (h : s.Kept)
    (e : (State.withInput [] t).blanked words32 = (State.withInput [] s).blanked words32) : t.Kept := by
  rw [← kept_blanked_iff, e, kept_blanked_iff]
  exact h

/-- What the bounds of the assembler and of the histories need of legal parameters (R5). -/
theorem Params.bounds_of_legal {c : Params} (h : c.legal = true) :
    1 ≤ c.len ∧ c.frameBits % 2 = 0 ∧ 2 ≤ c.frameBits := by
  simp only [Params.legal, Bool.and_eq_true, decide_eq_true_eq] at h
  tauto

/-- A history that drops its oldest entry for a new one keeps its length. -/
theorem length_drop_one_append {β : Type} {l : List β} {n : Nat} (h : l.length = n) (pos : 1 ≤ n) (x : β) :
    (l.drop 1 ++ [x]).length = n := by
  simp only [List.length_append, List.length_drop, List.length_singleton]
  omega

namespace State.Kept

variable {s : State} (h : s.Kept)
include h

/-- An empty assembler fits either state of the framer of a configured block. -/
theorem assemblerEmptied (f : FramerState) (idle : s.configured = false → f = .idle) :
    State.Kept { s with framerState := f, asmBits := [] } := by
  obtain ⟨-, -, two_le⟩ := Params.bounds_of_legal h.legal
  exact { h with
    idleEmpty := fun _ => rfl
    assemblerOpen := Nat.lt_of_lt_of_le Nat.zero_lt_two two_le
    assemblerEven := rfl
    unconfigured := fun off => ⟨(h.unconfigured off).1, idle off⟩ }

theorem framerSync (configured : s.configured = true) : State.Kept (opFramerSync words32 s) := by
  have opened := h.assemblerEmptied .assembling (fun off => absurd configured (Bool.eq_false_iff.1 off))
  rcases opFramerSync_cases words32 s with ⟨-, e⟩ | ⟨-, e⟩ <;> rw [e]
  · exact opened.of_blanked rfl
  · exact opened

theorem framerDibit (configured : s.configured = true) (d : Dibit) : State.Kept (opFramerDibit words32 d s) := by
  obtain ⟨-, even, -⟩ := Params.bounds_of_legal h.legal
  have two_more : (s.asmBits ++ dibitBits d).length = s.asmBits.length + 2 := List.length_append
  have asmEven := h.assemblerEven
  rcases opFramerDibit_cases words32 d s with ⟨-, e⟩ | ⟨-, full, -⟩ | ⟨assembling, room, open_, e⟩ | ⟨-, -, -, e⟩
  · rw [e]
    exact h.of_blanked rfl
  · exact absurd h.assemblerOpen (not_lt.2 full)
  · rw [e]
    exact { h with
      idleEmpty := fun idle => absurd (assembling.symm.trans idle) (by decide)
      assemblerOpen := by show (s.asmBits ++ dibitBits d).length < s.params.frameBits; omega
      assemblerEven := by show (s.asmBits ++ dibitBits d).length % 2 = 0; omega
      unconfigured := fun off => absurd configured (Bool.eq_false_iff.1 off) }
  · rw [e]
    exact (h.assemblerEmptied .idle fun _ => rfl).of_blanked rfl

theorem packDibit (recording : s.params.recordEnable = true) (d : Dibit) : State.Kept (packDibit words32 d s) := by
  have atMost := h.packLength
  have on : ¬s.params.recordEnable = false := by simp [recording]
  rcases packDibit_cases words32 d s with ⟨-, e⟩ | ⟨notThree, e⟩ <;> rw [e]
  · exact { h with packLength := Nat.zero_le 3, recordingOff := fun off => absurd off on }
  · exact { h with
      packLength := by show (s.pack ++ [d]).length ≤ 3; simp; omega
      recordingOff := fun off => absurd off on }

theorem recordPush (d : Dibit) : State.Kept (opRecordPush words32 d s) := by
  rcases opRecordPush_cases words32 d s with ⟨-, e⟩ | ⟨recording, room, e⟩ | ⟨recording, -, e⟩ <;> rw [e]
  · exact h
  · exact { h with
      delayLength := room
      recordingOff := fun off => absurd recording (Bool.eq_false_iff.1 off) }
  · have passed : State.Kept { s with delayFifo := (s.delayFifo ++ [d]).drop 1 } :=
      { h with
        delayLength := by simpa using h.delayLength
        recordingOff := fun off => absurd recording (Bool.eq_false_iff.1 off) }
    exact passed.packDibit recording _

theorem pushHistories (soft : F32) (d : Dibit) (lag : F32) : State.Kept (pushHistories soft d lag s) := by
  obtain ⟨pos, -, -⟩ := Params.bounds_of_legal h.legal
  exact { h with
    softLength := length_drop_one_append h.softLength pos soft
    lagLength := length_drop_one_append h.lagLength pos lag
    hardLength := length_drop_one_append h.hardLength pos d }

theorem eqApply (c : Correction F32) : State.Kept (opEqApply words32 c s).1 := by
  unfold opEqApply
  dsimp only
  split <;> exact { h with }

theorem prebias (vs : List F32) : State.Kept (opPrebias words32 vs s) := by
  rcases opPrebias_cases words32 vs s with ⟨-, e⟩ | ⟨-, -, b, e, -⟩ <;> rw [e]
  · exact h
  · exact { h with }

theorem histAppend (configured : s.configured = true) (v : F32) : State.Kept (histAppend words32 v s) :=
  { h with
    historyCanonical := histAppend_wf (K := words32) h.historyCanonical v
    unconfigured := fun off => absurd configured (Bool.eq_false_iff.1 off) }

end State.Kept

/-- The invariant of a block that takes samples. -/
def State.ConfiguredKept (s : State) : Prop := s.configured = true ∧ s.Kept

theorem configuredKept_invariant : SampleInvariant words32 State.ConfiguredKept where
  inert h e := ⟨(SampleFrame.of_blanked e).setup.configured.trans h.1, h.2.of_blanked (congrArg (State.withInput []) e)⟩
  framerSync h := ⟨(opFramerSync_frame _ _).setup.configured.trans h.1, h.2.framerSync h.1⟩
  framerDibit d _ h := ⟨(opFramerDibit_frame _ d _).setup.configured.trans h.1, h.2.framerDibit h.1 d⟩
  recordPush d _ h := ⟨(opRecordPush_frame _ d _).setup.configured.trans h.1, h.2.recordPush d⟩
  pushHistories soft d lag _ h := ⟨h.1, h.2.pushHistories soft d lag⟩
  eqApply c _ h := ⟨(opEqApply_frame _ c _).setup.configured.trans h.1, h.2.eqApply c⟩
  eqReset h := ⟨h.1, { h.2 with }⟩

/-! ### Along the effects of a command -/

namespace State.Kept

variable {s : State} (h : s.Kept)
include h

theorem withInput (ws : List Word) : State.Kept (withInput ws s) := { h with }

theorem emit (record : Record F32 Word) : State.Kept (emit words32 record s) := { h with }

theorem raiseFault (cause : FaultCause) (w : Word) : State.Kept (raiseFault words32 cause w s) :=
  { h with
    faultClear := fun clear => Bool.noConfusion clear
    faultNamed := fun _ => cause.code_named }

theorem datapathReset : State.Kept (opDatapathReset words32 s) :=
  { h.assemblerEmptied .idle fun _ => rfl with
    historyCanonical := rfl
    softLength := List.length_replicate
    lagLength := List.length_replicate
    hardLength := List.length_replicate
    delayLength := Nat.zero_le _
    packLength := Nat.zero_le _
    recordingOff := fun _ => ⟨rfl, rfl⟩
    noOverflow := rfl
    unconfigured := fun _ => ⟨rfl, rfl⟩ }

theorem configureEffect {rate : Operand} {sps : Word} (valid : configurationValid words32 rate sps = true) :
    State.Kept (configureEffect words32 rate sps s) := by
  obtain ⟨nonzero, low, high⟩ := (configurationValid_iff rate sps).1 valid
  obtain ⟨-, one_le, below⟩ := symbolRateOf_spec nonzero
  have written : State.Kept
      { opEqConfigure words32 sps { s with sps := sps, symbolRate := symbolRateOf rate } with configured := true } :=
    { h with
      rateBelow := Nat.lt_of_le_pred (by decide) below
      configuredRate := fun _ zero => absurd (congrArg BitVec.toNat zero) (Nat.ne_of_gt one_le)
      configuredSps := fun _ => ⟨low, high⟩
      unconfigured := fun off => Bool.noConfusion off }
  exact written.datapathReset

theorem samplesEffect (configured : s.configured = true) (tsLo tsHi : Word) (vs : List F32) :
    State.Kept (samplesEffect words32 tsLo tsHi vs s) := by
  have stamped : State.Kept (takeTimestamp tsLo tsHi s) := h.of_blanked rfl
  have biased : State.ConfiguredKept (opPrebias words32 vs (takeTimestamp tsLo tsHi s)) :=
    ⟨(opPrebias_frame vs _).setup.configured.trans configured, stamped.prebias vs⟩
  have appended : State.ConfiguredKept (histAppendAll words32 vs (opPrebias words32 vs (takeTimestamp tsLo tsHi s))) :=
    histAppendAll_induct (fun v _ k => ⟨k.1, k.2.histAppend k.1 v⟩) vs biased
  exact (configuredKept_invariant.processPending (fun k => ⟨k.1, { k.2 with }⟩) appended).2

theorem flushEffect : State.Kept (flushEffect words32 s) := by
  rcases flushEffect_cases words32 s with ⟨-, e⟩ | ⟨-, e⟩ <;> rw [e]
  · exact (h.assemblerEmptied .idle fun _ => rfl).of_blanked rfl
  · exact h

theorem resetEffect : State.Kept (resetEffect words32 s) :=
  { h.datapathReset with
    faultClear := fun _ => ⟨rfl, rfl⟩
    faultNamed := fun fault => Bool.noConfusion fault }

theorem command {i : Instr} {t : State} (effect : CommandEffect words32 s i t) : t.Kept := by
  cases effect with
  | ignored => exact h
  | raised _ cause => exact h.raiseFault cause _
  | configured _ _ _ valid => exact h.configureEffect valid
  | sampled tsLo tsHi data _ configured => exact h.samplesEffect configured tsLo tsHi _
  | flushed => exact h.flushEffect
  | wasReset => exact h.resetEffect
  | responded addr v => exact h.emit _

theorem step : State.Kept (runStep words32 s) := by
  rcases runStep_effect (K := words32) s with e | ⟨i, rest, -, effect⟩
  · rwa [e]
  · exact (h.withInput rest).command effect

end State.Kept

/-- Settles O56: every effect of a command keeps the invariant, and SAMPLES's by one walk over its operations. -/
theorem stepKeepsBookkeeping : Obligations.StepKeepsBookkeeping := by
  intro s t kept h
  obtain rfl : runStep words32 s = t := by simpa [step_eq] using h
  exact kept.step

end Sys2Proof.Machine
end

section
/-! The history invariant along a step (R38, R81): `p` at most `r`, and a history of received samples only. -/

namespace Sys2Proof.Machine

/-! ### How many samples a command carries (R112, R129) -/

theorem decodeRange_ne_samples (w tsLo tsHi : Word) (data : List Word) : decodeRange w ≠ .samples tsLo tsHi data := by
  unfold decodeRange
  split_ifs <;> exact Instr.noConfusion

/-- Only the opcode of SAMPLES decodes to a SAMPLES, whose samples are the payload after its two timestamp words. -/
theorem decodeCommand_samples {w tsLo tsHi : Word} {payload data : List Word}
    (h : decodeCommand w payload = .samples tsLo tsHi data) : data = payload.drop 2 := by
  unfold decodeCommand at h
  dsimp only at h
  split at h <;> first | exact absurd h (decodeRange_ne_samples w tsLo tsHi data) | cases h
  rfl

theorem payloadLength_le (w : Word) : payloadLength w ≤ 2 + (operandOf w).toNat := by
  unfold payloadLength
  split <;> omega

/-- A SAMPLES on the input has fewer than 2^24 samples. -/
theorem decode_samples_length {ws rest data : List Word} {tsLo tsHi : Word}
    (h : decode ws = .command (.samples tsLo tsHi data) rest) : data.length < 2 ^ 24 := by
  cases ws with
  | nil => cases h
  | cons w ws =>
    simp only [decode] at h
    split at h
    · cases h
    · obtain ⟨command, -⟩ := Decoded.command.inj h
      have := payloadLength_le w
      have := (operandOf w).isLt
      rw [decodeCommand_samples command, List.length_drop, List.length_take]
      omega

/-! ### The look-ahead of an accepted SPS (R229) -/

theorem lookahead_nonneg {sps : F32} (low : 0x40000000 ≤ sps.toNat) (high : sps.toNat ≤ 0x42000000) :
    0 ≤ lookahead binary32 sps := by
  obtain ⟨finite, two_le, -⟩ := sps_finite_value low high
  have floor : F32.floor (F32.neg sps) ≤ 0 := by
    rw [F32.floor_eq (by rw [F32.isFinite_neg, finite]), F32.value_neg, ← Int.cast_le (R := ℚ), Int.cast_zero]
    exact (Int.floor_le _).trans (by linarith)
  show 0 ≤ -F32.floor (F32.neg sps) + 2
  omega

/-! ### The history along a SAMPLES -/

/-- The invariant speaks of the sample history and its two counters only. -/
theorem State.HistoryKept.congr {s t : State} (h : s.HistoryKept) (smp : t.smp = s.smp) (r : t.r = s.r) (p : t.p = s.p) :
    t.HistoryKept := by
  refine ⟨?_, ?_⟩
  · rw [smp, r]
    exact h.historyBelow
  · rw [p, r]
    exact h.processed

/-- A sample appended is below the new `r`, where that does not wrap (R297 (c)). -/
theorem State.HistoryKept.histAppend {s : State} (h : s.HistoryKept) (room : s.r.toNat + 1 < 2 ^ 64) (v : F32) :
    State.HistoryKept (histAppend words32 v s) := by
  have next : (s.r + 1#64).toNat = s.r.toNat + 1 := by
    rw [BitVec.toNat_add]
    exact Nat.mod_eq_of_lt room
  refine ⟨fun cell mem => ?_, ?_⟩
  · show cell.1 < (s.r + 1#64).toNat
    rcases Memory.mem_write mem with new | old
    · omega
    · have := h.historyBelow cell old
      omega
  · show s.p.toNat ≤ (s.r + 1#64).toNat
    have := h.processed
    omega

theorem State.HistoryKept.histAppendAll (vs : List F32) {s : State} (h : s.HistoryKept)
    (room : s.r.toNat + vs.length < 2 ^ 64) : State.HistoryKept (histAppendAll words32 vs s) := by
  induction vs generalizing s with
  | nil => exact h
  | cons v vs ih =>
    rw [List.length_cons] at room
    rw [histAppendAll_cons]
    refine ih (h.histAppend (by omega) v) ?_
    show (s.r + 1#64).toNat + vs.length < 2 ^ 64
    rw [BitVec.toNat_add]
    exact lt_of_le_of_lt (Nat.add_le_add_right (Nat.mod_le _ _) _) (by rw [BitVec.toNat_ofNat]; omega)

/-- A pending sample is below `r`, so `p` stays at most `r` past it. -/
theorem State.HistoryKept.processOne {s : State} (h : s.HistoryKept) (ahead : 0 ≤ lookahead binary32 s.sps)
    (pending : samplePending binary32 s = true) : State.HistoryKept (processOne words32 s) := by
  have frame := opSampleStep_frame (K := words32) s.p.toNat s
  refine ⟨(h.congr frame.smp frame.r frame.p).historyBelow, ?_⟩
  show ((opSampleStep words32 s.p.toNat s).p + 1#64).toNat ≤ (opSampleStep words32 s.p.toNat s).r.toNat
  rw [frame.p, frame.r, BitVec.toNat_add]
  have below : s.p.toNat < s.r.toNat := by
    simp only [samplePending, decide_eq_true_eq] at pending
    omega
  exact (Nat.mod_le _ _).trans below

theorem State.HistoryKept.processPending {s : State} (h : s.HistoryKept) (ahead : 0 ≤ lookahead binary32 s.sps) :
    State.HistoryKept (opProcessPending words32 s) := by
  have both : State.HistoryKept (opProcessPending words32 s)
      ∧ 0 ≤ lookahead binary32 (opProcessPending words32 s).sps :=
    processLoop_induct words32 (P := fun t => State.HistoryKept t ∧ 0 ≤ lookahead binary32 t.sps)
      (fun t pending k => ⟨k.1.processOne k.2 pending, by
        show 0 ≤ lookahead binary32 (opSampleStep words32 t.p.toNat t).sps
        rw [(opSampleStep_frame t.p.toNat t).setup.sps]
        exact k.2⟩)
      _ ⟨h, ahead⟩
  exact both.1

theorem State.HistoryKept.samplesEffect {s : State} (h : s.HistoryKept) (ahead : 0 ≤ lookahead binary32 s.sps)
    {vs : List F32} (room : s.r.toNat + vs.length < 2 ^ 64) (tsLo tsHi : Word) :
    State.HistoryKept (samplesEffect words32 tsLo tsHi vs s) := by
  have frame := opPrebias_frame (K := words32) vs (takeTimestamp tsLo tsHi s)
  have biased : State.HistoryKept (opPrebias words32 vs (takeTimestamp tsLo tsHi s)) :=
    h.congr frame.smp frame.r frame.p
  refine (biased.histAppendAll vs ?_).processPending ?_
  · rwa [frame.r]
  · rw [(histAppendAll_setup vs _).sps, frame.setup.sps]
    exact ahead

/-! ### The history along a step -/

theorem State.HistoryKept.datapathReset (s : State) : State.HistoryKept (opDatapathReset words32 s) :=
  ⟨fun _ mem => absurd mem List.not_mem_nil, le_rfl⟩

theorem State.HistoryKept.command {s t : State} (h : s.HistoryKept) (kept : s.Kept) {i : Instr}
    (room : ∀ tsLo tsHi data, i = .samples tsLo tsHi data → s.r.toNat + data.length < 2 ^ 64)
    (effect : CommandEffect words32 s i t) : t.HistoryKept := by
  cases effect with
  | ignored | raised | responded => exact h.congr rfl rfl rfl
  | configured => exact datapathReset _
  | wasReset => exact (datapathReset s).congr rfl rfl rfl
  | sampled tsLo tsHi data _ configured =>
    obtain ⟨low, high⟩ := kept.configuredSps configured
    exact h.samplesEffect (lookahead_nonneg low high) (by rw [List.length_map]; exact room tsLo tsHi data rfl) tsLo tsHi
  | flushed =>
    rcases flushEffect_cases words32 s with ⟨-, e⟩ | ⟨-, e⟩ <;> rw [e]
    · exact h.congr rfl rfl rfl
    · exact h

/-- Settles O57: only SAMPLES moves the counters forward, by fewer than 2^24 samples and up to those that are received. -/
theorem stepKeepsHistory : Obligations.StepKeepsHistory := by
  intro s t kept history room h
  obtain rfl : runStep words32 s = t := by simpa [step_eq] using h
  rcases runStep_effect (K := words32) s with e | ⟨i, rest, decoded, effect⟩
  · rwa [e]
  · have stripped : State.HistoryKept (State.withInput rest s) := history.congr rfl rfl rfl
    refine stripped.command (kept.withInput rest) ?_ effect
    rintro tsLo tsHi data rfl
    have := decode_samples_length decoded
    show s.r.toNat + data.length < 2 ^ 64
    omega

end Sys2Proof.Machine
end

section
/-! The byte order of a byte transport (R85). -/

namespace Sys2Proof

/-- Byte `k` of a word is its bits from `8 k` on. -/
theorem bytesOfWord_getElem (w : Word) {k : Nat} (h : k < 4) :
    (bytesOfWord w)[k]? = some (w.extractLsb' (8 * k) 8) := by
  match k, h with
  | 0, _ | 1, _ | 2, _ | 3, _ => rfl

/-- The bytes of a word, joined from the last one down, are the word. -/
theorem wordOfBytes_bytesOfWord (w : Word) :
    wordOfBytes (w.extractLsb' 0 8) (w.extractLsb' 8 8) (w.extractLsb' 16 8) (w.extractLsb' 24 8) = w := by
  have upper : w.extractLsb' 24 8 ++ w.extractLsb' 16 8 = w.extractLsb' 16 16 :=
    BitVec.extractLsb'_append_extractLsb'_eq_extractLsb' rfl
  have high : w.extractLsb' 16 16 ++ w.extractLsb' 8 8 = w.extractLsb' 8 24 :=
    BitVec.extractLsb'_append_extractLsb'_eq_extractLsb' rfl
  have all : w.extractLsb' 8 24 ++ w.extractLsb' 0 8 = w.extractLsb' 0 32 :=
    BitVec.extractLsb'_append_extractLsb'_eq_extractLsb' rfl
  rw [wordOfBytes, upper, high, all, BitVec.extractLsb'_eq_self]

theorem wordsOfBytes_bytesOfWord_append (w : Word) (bytes : List Byte) :
    wordsOfBytes (bytesOfWord w ++ bytes) = w :: wordsOfBytes bytes :=
  congrArg (· :: wordsOfBytes bytes) (wordOfBytes_bytesOfWord w)

/-- A word stream is read back from its bytes. -/
theorem wordsOfBytes_flatMap (ws : List Word) : wordsOfBytes (ws.flatMap bytesOfWord) = ws := by
  induction ws with
  | nil => rfl
  | cons w ws ih => rw [List.flatMap_cons, wordsOfBytes_bytesOfWord_append, ih]

/-- Settles O4: the bytes of one word join to it again, and so do those of a stream, word after word. -/
theorem bytesLittleEndian : Obligations.BytesLittleEndian :=
  ⟨fun w _ h => bytesOfWord_getElem w h,
    fun ws => ⟨wordsOfBytes_flatMap ws, congrArg decode (wordsOfBytes_flatMap ws)⟩⟩

end Sys2Proof
end

section
/-! The sample history along an append (R81), and what SAMPLES leaves in it (R292). -/

namespace Sys2Proof.Machine

variable {α ω : Type} {K : Reading α ω}

/-! ### The append of one sample (R81) -/

section Append

variable [DecidableEq α]

/-- HistAppend takes `r` up by one, where that does not wrap (R297 (c)). -/
theorem histAppend_r_toNat (v : α) {s : State.Over α ω} (room : s.r.toNat + 1 < 2 ^ 64) :
    (State.histAppend K v s).r.toNat = s.r.toNat + 1 := by
  show (s.r + 1#64).toNat = s.r.toNat + 1
  rw [BitVec.toNat_add]
  exact Nat.mod_eq_of_lt room

theorem histAppend_read_same (v : α) {s : State.Over α ω} (wf : Memory.wf K.num s.smp = true) :
    Memory.read K.num (State.histAppend K v s).smp s.r.toNat = v :=
  Memory.read_write_same wf _ v

theorem histAppend_read_other (v : α) (s : State.Over α ω) {j : Nat} (h : j ≠ s.r.toNat) :
    Memory.read K.num (State.histAppend K v s).smp j = Memory.read K.num s.smp j :=
  Memory.read_write_other h _ v

end Append

/-! ### SMP (R81) -/

theorem sampleAt_negative (s : State.Over α ω) {j : Int} (h : j < 0) : s.sampleAt K j = Memory.unlisted K.num := by
  rw [State.Over.sampleAt, if_pos h]

/-- A received sample is the one that the history holds. -/
theorem sampleAt_received {s : State.Over α ω} {j : Nat} (h : j < s.r.toNat) :
    s.sampleAt K (j : Int) = Memory.read K.num s.smp j := by
  rw [State.Over.sampleAt, if_neg (by omega), Int.toNat_natCast, if_pos h]

/-- Settles O54: the write of HistAppend is at the index `r` that no earlier read has. -/
theorem historyReads : Obligations.HistoryReads := by
  intro v s wf room
  have next : (State.histAppend words32 v s).r.toNat = s.r.toNat + 1 := histAppend_r_toNat v room
  refine ⟨rfl, ?appended, fun j h => sampleAt_negative _ h, ?earlier, histAppend_wf (K := words32) wf v⟩
  case appended =>
    rw [sampleAt_received (by omega)]
    exact histAppend_read_same v wf
  case earlier =>
    intro j nonneg below
    lift j to ℕ using nonneg
    rw [sampleAt_received (by omega), sampleAt_received (by omega)]
    exact histAppend_read_other v s (by omega)

/-! ### The append of a block (R292) -/

section Block

variable [DecidableEq α]

theorem histAppendAll_r_toNat (vs : List α) {s : State.Over α ω} (room : s.r.toNat + vs.length < 2 ^ 64) :
    (State.histAppendAll K vs s).r.toNat = s.r.toNat + vs.length := by
  induction vs generalizing s with
  | nil => rfl
  | cons v vs ih =>
    rw [List.length_cons] at room ⊢
    have next := histAppend_r_toNat (K := K) v (s := s) (by omega)
    rw [histAppendAll_cons, ih (by omega), next]
    omega

/-- Every other index reads as before. -/
theorem histAppendAll_read_other (vs : List α) {s : State.Over α ω} (room : s.r.toNat + vs.length < 2 ^ 64) {j : Nat}
    (h : j < s.r.toNat ∨ s.r.toNat + vs.length ≤ j) :
    Memory.read K.num (State.histAppendAll K vs s).smp j = Memory.read K.num s.smp j := by
  induction vs generalizing s with
  | nil => rfl
  | cons v vs ih =>
    rw [List.length_cons] at room h
    have next := histAppend_r_toNat (K := K) v (s := s) (by omega)
    rw [histAppendAll_cons, ih (by omega) (by omega), histAppend_read_other v s (by omega)]

/-- The samples of the block stand at the indices from `r` on, in order. -/
theorem histAppendAll_read_new (vs : List α) {s : State.Over α ω} (wf : Memory.wf K.num s.smp = true)
    (room : s.r.toNat + vs.length < 2 ^ 64) {k : Nat} (h : k < vs.length) :
    Memory.read K.num (State.histAppendAll K vs s).smp (s.r.toNat + k) = vs[k] := by
  induction vs generalizing s k with
  | nil => cases h
  | cons v vs ih =>
    rw [List.length_cons] at room h
    have next := histAppend_r_toNat (K := K) v (s := s) (by omega)
    rw [histAppendAll_cons]
    cases k with
    | zero =>
      rw [histAppendAll_read_other vs (by omega) (by omega), Nat.add_zero, histAppend_read_same v wf,
        List.getElem_cons_zero]
    | succ k =>
      have place : s.r.toNat + (k + 1) = (State.histAppend K v s).r.toNat + k := by omega
      rw [place, ih (histAppend_wf wf v) (by omega) (by omega), List.getElem_cons_succ]

end Block

/-! ### What the processing of pending samples keeps (R221, R229) -/

/-- What PROCESS_PENDING keeps: the setup, the sample history with `r`, the timestamp and `prebias_done`; records are only
appended. -/
structure ProcessFrame (s t : State.Over α ω) : Prop where
  setup : State.SameSetup s t
  output : State.OutputContinues s t
  smp : t.smp = s.smp
  r : t.r = s.r
  refTs : t.refTs = s.refTs
  prebiasDone : t.prebiasDone = s.prebiasDone

theorem ProcessFrame.trans {s t u : State.Over α ω} (h : ProcessFrame s t) (k : ProcessFrame t u) : ProcessFrame s u :=
  ⟨h.setup.trans k.setup, h.output.trans k.output, k.smp.trans h.smp, k.r.trans h.r, k.refTs.trans h.refTs,
    k.prebiasDone.trans h.prebiasDone⟩

theorem SymbolFrame.process {s t : State.Over α ω} (h : SymbolFrame s t) : ProcessFrame s t :=
  ⟨h.setup, h.output, h.smp, h.r, h.refTs, h.prebiasDone⟩

/-- The histories and the counters that SYMBOL_STEP itself writes are no part of the frame. -/
theorem ProcessFrame.advance (soft : α) (d : Dibit) (lag nudge : α) (s : State.Over α ω) :
    ProcessFrame s (advanceSymbol K.num nudge (pushHistories soft d lag s)) :=
  ⟨⟨rfl, rfl, rfl, rfl, rfl, rfl, rfl, rfl, rfl, rfl, rfl⟩, .refl _, rfl, rfl, rfl, rfl⟩

theorem opSymbolStep_process (n : Int) (s : State.Over α ω) : ProcessFrame s (opSymbolStep K n s) := by
  refine .trans ?soft (.trans (opFramerDibit_frame K _ _).process (.trans (opRecordPush_frame K _ _).process
    (.trans (.advance _ _ _ _ _) (opSyncCheck_frame K _ _ _).process)))
  case soft =>
    split
    · exact (SymbolFrame.emit _ s).process
    · exact (SymbolFrame.refl s).process

theorem opSampleStep_process (n : Int) (s : State.Over α ω) : ProcessFrame s (opSampleStep K n s) := by
  have moved : ProcessFrame s { s with samplePoint := K.num.sub s.samplePoint (K.num.const .one) } :=
    ⟨⟨rfl, rfl, rfl, rfl, rfl, rfl, rfl, rfl, rfl, rfl, rfl⟩, .refl _, rfl, rfl, rfl, rfl⟩
  rcases opSampleStep_cases K n s with e | e <;> rw [e]
  · exact moved
  · exact moved.trans (opSymbolStep_process n _)

theorem opProcessPending_process (s : State.Over α ω) : ProcessFrame s (opProcessPending K s) :=
  processLoop_induct K (P := ProcessFrame s)
    (fun t _ h => (h.trans (opSampleStep_process t.p.toNat t)).trans
      ⟨⟨rfl, rfl, rfl, rfl, rfl, rfl, rfl, rfl, rfl, rfl, rfl⟩, .refl _, rfl, rfl, rfl, rfl⟩)
    _ (SymbolFrame.refl s).process

/-! ### SAMPLES (R292, R293) -/

/-- What the append of a block leaves beside the setup, the history and `r`. -/
theorem histAppendAll_streams [DecidableEq α] (vs : List α) (s : State.Over α ω) :
    (State.histAppendAll K vs s).output = s.output ∧ (State.histAppendAll K vs s).refTs = s.refTs
      ∧ (State.histAppendAll K vs s).prebiasDone = s.prebiasDone :=
  histAppendAll_induct (P := fun t => t.output = s.output ∧ t.refTs = s.refTs ∧ t.prebiasDone = s.prebiasDone)
    (fun _ _ h => h) vs ⟨rfl, rfl, rfl⟩

/-- PREBIAS is done once a block has the samples for it (R220), and writes neither the output nor the timestamp. -/
theorem opPrebias_streams (vs : List α) (s : State.Over α ω) :
    (opPrebias K vs s).output = s.output ∧ (opPrebias K vs s).refTs = s.refTs
      ∧ (opPrebias K vs s).prebiasDone = (s.prebiasDone || decide (Config.prebiasSamples ≤ vs.length)) := by
  rcases opPrebias_cases K vs s with ⟨done | short, e⟩ | ⟨-, long, b, e, -⟩ <;> rw [e]
  · exact ⟨rfl, rfl, by simp [done]⟩
  · exact ⟨rfl, rfl, by simp [not_le.2 short]⟩
  · exact ⟨rfl, rfl, by simp [long]⟩

/-- The magnitude of an accepted sample is at most SAMPLE_MAX_ABS, which is a bound on its pattern (R293). -/
theorem sampleValid_words32 (v : Word) : sampleValid words32 v = acceptedSample v := by
  have finite_max : F32.isFinite 0x49800000#32 = true := by decide
  have key_max : F32.key 0x49800000#32 = 0x49800000 := by decide
  have magnitude : (F32.abs v).toNat < 2 ^ 31 := by
    rw [F32.abs_toNat]
    omega
  have expField_abs : F32.expField (F32.abs v) = F32.expField v := by
    rw [F32.expField_eq, F32.expField_eq, F32.abs_toNat]
    omega
  have unfolded : sampleValid words32 v = true ↔ F32.isFinite v = true ∧ F32.lt 0x49800000#32 (F32.abs v) = false := by
    simp [sampleValid, binary32, binary32Const]
  have accepted : acceptedSample v = true ↔ (F32.abs v).toNat ≤ 0x49800000 := by
    simp [acceptedSample, F32.abs]
  rw [Bool.eq_iff_iff, unfolded, accepted]
  have order (finite : F32.isFinite v = true) :
      F32.lt 0x49800000#32 (F32.abs v) = false ↔ (F32.abs v).toNat ≤ 0x49800000 := by
    have finite_abs : F32.isFinite (F32.abs v) = true := by rwa [F32.isFinite_iff, expField_abs, ← F32.isFinite_iff]
    rw [F32.not_lt_iff finite_max finite_abs, key_max, F32.key_eq_toNat magnitude]
    omega
  constructor
  · rintro ⟨finite, below⟩
    exact (order finite).1 below
  · intro below
    have finite : F32.isFinite v = true := by
      rw [F32.isFinite_iff, ← expField_abs, F32.expField_eq]
      omega
    exact ⟨finite, (order finite).2 below⟩

/-- A block of accepted samples is a valid one (R293). -/
theorem samplesValid_words32 {data : List Word} (h : ∀ v ∈ data, acceptedSample v = true) :
    samplesValid words32 data = true := by
  rw [samplesValid, List.all_eq_true]
  exact fun v mem => (sampleValid_words32 v).trans (h v mem)

/-- A SAMPLES of accepted samples takes effect in a configured block that is not faulted. -/
theorem exec_samples_of_accepted (tsLo tsHi : Word) {data : List Word} {s : State} (clear : s.fault = false)
    (configured : s.configured = true) (accepted : ∀ v ∈ data, acceptedSample v = true) :
    exec (.samples tsLo tsHi data) s = .next (samplesEffect words32 tsLo tsHi data s) := by
  have numbers : data.map (numberOfWord words32) = data := List.map_id data
  rw [exec_eq, runCommand, runSamples, faultGate_of_clear clear, samplesCommand, if_pos configured,
    if_pos (samplesValid_words32 accepted), numbers]

/-- The state of SAMPLES when its samples are appended: the timestamp is taken and the pre-bias run (R292, steps 1 and 2). -/
def biasedState (K : Reading α ω) (tsLo tsHi : Word) (vs : List α) (s : State.Over α ω) : State.Over α ω :=
  opPrebias K vs (takeTimestamp tsLo tsHi s)

theorem biasedState_history (tsLo tsHi : Word) (vs : List α) (s : State.Over α ω) :
    (biasedState K tsLo tsHi vs s).smp = s.smp ∧ (biasedState K tsLo tsHi vs s).r = s.r :=
  have frame := opPrebias_frame (K := K) vs (takeTimestamp tsLo tsHi s)
  ⟨frame.smp, frame.r⟩

/-- After the append SAMPLES only processes what is pending. -/
theorem samplesEffect_process [DecidableEq α] (tsLo tsHi : Word) (vs : List α) (s : State.Over α ω) :
    ProcessFrame (State.histAppendAll K vs (biasedState K tsLo tsHi vs s)) (samplesEffect K tsLo tsHi vs s) :=
  opProcessPending_process _

/-- What SAMPLES leaves in the output, the timestamp and `prebias_done` (R90, R220, R292). -/
theorem samplesEffect_streams [DecidableEq α] (tsLo tsHi : Word) (vs : List α) (s : State.Over α ω) :
    State.OutputContinues s (samplesEffect K tsLo tsHi vs s)
      ∧ (samplesEffect K tsLo tsHi vs s).refTs = timestampOf tsLo tsHi
      ∧ (samplesEffect K tsLo tsHi vs s).prebiasDone = (s.prebiasDone || decide (Config.prebiasSamples ≤ vs.length)) := by
  have processed := samplesEffect_process (K := K) tsLo tsHi vs s
  obtain ⟨appendOutput, appendTs, appendDone⟩ := histAppendAll_streams (K := K) vs (biasedState K tsLo tsHi vs s)
  obtain ⟨biasOutput, biasTs, biasDone⟩ := opPrebias_streams (K := K) vs (takeTimestamp tsLo tsHi s)
  refine ⟨?_, processed.refTs.trans (appendTs.trans biasTs), processed.prebiasDone.trans (appendDone.trans biasDone)⟩
  exact (State.OutputContinues.of_eq (appendOutput.trans biasOutput)).trans processed.output

/-- Settles O19: the block is appended at `r`, and the processing that follows writes nothing of the history. -/
theorem samplesHistory : Obligations.SamplesHistory := by
  intro tsLo tsHi data s clear configured accepted wf room
  obtain ⟨output, refTs, prebiasDone⟩ := samplesEffect_streams (K := words32) tsLo tsHi data s
  have processed := samplesEffect_process (K := words32) tsLo tsHi data s
  obtain ⟨smp, r⟩ := biasedState_history (K := words32) tsLo tsHi data s
  rw [← r] at room
  rw [← smp] at wf
  have received : (samplesEffect words32 tsLo tsHi data s).r.toNat = s.r.toNat + data.length := by
    rw [processed.r, histAppendAll_r_toNat data room, r]
  refine ⟨_, exec_samples_of_accepted tsLo tsHi clear configured accepted, samplesEffect_setup tsLo tsHi data s, output,
    ?canonical, received, ?new, ?other, refTs, prebiasDone⟩
  case canonical =>
    rw [processed.smp]
    exact histAppendAll_wf (K := words32) data wf
  case new =>
    intro j low high
    obtain ⟨k, rfl⟩ := Nat.exists_eq_add_of_le low
    have inside : k < data.length := by omega
    rw [processed.smp, ← r, Nat.add_sub_cancel_left, List.getD_eq_getElem _ _ inside]
    exact histAppendAll_read_new (K := words32) data wf room inside
  case other =>
    intro j outside
    rw [processed.smp, ← smp]
    exact histAppendAll_read_other (K := words32) data room (by rw [r]; omega)

end Sys2Proof.Machine
end

section
/-! No operation of a command reads the input or the output (R87, R90): each commutes with putting the state between other words
to come and other records before its own. -/

namespace Sys2Proof.Machine

variable {α ω : Type} {K : Reading α ω}

/-- The state with `rest` on its input, and with the records `out` before its own. -/
def State.Over.between (rest : List Word) (out : List ω) (s : State.Over α ω) : State.Over α ω :=
  { s with input := rest, output := out ++ s.output }

/-- An operation does the same to the state whatever words are to come and whatever records are before it. -/
def IgnoresStreams (f : State.Over α ω → State.Over α ω) : Prop :=
  ∀ rest out s, f (s.between rest out) = (f s).between rest out

theorem IgnoresStreams.comp {f g : State.Over α ω → State.Over α ω} (hg : IgnoresStreams g) (hf : IgnoresStreams f) :
    IgnoresStreams (g ∘ f) := fun rest out s => (congrArg g (hf rest out s)).trans (hg rest out (f s))

/-- A map of both branches is a map of the choice. -/
theorem ite_eq_map {β γ : Type} (f : β → γ) {c : Prop} [Decidable c] {a b : β} {a' b' : γ} (ha : a' = f a)
    (hb : b' = f b) : (if c then a' else b') = f (if c then a else b) := by
  rw [apply_ite f, ha, hb]

/-! ### Records and faults (R120, R322, R323) -/

theorem emit_ignoresStreams (record : Record α ω) : IgnoresStreams (State.emit K record) := fun rest out s =>
  congrArg (fun words => { s with input := rest, output := words }) (List.append_assoc out s.output (record.items K))

theorem raiseFault_ignoresStreams (cause : FaultCause) (w : Word) : IgnoresStreams (raiseFault (α := α) K cause w) :=
  fun rest out s => emit_ignoresStreams _ rest out { s with fault := true, faultCode := cause.code, faultInfo := w }

theorem faultGate_ignoresStreams {act : State.Over α ω → State.Over α ω} (h : IgnoresStreams act) :
    IgnoresStreams (faultGate act) := fun rest out s => ite_eq_map (State.Over.between rest out) rfl (h rest out s)

theorem raiseOnly_ignoresStreams (cause : FaultCause) (w : Word) : IgnoresStreams (raiseOnly (α := α) K cause w) :=
  faultGate_ignoresStreams (raiseFault_ignoresStreams cause w)

/-! ### The framer and the recording (R228, R260 to R262) -/

theorem opDispatch_ignoresStreams : IgnoresStreams (opDispatch (α := α) K) := fun rest out s =>
  congrArg (fun t => { t with framesDispatched := wrap32 (s.framesDispatched.toNat + 1), asmBits := [] })
    (emit_ignoresStreams (K := K) _ rest out s)

theorem opFramerSync_ignoresStreams : IgnoresStreams (opFramerSync (α := α) K) := fun rest out s =>
  congrArg (fun t => { t with framerState := .assembling, asmBits := [] })
    (ite_eq_map (c := s.framerState = .assembling) (State.Over.between rest out) (opDispatch_ignoresStreams rest out s) rfl)

theorem opFramerDibit_ignoresStreams (d : Dibit) : IgnoresStreams (opFramerDibit (α := α) K d) := fun rest out s =>
  have dispatched := opDispatch_ignoresStreams (K := K) rest out { countDibit s with asmBits := s.asmBits ++ dibitBits d }
  ite_eq_map _ rfl (ite_eq_map _ rfl
    (ite_eq_map (State.Over.between rest out) (congrArg (fun t => { t with framerState := .idle }) dispatched) rfl))

theorem packDibit_ignoresStreams (d : Dibit) : IgnoresStreams (packDibit (α := α) K d) := fun rest out s =>
  ite_eq_map (State.Over.between rest out) (emit_ignoresStreams (K := K) _ rest out { s with pack := [] }) rfl

theorem opRecordPush_ignoresStreams (d : Dibit) : IgnoresStreams (opRecordPush (α := α) K d) := fun rest out s =>
  have passed := packDibit_ignoresStreams (K := K) ((s.delayFifo ++ [d]).headD 0#2) rest out
    { s with delayFifo := (s.delayFifo ++ [d]).drop 1 }
  ite_eq_map _ (ite_eq_map (State.Over.between rest out) passed rfl) rfl

/-! ### Detection and the syncs (R155, R224 to R227) -/

/-- EQ_APPLY answers the same too. -/
theorem opEqApply_between (c : Correction α) (rest : List Word) (out : List ω) (s : State.Over α ω) :
    opEqApply K c (s.between rest out) = ((opEqApply K c s).1.between rest out, (opEqApply K c s).2) :=
  ite_eq_map (Prod.map (State.Over.between rest out) id) rfl rfl

theorem acceptedState_ignoresStreams (c : Correction α) : IgnoresStreams (acceptedState (ω := ω) K c) := fun rest out s => by
  simp only [acceptedState, opEqApply_between]
  rfl

theorem opAcceptSync_ignoresStreams (c : Correction α) (kind : SyncKind) :
    IgnoresStreams (opAcceptSync (α := α) K c kind) := fun rest out s => by
  rw [opAcceptSync_eq, opAcceptSync_eq, acceptedState_ignoresStreams, opEqApply_between]
  exact (opFramerSync_ignoresStreams.comp (emit_ignoresStreams _)) rest out (acceptedState K c s)

theorem opCoastSync_ignoresStreams : IgnoresStreams (opCoastSync (α := α) K) :=
  opFramerSync_ignoresStreams.comp ((emit_ignoresStreams _).comp (f := coastedState) fun _ _ _ => rfl)

/-- The detectors accept the same. -/
theorem tryDetectors_between (n : Int) (mu : α) (ds : List (Detector α)) (rest : List Word) (out : List ω)
    (s : State.Over α ω) : tryDetectors K n mu ds (s.between rest out)
      = ((tryDetectors K n mu ds s).1.between rest out, (tryDetectors K n mu ds s).2) := by
  induction ds generalizing s with
  | nil => rfl
  | cons d ds ih =>
    have same : opOptimize K d.pattern d.additionalOffset d.score n mu (s.between rest out)
        = opOptimize K d.pattern d.additionalOffset d.score n mu s := opOptimize_congr K rfl rfl rfl _ _ _ _ _
    refine ite_eq_map (Prod.map (State.Over.between rest out) id) ?_ (ih s)
    rw [same]
    cases opOptimize K d.pattern d.additionalOffset d.score n mu s with
    | none => exact ih (countInvalid s)
    | some c =>
      exact congrArg (·, true)
        (opAcceptSync_ignoresStreams c d.kind rest out { s with lastCorrectedBits := wrap32 c.correctedBits })

theorem detection_between (n : Int) (mu : α) (rest : List Word) (out : List ω) (s : State.Over α ω) :
    detection K n mu (s.between rest out) = ((detection K n mu s).1.between rest out, (detection K n mu s).2) :=
  ite_eq_map (Prod.map (State.Over.between rest out) id) (tryDetectors_between n mu _ rest out (updateScores K s)) rfl

theorem opSyncCheck_ignoresStreams (n : Int) (mu : α) : IgnoresStreams (opSyncCheck (α := α) K n mu) := by
  intro rest out s
  have afterDetection (t : State.Over α ω) : opSyncCheck K n mu t =
      if (detection K n mu t).2 then (detection K n mu t).1
      else if coastDue (detection K n mu t).1 then opCoastSync K (detection K n mu t).1
      else if syncLost (detection K n mu t).1 then opEqReset (detection K n mu t).1
      else (detection K n mu t).1 := rfl
  rw [afterDetection, afterDetection, detection_between]
  exact ite_eq_map _ rfl (ite_eq_map _ (opCoastSync_ignoresStreams rest out _)
    (ite_eq_map (State.Over.between rest out) rfl rfl))

/-! ### A sample (R221, R222, R229) -/

/-- The state of SYMBOL_STEP when the framer and the recording have taken the decision `d` of the soft symbol `v` (R222). -/
def decidedState (K : Reading α ω) (d : Dibit) (v : α) (s : State.Over α ω) : State.Over α ω :=
  opRecordPush K d (opFramerDibit K d (if s.params.softOutEnable then State.emit K (.soft d v) s else s))

/-- The rest of SYMBOL_STEP before its SYNC_CHECK: the lagged symbol, the histories and the counters (R222). -/
def countedState (K : Reading α ω) (n : Int) (mu : α) (d : Dibit) (v nudge : α) (s : State.Over α ω) : State.Over α ω :=
  advanceSymbol K.num nudge
    (pushHistories v d (opEqSymbol K n (K.num.sub mu (K.num.div s.sps (K.num.const .two))) s) s)

theorem opSymbolStep_eq (n : Int) (s : State.Over α ω) :
    opSymbolStep K n s =
      opSyncCheck K n s.samplePoint (countedState K n s.samplePoint (toSymbol K.num (opEqSymbol K n s.samplePoint s))
        (opEqSymbol K n s.samplePoint s)
        (opTimingNudge K n s.samplePoint (toSymbol K.num (opEqSymbol K n s.samplePoint s)) s)
        (decidedState K (toSymbol K.num (opEqSymbol K n s.samplePoint s)) (opEqSymbol K n s.samplePoint s) s)) := rfl

theorem decidedState_ignoresStreams (d : Dibit) (v : α) : IgnoresStreams (decidedState K d v) :=
  (opRecordPush_ignoresStreams d).comp ((opFramerDibit_ignoresStreams d).comp fun rest out s =>
    ite_eq_map (State.Over.between rest out) (emit_ignoresStreams (.soft d v) rest out s) rfl)

/-- The decision, its soft symbol and the nudge are those of the sample history and the equalizer alone. -/
theorem opSymbolStep_ignoresStreams (n : Int) : IgnoresStreams (opSymbolStep (α := α) K n) := by
  intro rest out s
  have counted (mu : α) (d : Dibit) (v nudge : α) : IgnoresStreams (countedState K n mu d v nudge) := fun _ _ _ => rfl
  rw [opSymbolStep_eq, opSymbolStep_eq, decidedState_ignoresStreams, counted]
  exact opSyncCheck_ignoresStreams n s.samplePoint rest out _

theorem opSampleStep_ignoresStreams (n : Int) : IgnoresStreams (opSampleStep (α := α) K n) := fun rest out s =>
  ite_eq_map (State.Over.between rest out) (opSymbolStep_ignoresStreams n rest out
    { s with samplePoint := K.num.sub s.samplePoint (K.num.const .one) }) rfl

theorem processOne_ignoresStreams : IgnoresStreams (processOne (α := α) K) := fun rest out s =>
  congrArg (fun t => { t with p := t.p + 1#64 }) (opSampleStep_ignoresStreams (K := K) s.p.toNat rest out s)

theorem processLoop_ignoresStreams (fuel : Nat) : IgnoresStreams (processLoop (α := α) K fuel) := by
  intro rest out s
  induction fuel generalizing s with
  | zero => rfl
  | succ fuel ih =>
    have next : processLoop K fuel (processOne K (s.between rest out))
        = (processLoop K fuel (processOne K s)).between rest out := by rw [processOne_ignoresStreams, ih]
    exact ite_eq_map (State.Over.between rest out) next rfl

theorem opProcessPending_ignoresStreams : IgnoresStreams (opProcessPending (α := α) K) := fun rest out s =>
  processLoop_ignoresStreams _ rest out s

/-! ### The commands (R291 to R296) -/

theorem opPrebias_ignoresStreams (vs : List α) : IgnoresStreams (opPrebias (ω := ω) K vs) := fun rest out _ =>
  ite_eq_map (State.Over.between rest out) rfl rfl

theorem histAppendAll_ignoresStreams [DecidableEq α] (vs : List α) :
    IgnoresStreams (State.histAppendAll (ω := ω) K vs) := by
  intro rest out s
  induction vs generalizing s with
  | nil => rfl
  | cons v vs ih => exact ih (State.histAppend K v s)

theorem samplesEffect_ignoresStreams [DecidableEq α] (tsLo tsHi : Word) (vs : List α) :
    IgnoresStreams (samplesEffect (ω := ω) K tsLo tsHi vs) :=
  opProcessPending_ignoresStreams.comp ((histAppendAll_ignoresStreams vs).comp
    ((opPrebias_ignoresStreams vs).comp (f := takeTimestamp tsLo tsHi) fun _ _ _ => rfl))

theorem flushEffect_ignoresStreams : IgnoresStreams (flushEffect (α := α) K) := fun rest out s =>
  ite_eq_map (State.Over.between rest out)
    (congrArg (fun t => { t with framerState := .idle }) (opDispatch_ignoresStreams (K := K) rest out s)) rfl

theorem configureCommand_ignoresStreams (rate : Operand) (spsWord : Word) :
    IgnoresStreams (configureCommand (α := α) (ω := ω) K rate spsWord) := fun rest out s =>
  ite_eq_map (State.Over.between rest out) rfl (raiseFault_ignoresStreams _ _ rest out s)

theorem samplesCommand_ignoresStreams [DecidableEq α] (tsLo tsHi : Word) (data : List Word) :
    IgnoresStreams (samplesCommand (α := α) (ω := ω) K tsLo tsHi data) := fun rest out s =>
  ite_eq_map _
    (ite_eq_map _ (samplesEffect_ignoresStreams tsLo tsHi _ rest out s) (raiseFault_ignoresStreams _ _ rest out s))
    (raiseFault_ignoresStreams _ _ rest out s)

theorem flushCommand_ignoresStreams (x : Operand) : IgnoresStreams (flushCommand (α := α) (ω := ω) K x) := fun rest out s =>
  ite_eq_map _
    (ite_eq_map _ (flushEffect_ignoresStreams rest out s) (raiseFault_ignoresStreams _ _ rest out s))
    (raiseFault_ignoresStreams _ _ rest out s)

theorem runReset_ignoresStreams (x : Operand) : IgnoresStreams (runReset (α := α) (ω := ω) K x) := fun rest out s =>
  ite_eq_map (State.Over.between rest out) rfl (raiseOnly_ignoresStreams _ _ rest out s)

/-- The register map reads neither stream (R50). -/
theorem regValue_between (addr : BitVec 8) (rest : List Word) (out : List ω) (s : State.Over α ω) :
    regValue K addr (s.between rest out) = regValue K addr s := rfl

theorem readRegCommand_ignoresStreams (addr : BitVec 8) : IgnoresStreams (readRegCommand (α := α) K addr) := by
  intro rest out s
  simp only [readRegCommand, regValue_between]
  cases regValue K addr s with
  | some v => exact emit_ignoresStreams _ rest out s
  | none => exact raiseOnly_ignoresStreams _ _ rest out s

theorem runReadReg_ignoresStreams (reserved : BitVec 16) (addr : BitVec 8) :
    IgnoresStreams (runReadReg (α := α) K reserved addr) := fun rest out s =>
  ite_eq_map _ (readRegCommand_ignoresStreams addr rest out s) (raiseOnly_ignoresStreams _ _ rest out s)

/-- No command reads the streams: the five of the host by their checks and effects, every other one because it only raises. -/
theorem runCommand_ignoresStreams [DecidableEq α] (i : Instr) : IgnoresStreams (runCommand (α := α) (ω := ω) K i) := by
  cases i with
  | configure rate spsWord => exact faultGate_ignoresStreams (configureCommand_ignoresStreams rate spsWord)
  | samples tsLo tsHi data => exact faultGate_ignoresStreams (samplesCommand_ignoresStreams tsLo tsHi data)
  | flush x => exact faultGate_ignoresStreams (flushCommand_ignoresStreams x)
  | reset x => exact runReset_ignoresStreams x
  | readReg reserved addr => exact runReadReg_ignoresStreams reserved addr
  | _ => exact raiseOnly_ignoresStreams _ _

/-- The state with nothing on its input and no record emitted. -/
def State.Over.withoutStreams (s : State.Over α ω) : State.Over α ω := { s with input := [], output := [] }

theorem withoutStreams_between (rest : List Word) (out : List ω) (s : State.Over α ω) :
    s.withoutStreams.between rest out = { s with input := rest, output := out } :=
  congrArg (fun words => { s with input := rest, output := words }) (List.append_nil out)

/-- Settles O60: the command of the state without its streams, put between any words to come and any records before. -/
theorem streamsNotRead : Obligations.StreamsNotRead := by
  intro i s
  refine ⟨runCommand words32 i s.withoutStreams, (runCommand words32 i s.withoutStreams).output, fun rest out => ?_⟩
  rw [← withoutStreams_between, exec_eq, runCommand_ignoresStreams]
  rfl

end Sys2Proof.Machine
end

section
/-! The command words and their commands (R111, R112, R129): the decoder and the encoder are inverse to each other. -/

namespace Sys2Proof

/-! ### The opcodes with a row of their own (R112) -/

/-- A word with a given OPCODE is that opcode and its OPERAND. -/
theorem opWord_of_opcode {w : Word} {n : Nat} (h : (opcodeOf w).toNat = n) :
    opWord (BitVec.ofNat 8 n) (operandOf w) = w := by
  subst h
  rw [BitVec.ofNat_toNat, BitVec.setWidth_eq, opWord_fields]

theorem payloadLength_of_configure {w : Word} (h : (opcodeOf w).toNat = 1) : payloadLength w = 1 := by
  simp only [payloadLength, h]

theorem payloadLength_of_samples {w : Word} (h : (opcodeOf w).toNat = 2) :
    payloadLength w = 2 + (operandOf w).toNat := by
  simp only [payloadLength, h]

/-! ### The opcodes that R112 gives in ranges -/

/-- The opcodes that R112 gives in ranges but 0x00: the reserved internal ids and the illegal opcodes. -/
def RangeOpcode (n : Nat) : Prop := 6 ≤ n ∧ n < 0x80 ∨ 0x9C ≤ n

theorem decodeCommand_of_range {w : Word} (h : RangeOpcode (opcodeOf w).toNat) (payload : List Word) :
    decodeCommand w payload = decodeRange w := by
  unfold decodeCommand RangeOpcode at *
  dsimp only
  split
  case h_35 => rfl
  all_goals omega

/-- The leading bits of a word as a number. -/
theorem leading_eq_iff {n k : Nat} (w : Word) (lead : BitVec n) (split : n + k = 32) :
    w.extractLsb' k n = lead ↔ w.toNat / 2 ^ k = lead.toNat := by
  have bound : w.toNat / 2 ^ k < 2 ^ n := by
    rw [Nat.div_lt_iff_lt_mul (by positivity), ← pow_add, split]
    exact w.isLt
  rw [← BitVec.toNat_inj, BitVec.extractLsb'_toNat, Nat.shiftRight_eq_div_pow, Nat.mod_eq_of_lt bound]

/-! ### Encoding what was decoded (R111, R112) -/

/-- Leading bits and the bits below them are the whole. -/
theorem lead_append_low {n k : Nat} {x : BitVec (n + k)} {lead : BitVec n} (h : x.extractLsb' k n = lead) :
    lead ++ x.extractLsb' 0 k = x := by
  rw [← h, BitVec.extractLsb'_append_extractLsb'_eq_extractLsb' (Nat.zero_add k).symm, BitVec.extractLsb'_eq_self]

/-- The command word of a range is its leading bits and the bits that it leaves free. -/
theorem commandWord_decodeRange {w : Word} (h : RangeOpcode (opcodeOf w).toNat) : commandWord (decodeRange w) = w := by
  unfold decodeRange
  split_ifs
  case neg =>
    have lead : w.extractLsb' 30 2 = 3#2 := by
      simp only [leading_eq_iff, RangeOpcode, opcodeOf_toNat, BitVec.toNat_ofNat] at *
      omega
    exact lead_append_low lead
  all_goals exact lead_append_low ‹_›

/-- Every command word has one meaning, whose command word it is. -/
theorem commandWord_decodeCommand {w : Word} {payload : List Word} (fits : payload.length = payloadLength w) :
    commandWord (decodeCommand w payload) = w := by
  unfold decodeCommand
  dsimp only
  split
  case h_3 opcode =>
    have count : payload.length - 2 = (operandOf w).toNat := by
      rw [fits, payloadLength_of_samples opcode, Nat.add_sub_cancel_left]
    rw [commandWord, List.length_drop, count, BitVec.ofNat_toNat, BitVec.setWidth_eq]
    exact opWord_of_opcode opcode
  case h_6 opcode =>
    rw [commandWord, show _ ++ _ = operandOf w from lead_append_low rfl]
    exact opWord_of_opcode opcode
  case h_35 => exact commandWord_decodeRange (by unfold RangeOpcode; grind)
  all_goals exact opWord_of_opcode ‹_›

theorem payloadOf_decodeRange (w : Word) : payloadOf (decodeRange w) = [] := by
  unfold decodeRange
  split_ifs <;> rfl

/-- The payload of a decoded command is the one that it was decoded with. -/
theorem payloadOf_decodeCommand {w : Word} {payload : List Word} (fits : payload.length = payloadLength w) :
    payloadOf (decodeCommand w payload) = payload := by
  by_cases configure : (opcodeOf w).toNat = 1
  · rw [payloadLength_of_configure configure] at fits
    obtain ⟨spsWord, rfl⟩ := List.length_eq_one_iff.1 fits
    simp [decodeCommand, configure, payloadOf]
  by_cases samples : (opcodeOf w).toNat = 2
  · rw [payloadLength_of_samples samples] at fits
    match payload, fits with
    | [], fits | [_], fits => simp only [List.length_cons, List.length_nil] at fits; omega
    | tsLo :: tsHi :: data, _ => simp [decodeCommand, samples, payloadOf]
  · obtain rfl : payload = [] := List.length_eq_zero_iff.1 (fits.trans (payloadLength_eq_zero configure samples))
    unfold decodeCommand
    dsimp only
    split <;> first | rfl | contradiction | exact payloadOf_decodeRange w

/-! ### Decoding what was encoded (R110, R112, R129) -/

/-- The meaning of a command word with its payload is the instruction that was encoded. -/
theorem decodeCommand_commandWord (i : Instr) : decodeCommand (commandWord i) (payloadOf i) = i := by
  cases i with
  | readReg reserved addr =>
    have high : (reserved ++ addr).extractLsb' 8 16 = reserved := BitVec.extractLsb'_append_eq_left
    have low : (reserved ++ addr).extractLsb' 0 8 = addr := BitVec.extractLsb'_append_eq_right
    rw [commandWord, decodeCommand, opcodeOf_opWord, operandOf_opWord]
    exact congrArg₂ Instr.readReg high low
  | reservedInternal low | illegal06 low | illegal08 low | illegal10 low | illegal20 low | illegal40 low
  | illegalA0 low | illegalC0 low =>
    have := low.isLt
    rw [commandWord, decodeCommand_of_range]
    · simp (disch := omega) only [decodeRange, leading_eq_iff, toNat_append_eq, BitVec.toNat_ofNat, if_neg, if_pos,
        BitVec.extractLsb'_append_eq_right]
    · rw [RangeOpcode, opcodeOf_toNat, toNat_append_eq, BitVec.toNat_ofNat]; omega
  | _ =>
    rw [commandWord, decodeCommand, opcodeOf_opWord, operandOf_opWord]
    rfl

/-- Every instruction's encoding is as long as its first word says (R129). -/
theorem encoding_length (i : Instr) : Laws.EncodingLength.Statement i := by
  open Laws.EncodingLength in
  exact Instr.casesOn i configure samples flush reset readReg equalize unwrap eqSymbol eqConfigure eqReset eqApply
    idealPhase toSymbol bitDistance softScore hardErrors stddev scoreAt measure optimize prebias sampleStep symbolStep
    timingNudge syncCheck acceptSync coastSync recordPush framerSync framerDibit dispatch frameTimestamp datapathReset
    reservedInternal illegal00 illegal06 illegal08 illegal10 illegal20 illegal40 illegalA0 illegalC0

theorem payloadOf_length {i : Instr} (wf : i.wellFormed = true) :
    (payloadOf i).length = payloadLength (commandWord i) := by
  have length := encoding_length i wf
  rw [encode, List.length_cons] at length
  omega

/-! ### The front of the input (R110) -/

/-- A command word with exactly its payload is read, and the words after it are left. -/
theorem decode_of_fits {w : Word} {payload : List Word} (fits : payload.length = payloadLength w) (rest : List Word) :
    decode (w :: (payload ++ rest)) = .command (decodeCommand w payload) rest := by
  rw [decode, if_neg (by simp [fits]), ← fits, List.take_left, List.drop_left]

/-- What is read is a command word with exactly its payload. -/
theorem fits_of_decode {ws rest : List Word} {i : Instr} (h : decode ws = .command i rest) :
    ∃ w payload, payload.length = payloadLength w ∧ ws = w :: (payload ++ rest) ∧ i = decodeCommand w payload := by
  cases ws with
  | nil => cases h
  | cons w ws =>
    rw [decode] at h
    split at h
    · cases h
    · cases h
      exact ⟨w, ws.take (payloadLength w), List.length_take_of_le (by omega), by rw [List.take_append_drop], rfl⟩

/-- Settles O1: the payload is as long as the command word says, so the decoder sees the two that were encoded. -/
theorem decodeEncode : Obligations.DecodeEncode := by
  intro i rest wf
  rw [encode, List.cons_append, decode_of_fits (payloadOf_length wf), decodeCommand_commandWord]

theorem wellFormed_of_decode {ws rest : List Word} {i : Instr} (h : decode ws = .command i rest) :
    i.wellFormed = true := by
  cases i with
  | samples tsLo tsHi data => exact decide_eq_true (Machine.decode_samples_length h)
  | _ => rfl

/-- Settles O2: the command word and the payload of what was decoded are the words that the decoder read. -/
theorem encodeDecode : Obligations.EncodeDecode := by
  intro ws i rest h
  obtain ⟨w, payload, fits, rfl, rfl⟩ := fits_of_decode h
  refine ⟨wellFormed_of_decode h, ?_⟩
  rw [encode, commandWord_decodeCommand fits, payloadOf_decodeCommand fits, List.cons_append]

/-- Settles O3: each list is the encoding of its command, spelled out, and the decoder reads it back. -/
theorem commandWordsDecode : Obligations.CommandWordsDecode := by
  have read {i : Instr} {ws : List Word} (wf : i.wellFormed = true) (words : encode i = ws) :
      decode ws = .command i [] := by
    rw [← words, ← decodeEncode i [] wf, List.append_nil]
  exact ⟨read rfl rfl, read rfl rfl, read rfl rfl, read rfl rfl, read rfl rfl, read rfl rfl, read rfl rfl, read rfl rfl,
    read rfl rfl, read rfl rfl, read rfl rfl, read rfl rfl, read rfl rfl⟩

end Sys2Proof
end

section
/-! One step and the first word of the input (R110, R119, R129): how many words the step takes, and the faults of the words
that name no operation of the host. -/

namespace Sys2Proof.Machine

variable {α ω : Type} {K : Reading α ω}

/-! ### A step runs or waits (R110, R335) -/

theorem step_of_command {s : State} {i : Instr} {rest : List Word} (h : decode s.input = .command i rest) :
    step s = exec i (State.withInput rest s) := by
  simp [step, h]

theorem step_of_stop {s : State} {why : DecodeStop} (h : decode s.input = .stop why) : step s = .next s := by
  simp [step, h]

/-- With less than its payload behind it a command word is not read yet. -/
theorem decode_of_short {w : Word} {rest : List Word} (short : rest.length < payloadLength w) :
    decode (w :: rest) = .stop .payloadCutShort := by
  rw [decode, if_pos short]

/-- Settles O5: the decoder reads the encoded command, and stops at an empty input or within a payload. -/
theorem stepRunsCommand : Obligations.StepRunsCommand := fun s =>
  ⟨fun i rest wf front => step_of_command (by rw [front, decodeEncode i rest wf]),
    fun empty => step_of_stop (why := .noCommandWord) (by rw [empty, decode]),
    fun w rest front short => step_of_stop (by rw [front, decode_of_short short])⟩

/-! ### How many words a step takes (R129) -/

/-- The payload that the first word announces, as R129 states it. -/
theorem payloadLength_eq (w : Word) :
    payloadLength w =
      if opcodeOf w = 0x01#8 then 1 else if opcodeOf w = 0x02#8 then 2 + (operandOf w).toNat else 0 := by
  split_ifs with configure samples
  · exact payloadLength_of_configure (congrArg BitVec.toNat configure)
  · exact payloadLength_of_samples (congrArg BitVec.toNat samples)
  · exact payloadLength_eq_zero (fun e => configure (BitVec.eq_of_toNat_eq e))
      (fun e => samples (BitVec.eq_of_toNat_eq e))

/-- No command takes words of the input beyond its own. -/
theorem CommandEffect.input_eq [DecidableEq α] {i : Instr} {s t : State.Over α ω} (h : CommandEffect K s i t) :
    t.input = s.input := by
  cases h with
  | sampled tsLo tsHi data => exact (samplesEffect_setup tsLo tsHi _ s).input
  | flushed => exact (flushEffect_setup s).input
  | ignored | raised | configured | wasReset | responded => rfl

/-- Settles O6: the decoder takes the payload that the first word announces, and the command takes no more. -/
theorem lengthFromFirstWord : Obligations.LengthFromFirstWord := by
  intro s w rest front extra
  have announced : payloadLength w = extra := payloadLength_eq w
  rw [← announced]
  constructor
  · intro enough
    have fits : (rest.take (payloadLength w)).length = payloadLength w := List.length_take_of_le enough
    have read := decode_of_fits fits (rest.drop (payloadLength w))
    rw [List.take_append_drop, ← front] at read
    exact ⟨_, (step_of_command read).trans (exec_eq _ _), (runCommand_effect _ _).input_eq⟩
  · intro short
    exact step_of_stop (by rw [front, decode_of_short short])

/-! ### The words that only raise a fault (R119) -/

/-- An internal id issued by the host only raises INTERNAL_OPCODE. -/
theorem runCommand_of_internal [DecidableEq α] {i : Instr} (h : internalOpcode (commandWord i) = true)
    (s : State.Over α ω) : runCommand K i s = raiseOnly K .internalOpcode (commandWord i) s := by
  cases i with
  | configure | samples | flush | reset | readReg | illegal00 => simp [internalOpcode, commandWord] at h
  | illegal06 low | illegal08 low | illegal10 low | illegal20 low | illegal40 low | illegalA0 low | illegalC0 low =>
    have := low.isLt
    simp only [internalOpcode, commandWord, opcodeOf_toNat, toNat_append_eq, BitVec.toNat_ofNat, decide_eq_true_eq] at h
    omega
  | _ => rfl

/-- An opcode that is neither internal nor the host's only raises ILLEGAL_OPCODE. -/
theorem runCommand_of_illegal [DecidableEq α] {i : Instr} (internal : internalOpcode (commandWord i) = false)
    (host : hostOpcode (commandWord i) = false) (s : State.Over α ω) :
    runCommand K i s = raiseOnly K .illegalOpcode (commandWord i) s := by
  cases i with
  | configure | samples | flush | reset | readReg => simp [hostOpcode, commandWord] at host
  | illegal00 | illegal06 | illegal08 | illegal10 | illegal20 | illegal40 | illegalA0 | illegalC0 => rfl
  | reservedInternal low =>
    have := low.isLt
    simp only [internalOpcode, commandWord, opcodeOf_toNat, toNat_append_eq, BitVec.toNat_ofNat,
      decide_eq_false_iff_not] at internal
    omega
  | _ => simp [internalOpcode, commandWord] at internal

/-- A reserved OPERAND bit that is 1 only raises RESERVED_NONZERO. -/
theorem runCommand_flush_reserved [DecidableEq α] {x : Operand} (h : x ≠ 0#24) (s : State.Over α ω) :
    runCommand K (.flush x) s = raiseOnly K .reservedNonzero (commandWord (.flush x)) s := by
  simp [runCommand, runFlush, raiseOnly, faultGate, flushCommand, reservedOperandClear, h]

theorem runCommand_reset_reserved [DecidableEq α] {x : Operand} (h : x ≠ 0#24) (s : State.Over α ω) :
    runCommand K (.reset x) s = raiseOnly K .reservedNonzero (commandWord (.reset x)) s := by
  simp [runCommand, runReset, reservedOperandClear, h]

theorem runCommand_readReg_reserved [DecidableEq α] {reserved : BitVec 16} (h : reserved ≠ 0#16) (addr : BitVec 8)
    (s : State.Over α ω) :
    runCommand K (.readReg reserved addr) s = raiseOnly K .reservedNonzero (commandWord (.readReg reserved addr)) s := by
  simp [runCommand, runReadReg, reservedAddressBitsClear, h]

/-- While the block is not faulted, a command that only raises a fault has the effect of fault entry. -/
theorem exec_of_raiseOnly {i : Instr} {s : State} {cause : FaultCause} {w : Word} (clear : s.fault = false)
    (raises : runCommand words32 i s = raiseOnly words32 cause w s) :
    exec i s = .next (State.faulted cause.code w s) := by
  rw [exec_eq, raises, raiseOnly, faultGate_of_clear clear, raiseFault_eq]

/-- Settles O8: each of these commands only raises, with the word that its encoding is. -/
theorem internalIdsRaise : Obligations.InternalIdsRaise := by
  intro x low s clear
  refine ⟨fun e mem => exec_of_raiseOnly (cause := .internalOpcode) clear ?_,
    exec_of_raiseOnly (cause := .internalOpcode) clear rfl⟩
  obtain ⟨word, range⟩ : commandWord e.1 = opWord e.2 x ∧ 0x80 ≤ e.2.toNat ∧ e.2.toNat ≤ 0x9F := by
    revert e
    simp [commandWord]
  have internal : internalOpcode (commandWord e.1) = true := by
    rw [word, internalOpcode, opcodeOf_opWord]
    exact decide_eq_true range
  rw [runCommand_of_internal internal, word, opWord]

/-- Settles O9: each of these commands only raises, with the word that its encoding is. -/
theorem illegalOpcodesRaise : Obligations.IllegalOpcodesRaise := by
  intro x a b c d e s clear
  have raised {i : Instr} {w : Word} (raises : runCommand words32 i s = raiseOnly words32 .illegalOpcode w s) :
      exec i s = .next (State.faulted 1#8 w s) := exec_of_raiseOnly clear raises
  exact ⟨raised rfl, raised rfl, raised rfl, raised rfl, raised rfl, raised rfl, raised rfl, raised rfl⟩

/-- The bits [23:8] of a command word are those of its OPERAND. -/
theorem operandOf_high (w : Word) : (operandOf w).extractLsb' 8 16 = w.extractLsb' 8 16 := by
  simp [operandOf]

/-- Reserved OPERAND bits that are 1 only raise RESERVED_NONZERO, each command with its own reserved bits (R119 (c)). -/
theorem runCommand_of_reserved [DecidableEq α] {w : Word} {payload : List Word}
    (h : ((opcodeOf w).toNat = 3 ∨ (opcodeOf w).toNat = 4) ∧ operandOf w ≠ 0#24
      ∨ (opcodeOf w).toNat = 5 ∧ w.extractLsb' 8 16 ≠ 0#16) (s : State.Over α ω) :
    runCommand K (decodeCommand w payload) s
      = raiseOnly K .reservedNonzero (commandWord (decodeCommand w payload)) s := by
  rcases h with ⟨opcode | opcode, set⟩ | ⟨opcode, set⟩ <;> simp only [decodeCommand, opcode]
  · exact runCommand_flush_reserved set s
  · exact runCommand_reset_reserved set s
  · exact runCommand_readReg_reserved (operandOf_high w ▸ set) _ s

/-- A word that only raises a fault, at the front of the input of a block that is not faulted. -/
theorem step_of_raiseOnly {s : State} {w : Word} {rest : List Word} {cause : FaultCause} (clear : s.fault = false)
    (front : s.input = w :: rest) (single : payloadLength w = 0)
    (raises : runCommand words32 (decodeCommand w []) (State.withInput rest s)
      = raiseOnly words32 cause (commandWord (decodeCommand w [])) (State.withInput rest s)) :
    step s = .next (State.faulted cause.code w (State.withInput rest s)) := by
  have fits : ([] : List Word).length = payloadLength w := single.symm
  rw [commandWord_decodeCommand fits] at raises
  rw [step_of_command (by rw [front]; exact decode_of_fits fits rest)]
  exact exec_of_raiseOnly clear raises

/-- Settles O7: each of these words has no payload, and its command only raises the fault of its class. -/
theorem illegalReservedWords : Obligations.IllegalReservedWords := by
  intro s w rest clear front op after
  have raised (cause : FaultCause) (h1 : op ≠ 1) (h2 : op ≠ 2)
      (raises : commandWord (decodeCommand w []) = w → runCommand words32 (decodeCommand w []) after
        = raiseOnly words32 cause (commandWord (decodeCommand w [])) after) :
      step s = .next (State.faulted cause.code w after) :=
    have single : payloadLength w = 0 := payloadLength_eq_zero h1 h2
    step_of_raiseOnly clear front single (raises (commandWord_decodeCommand single.symm))
  refine ⟨fun ⟨unlisted, internal⟩ => ?illegal, fun internal => ?internal, fun reserved => ?reserved⟩
  case illegal =>
    have host : ¬(1 ≤ op ∧ op ≤ 5) := by
      simp only [List.mem_cons, List.not_mem_nil, or_false] at unlisted
      omega
    refine raised .illegalOpcode (by omega) (by omega) fun word => runCommand_of_illegal ?_ ?_ _ <;> rw [word]
    · exact decide_eq_false internal
    · exact decide_eq_false host
  case internal =>
    refine raised .internalOpcode (by omega) (by omega) fun word => runCommand_of_internal ?_ _
    rw [word]
    exact decide_eq_true internal
  case reserved => exact raised .reservedNonzero (by omega) (by omega) fun _ => runCommand_of_reserved reserved _

end Sys2Proof.Machine
end

section
/-! The words of a FRAME record (R86, R120, R122): each payload word takes 32 of the frame's bits, the first one on top. -/

namespace Sys2Proof.Machine

@[simp] theorem bitOf_getLsbD_zero (b : Bool) : (bitOf b).getLsbD 0 = b := by cases b <;> rfl

/-- One bit shifted into a word from below. -/
theorem getLsbD_shiftIn (acc : Word) (b : Bool) {i : Nat} (h : i < 32) :
    (acc <<< 1 ||| (bitOf b).zeroExtend 32).getLsbD i = if i = 0 then b else acc.getLsbD (i - 1) := by
  rcases i with _ | i
  · simp
  · simp [h, -BitVec.getLsbD_eq_getElem]

/-- Bits shifted in one after the other: the last one is at bit 0. -/
theorem getLsbD_shiftIn_foldl (f : Nat → Bool) {n i : Nat} (h : i < n) (le : n ≤ 32) :
    ((List.range n).foldl (fun (acc : Word) k => acc <<< 1 ||| (bitOf (f k)).zeroExtend 32) (0#32)).getLsbD i
      = f (n - 1 - i) := by
  induction n generalizing i with
  | zero => omega
  | succ n ih =>
    rw [List.range_succ, List.foldl_append, List.foldl_cons, List.foldl_nil, getLsbD_shiftIn _ _ (by omega)]
    rcases i with _ | i
    · simp
    · rw [if_neg (by omega), Nat.add_sub_cancel, ih (by omega) (by omega)]
      congr 1
      omega

/-- Bit `31 - i` of payload word `k` is frame bit `32 k + i`. -/
theorem frameWord_getLsbD (bits : List Bool) (k : Nat) {i : Nat} (h : i < 32) :
    (frameWord bits k).getLsbD (31 - i) = bits.getD (32 * k + i) false := by
  rw [frameWord, getLsbD_shiftIn_foldl (fun i => bits.getD (32 * k + i) false) (by omega) le_rfl]
  congr 2
  omega

theorem frameWords_length (bits : List Bool) : (frameWords bits).length = (bits.length + 31) / 32 := by
  simp [frameWords]

theorem frameWords_getD (bits : List Bool) {k : Nat} (h : k < (bits.length + 31) / 32) :
    (frameWords bits).getD k 0#32 = frameWord bits k := by
  simp [frameWords, List.getD_eq_getElem?_getD, h]

/-- The words of a FRAME record, header and timestamp first. -/
theorem frame_words (complete : Bool) (ts : BitVec 64) (bits : List Bool) :
    (Record.frame complete ts bits : Record F32 Word).words =
      header 0x04#8 (bitOf complete ++ BitVec.ofNat 23 bits.length) :: ts.extractLsb' 0 32 :: ts.extractLsb' 32 32
        :: frameWords bits :=
  List.map_id _

/-- The fields of a FRAME header: TAG, the complete flag and the number of bits. -/
theorem frameHeader_fields (complete : Bool) {n : Nat} (h : n < 2 ^ 23) :
    (header 0x04#8 (bitOf complete ++ BitVec.ofNat 23 n)).extractLsb' 24 8 = 0x04#8
      ∧ (header 0x04#8 (bitOf complete ++ BitVec.ofNat 23 n)).getLsbD 23 = complete
      ∧ ((header 0x04#8 (bitOf complete ++ BitVec.ofNat 23 n)).extractLsb' 0 23).toNat = n := by
  refine ⟨BitVec.extractLsb'_append_eq_left, ?_, ?_⟩
  · rw [header, BitVec.getLsbD_append, if_pos (by decide), BitVec.getLsbD_append]
    simp
  · rw [header, BitVec.extractLsb'_append_eq_of_add_le (by decide), BitVec.extractLsb'_append_eq_right,
      BitVec.toNat_ofNat, Nat.mod_eq_of_lt h]

/-- Settles O51: frame bit `j` is the bit `j mod 32` from the top of payload word `j / 32`. -/
theorem frameBitPacking : Obligations.FrameBitPacking := by
  intro complete ts bits
  rw [frame_words]
  refine ⟨?_, rfl, rfl, fun j inside => ?_, fun short => frameHeader_fields complete short⟩
  · simp only [List.length_cons, frameWords_length]
    omega
  · have word : j / 32 < (bits.length + 31) / 32 := by omega
    have payload (a b c : Word) (ws : List Word) :
        (a :: b :: c :: ws).getD (3 + j / 32) 0#32 = ws.getD (j / 32) 0#32 := by
      rw [Nat.add_comm, List.getD_cons_succ, List.getD_cons_succ, List.getD_cons_succ]
    rw [payload, frameWords_getD bits word, frameWord_getLsbD bits _ (Nat.mod_lt j (by decide)), Nat.div_add_mod]

end Sys2Proof.Machine
end

section
/-! What the internal operations touch (R118): three of them write the setup, the sample history or `prebias_done`, the others
at most the working state of a symbol. -/

namespace Sys2Proof.Machine

variable {α ω : Type} {K : Reading α ω}

/-- What an internal operation keeps that is neither EQ_CONFIGURE, PREBIAS nor DATAPATH_RESET. -/
structure InternalFrame (s t : State.Over α ω) : Prop where
  setup : State.SameSetup s t
  output : State.OutputContinues s t
  smp : t.smp = s.smp
  r : t.r = s.r
  p : t.p = s.p
  refTs : t.refTs = s.refTs
  prebiasDone : t.prebiasDone = s.prebiasDone

theorem InternalFrame.refl (s : State.Over α ω) : InternalFrame s s := ⟨.refl s, .refl s, rfl, rfl, rfl, rfl, rfl⟩

theorem SymbolFrame.internal {s t : State.Over α ω} (h : SymbolFrame s t) : InternalFrame s t :=
  ⟨h.setup, h.output, h.smp, h.r, h.p, h.refTs, h.prebiasDone⟩

theorem ProcessFrame.internal {s t : State.Over α ω} (h : ProcessFrame s t) (p : t.p = s.p) : InternalFrame s t :=
  ⟨h.setup, h.output, h.smp, h.r, p, h.refTs, h.prebiasDone⟩

/-- SYMBOL_STEP leaves `p` to the loop around it. -/
theorem opSymbolStep_p (n : Int) (s : State.Over α ω) : (opSymbolStep K n s).p = s.p :=
  ((sampleFrame_invariant s).symbolStep n (.of_blanked (K := K) rfl)).p

/-- The three internal operations that write the setup, the sample history or `prebias_done`, and what every other one
keeps. -/
theorem runInternal_cases (op : InternalOp α) (s : State.Over α ω) :
    (∃ sps, op = .eqConfigure sps) ∨ (∃ vs, op = .prebias vs) ∨ op = .datapathReset
      ∨ InternalFrame s (runInternal K op s).1 := by
  cases op with
  | eqConfigure sps => exact .inl ⟨sps, rfl⟩
  | prebias vs => exact .inr (.inl ⟨vs, rfl⟩)
  | datapathReset => exact .inr (.inr (.inl rfl))
  | eqReset => exact .inr (.inr (.inr (opEqReset_frame s).internal))
  | eqApply c => exact .inr (.inr (.inr (opEqApply_frame K c s).internal))
  | sampleStep n => exact .inr (.inr (.inr ((opSampleStep_process n s).internal (opSampleStep_frame n s).p)))
  | symbolStep n => exact .inr (.inr (.inr ((opSymbolStep_process n s).internal (opSymbolStep_p n s))))
  | syncCheck n mu => exact .inr (.inr (.inr (opSyncCheck_frame K n mu s).internal))
  | acceptSync c kind => exact .inr (.inr (.inr (opAcceptSync_frame K c kind s).internal))
  | coastSync => exact .inr (.inr (.inr (opCoastSync_frame K s).internal))
  | recordPush d => exact .inr (.inr (.inr (opRecordPush_frame K d s).internal))
  | framerSync => exact .inr (.inr (.inr (opFramerSync_frame K s).internal))
  | framerDibit d => exact .inr (.inr (.inr (opFramerDibit_frame K d s).internal))
  | dispatch => exact .inr (.inr (.inr (opDispatch_frame K s).internal))
  | _ => exact .inr (.inr (.inr (.refl s)))

/-- The operations that only compute a value keep the whole state. -/
theorem runInternal_value {op : InternalOp α} (h : op.id ∈ [0x80#8, 0x81#8, 0x82#8, 0x86#8, 0x87#8, 0x88#8, 0x89#8,
    0x8A#8, 0x8B#8, 0x8C#8, 0x8D#8, 0x8E#8, 0x92#8, 0x9A#8]) (s : State.Over α ω) : (runInternal K op s).1 = s := by
  cases op with
  | eqConfigure | eqReset | eqApply | prebias | sampleStep | symbolStep | syncCheck | acceptSync | coastSync | recordPush
  | framerSync | framerDibit | dispatch | datapathReset => simp [InternalOp.id] at h
  | _ => rfl

/-- Settles O53: the frame that an operation keeps, and the three operations beside it with what they write. -/
theorem internalOpsFrame : Obligations.InternalOpsFrame := by
  intro op s t
  have value := fun h => runInternal_value (K := words32) (op := op) h s
  rcases runInternal_cases (K := words32) op s with ⟨sps, rfl⟩ | ⟨vs, rfl⟩ | rfl | frame
  · exact ⟨rfl, rfl, rfl, rfl, rfl, rfl, rfl, rfl, .of_eq rfl, fun other => absurd rfl other,
      fun _ => ⟨rfl, rfl, rfl, rfl⟩, fun _ _ => rfl, value⟩
  · obtain ⟨setup, smp, r, p⟩ := opPrebias_frame (K := words32) vs s
    obtain ⟨output, refTs, -⟩ := opPrebias_streams (K := words32) vs s
    exact ⟨setup.params, setup.input, setup.configured, setup.sps, setup.symbolRate, setup.fault, setup.faultCode,
      setup.faultInfo, .of_eq output, fun _ => ⟨setup.gainInitial, setup.gainMin, setup.gainMax⟩,
      fun _ => ⟨smp, r, p, refTs⟩, fun _ other => absurd rfl other, value⟩
  · exact ⟨rfl, rfl, rfl, rfl, rfl, rfl, rfl, rfl, .of_eq rfl, fun _ => ⟨rfl, rfl, rfl⟩,
      fun other => absurd rfl other, fun other => absurd rfl other, value⟩
  · obtain ⟨setup, output, smp, r, p, refTs, prebiasDone⟩ := frame
    exact ⟨setup.params, setup.input, setup.configured, setup.sps, setup.symbolRate, setup.fault, setup.faultCode,
      setup.faultInfo, output, fun _ => ⟨setup.gainInitial, setup.gainMin, setup.gainMax⟩,
      fun _ => ⟨smp, r, p, refTs⟩, fun _ _ => prebiasDone, value⟩

end Sys2Proof.Machine
end

section
/-! How far a nearest pattern can be from its number, and the gain limits of EQ_CONFIGURE (R153). -/

namespace Sys2Proof.Machine

/-! ### Patterns near a number -/

/-- Every number of at most 24 bits at an exponent of binary32 has a pattern. -/
theorem F32.exists_value_eq {k : Nat} {e : Int} (bits : k < 2 ^ 24) (low : -149 ≤ e)
    (small : k * (2 : ℝ) ^ e < 2 ^ 128 - 2 ^ 103) :
    ∃ c : F32, F32.isFinite c = true ∧ (F32.value c : ℝ) = k * (2 : ℝ) ^ e := by
  have exact := F32.truncates_exact k e
  refine ⟨F32.round false k e false, (F32.round_nearest false exact (by simp) small).1, ?_⟩
  by_cases zero : k = 0
  · have value : F32.value (F32.zero false) = 0 := by decide +kernel
    rw [zero, F32.round_zero, value]
    simp
  · have log : Nat.log2 k < 24 := (Nat.log2_lt zero).2 bits
    have place : F32.lastPlace k e ≤ e := max_le (by omega) low
    rw [F32.coe_value_round false zero (F32.kept_below_inf zero exact (by simp) small), F32.kept_exact false place,
      F32.signFactor_false, one_mul]

/-- The pattern nearest to a number that 24 bits reach is less than the last of these bits away. -/
theorem F32.Nearest.abs_sub_lt {v : F32} {x : ℝ} {e : Int} (near : F32.Nearest v x) (nonneg : 0 ≤ x)
    (below : x < (2 : ℝ) ^ (e + 24)) (low : -149 ≤ e) (small : x < 2 ^ 128 - 2 ^ 103) :
    |(F32.value v : ℝ) - x| < (2 : ℝ) ^ e := by
  have unit : (0 : ℝ) < 2 ^ e := by positivity
  have floor_le : (⌊x / 2 ^ e⌋₊ : ℝ) * 2 ^ e ≤ x := (le_div_iff₀ unit).1 (Nat.floor_le (by positivity))
  have lt_floor : x < (⌊x / 2 ^ e⌋₊ + 1) * (2 : ℝ) ^ e := (div_lt_iff₀ unit).1 (Nat.lt_floor_add_one _)
  have bits : ⌊x / 2 ^ e⌋₊ < 2 ^ 24 := by
    rw [Nat.floor_lt (by positivity), div_lt_iff₀ unit]
    calc x < (2 : ℝ) ^ (e + 24) := below
      _ = ((2 ^ 24 : Nat) : ℝ) * 2 ^ e := by
        rw [add_comm, zpow_add₀ two_ne_zero]
        norm_num
  obtain ⟨c, finite, value⟩ := F32.exists_value_eq bits low (floor_le.trans_lt small)
  calc |(F32.value v : ℝ) - x| ≤ |(F32.value c : ℝ) - x| := (near.2 c finite).1
    _ < 2 ^ e := by
      rw [value, abs_sub_comm, abs_of_nonneg (by linarith)]
      linarith

/-- The patterns nearest to two numbers below 64 that are an eighth apart differ: a last place there is at most 2^-18. -/
theorem F32.Nearest.value_lt {v w : F32} {x y : ℝ} (hv : F32.Nearest v x) (hw : F32.Nearest w y) (nonneg : 0 ≤ x)
    (apart : x + 1 / 8 ≤ y) (below : y < 64) : F32.value v < F32.value w := by
  have bound : (64 : ℝ) < 2 ^ 128 - 2 ^ 103 := by norm_num
  have reach : (2 : ℝ) ^ ((-18 : Int) + 24) = 64 := by norm_num
  have place : (2 : ℝ) ^ (-18 : Int) < 1 / 16 := by norm_num
  have near_x := abs_lt.1 ((hv.abs_sub_lt (e := -18) nonneg (by linarith) (by decide) (by linarith)).trans place)
  have near_y := abs_lt.1 ((hw.abs_sub_lt (e := -18) (by linarith) (by linarith) (by decide) (by linarith)).trans place)
  have lt : (F32.value v : ℝ) < F32.value w := by linarith [near_x.2, near_y.1]
  exact_mod_cast lt

/-- A product below 64 is finite and nearest to the exact one. -/
theorem F32.mul_nearest_of_lt {a c : F32} (ha : F32.isFinite a = true) (hc : F32.isFinite c = true)
    (nonneg : 0 ≤ F32.value a * F32.value c) (below : F32.value a * F32.value c < 64) :
    F32.Nearest (F32.mul a c) ((F32.value a : ℝ) * F32.value c) := by
  have nonnegR : (0 : ℝ) ≤ F32.value a * F32.value c := by exact_mod_cast nonneg
  have belowR : (F32.value a : ℝ) * F32.value c < 64 := by exact_mod_cast below
  exact F32.mul_nearest ha hc (by
    rw [abs_of_nonneg nonnegR]
    linarith [show (64 : ℝ) < 2 ^ 128 - 2 ^ 103 by norm_num])

/-- Products below 64 whose exact values are an eighth apart are in strict order. -/
theorem F32.mul_lt_mul_of_apart {a b c : F32} (ha : F32.isFinite a = true) (hb : F32.isFinite b = true)
    (hc : F32.isFinite c = true) (nonneg : 0 ≤ F32.value a * F32.value c)
    (apart : F32.value a * F32.value c + 1 / 8 ≤ F32.value b * F32.value c) (below : F32.value b * F32.value c < 64) :
    F32.lt (F32.mul a c) (F32.mul b c) = true := by
  have apartR := (Rat.cast_le (K := ℝ)).2 apart
  push_cast at apartR
  have near_a := F32.mul_nearest_of_lt ha hc nonneg (by linarith)
  have near_b := F32.mul_nearest_of_lt hb hc (by linarith) below
  rw [(F32.compare_floor near_a.1 near_b.1).1]
  exact near_a.value_lt near_b (by exact_mod_cast nonneg) apartR (by exact_mod_cast below)

/-! ### The gain limits (R153) -/

/-- At the reference point the ratio is 1.0, so the limits are the constants. -/
theorem gainLimits_reference :
    gainLimits binary32 0x40A6A7F0#32 = ⟨0x40B66666#32, 0x40A66666#32, 0x40C66666#32⟩ := by
  have ratio : F32.div 0x40A6A7F0#32 0x40A6A7F0#32 = 0x3F800000#32 := by decide +kernel
  rw [gainLimits_binary32, ratio]
  decide +kernel

/-- The exact constants are a half apart, and the ratio is at least a quarter. -/
theorem gainLimits_strict {sps : F32} (low : 0x40000000 ≤ sps.toNat) (high : sps.toNat ≤ 0x42000000) :
    let g := gainLimits binary32 sps
    F32.lt g.min g.initial = true ∧ F32.lt g.initial g.max = true
      ∧ F32.isFinite g.min = true ∧ F32.isFinite g.initial = true ∧ F32.isFinite g.max = true := by
  obtain ⟨finite, quarter_le, le_eight⟩ := gainRatio_bounds low high
  have constants : 5 ≤ F32.value 0x40A66666#32 ∧ F32.value 0x40B66666#32 = F32.value 0x40A66666#32 + 1 / 2
      ∧ F32.value 0x40C66666#32 = F32.value 0x40B66666#32 + 1 / 2 ∧ F32.value 0x40C66666#32 ≤ 7 := by decide +kernel
  obtain ⟨five_le, lower, upper, le_seven⟩ := constants
  rw [gainLimits_binary32]
  generalize F32.div sps 0x40A6A7F0#32 = ratio at *
  have least : 0 ≤ F32.value 0x40A66666#32 * F32.value ratio := by nlinarith
  have apart_lower : F32.value 0x40A66666#32 * F32.value ratio + 1 / 8 ≤ F32.value 0x40B66666#32 * F32.value ratio := by
    rw [lower]
    linarith
  have apart_upper : F32.value 0x40B66666#32 * F32.value ratio + 1 / 8 ≤ F32.value 0x40C66666#32 * F32.value ratio := by
    rw [upper]
    linarith
  have greatest : F32.value 0x40C66666#32 * F32.value ratio < 64 := by nlinarith
  exact ⟨F32.mul_lt_mul_of_apart (by decide) (by decide) finite least apart_lower (by linarith),
    F32.mul_lt_mul_of_apart (by decide) (by decide) finite (by linarith) apart_upper greatest,
    (F32.mul_nearest_of_lt (by decide) finite least (by linarith)).1,
    (F32.mul_nearest_of_lt (by decide) finite (by linarith) (by linarith)).1,
    (F32.mul_nearest_of_lt (by decide) finite (by linarith) greatest).1⟩

/-- Settles O27: the exact limits of an accepted SPS are an eighth apart, far more than a rounding moves them. -/
theorem gainLimitsOrdered : Obligations.GainLimitsOrdered := by
  refine ⟨gainLimits_reference, fun sps accepted => ?_⟩
  obtain ⟨low, high⟩ := of_decide_eq_true accepted
  exact gainLimits_strict low high

end Sys2Proof.Machine
end

section
/-! The equalizer's operations, each said once (R150 to R155): UNWRAP by its three cases, EQUALIZE, EQ_SYMBOL as an
interpolation, EQ_APPLY as one state. -/

namespace Sys2Proof.Machine

variable {α ω : Type}

/-! ### UNWRAP (R151) -/

/-- The three cases of UNWRAP: above π, below -π, and neither. -/
theorem unwrap_cases (N : Numerics α) (e : α) :
    (N.lt (N.const .pi) e = true ∧ unwrap N e = N.sub e (N.const .twoPi))
      ∨ (N.lt e (N.neg (N.const .pi)) = true ∧ unwrap N e = N.add e (N.const .twoPi))
      ∨ (N.lt (N.const .pi) e = false ∧ N.lt e (N.neg (N.const .pi)) = false ∧ unwrap N e = e) := by
  unfold unwrap
  split
  case isTrue above => exact .inl ⟨above, rfl⟩
  case isFalse notAbove =>
    split
    case isTrue below => exact .inr (.inl ⟨below, rfl⟩)
    case isFalse notBelow =>
      exact .inr (.inr ⟨Bool.eq_false_iff.2 notAbove, Bool.eq_false_iff.2 notBelow, rfl⟩)

/-- The patterns that UNWRAP compares with and moves by; -π is the negated pattern of π. -/
theorem unwrap_binary32 (e : F32) : unwrap binary32 e =
    if F32.lt 0x40490FDB#32 e = true then F32.sub e 0x40C90FDB#32
    else if F32.lt e 0xC0490FDB#32 = true then F32.add e 0x40C90FDB#32
    else e := by
  have neg_pi : 0xC0490FDB#32 = F32.neg 0x40490FDB#32 := by decide
  rw [neg_pi]
  rfl

/-- Over the reals UNWRAP takes one turn off beyond π, puts one on below -π, and keeps the rest. -/
theorem real_unwrap_cases (e : ℝ) :
    (Real.pi < e ∧ unwrap realNumerics e = e - 2 * Real.pi) ∨ (e < -Real.pi ∧ unwrap realNumerics e = e + 2 * Real.pi)
      ∨ (|e| ≤ Real.pi ∧ unwrap realNumerics e = e) := by
  have cases := unwrap_cases realNumerics e
  simp only [realNumerics_lt, realNumerics_not_lt, realNumerics_neg, realNumerics_sub, realNumerics_add,
    realNumerics_const, realConst] at cases
  rcases cases with above | below | ⟨le, ge, same⟩
  · exact .inl above
  · exact .inr (.inl below)
  · exact .inr (.inr ⟨abs_le.2 ⟨ge, le⟩, same⟩)

theorem real_unwrap_of_abs_le {e : ℝ} (h : |e| ≤ Real.pi) : unwrap realNumerics e = e := by
  obtain ⟨ge, le⟩ := abs_le.1 h
  rcases real_unwrap_cases e with ⟨above, -⟩ | ⟨below, -⟩ | ⟨-, same⟩
  · exact absurd le (not_le.2 above)
  · exact absurd ge (not_le.2 below)
  · exact same

theorem real_abs_unwrap_le {e : ℝ} (h : |e| ≤ 3 * Real.pi) : |unwrap realNumerics e| ≤ Real.pi := by
  obtain ⟨ge, le⟩ := abs_le.1 h
  rcases real_unwrap_cases e with ⟨above, moved⟩ | ⟨below, moved⟩ | ⟨within, same⟩
  · rw [moved, abs_le]
    constructor <;> linarith
  · rw [moved, abs_le]
    constructor <;> linarith
  · rwa [same]

theorem real_unwrap_turns (e : ℝ) :
    ∃ k : Int, |k| ≤ 1 ∧ unwrap realNumerics e = e + (k : ℝ) * (2 * Real.pi) := by
  rcases real_unwrap_cases e with ⟨-, moved⟩ | ⟨-, moved⟩ | ⟨-, same⟩
  · exact ⟨-1, by decide, by rw [moved]; push_cast; ring⟩
  · exact ⟨1, by decide, by rw [moved]; push_cast; ring⟩
  · exact ⟨0, by decide, by rw [same]; push_cast; ring⟩

/-- Settles O28: the three cases of UNWRAP, at the patterns of π and over the reals. -/
theorem unwrapOneTurn : Obligations.UnwrapOneTurn :=
  ⟨unwrap_binary32, fun e => ⟨real_unwrap_of_abs_le, real_abs_unwrap_le, real_unwrap_turns e⟩⟩

/-! ### EQUALIZE and EQ_SYMBOL (R150, R152) -/

theorem opEqualize_eq (K : Reading α ω) (v : α) (s : State.Over α ω) :
    opEqualize K v s = K.num.mul (K.num.add v s.balance) s.gain := rfl

/-- EQ_SYMBOL goes from the first equalized, unwrapped sample of the history towards the second (R152). -/
theorem opEqSymbol_eq (K : Reading α ω) (n : Int) (off : α) (s : State.Over α ω) :
    let equalized : Int → α := fun j => unwrap K.num (opEqualize K (s.sampleAt K j) s)
    let e1 := equalized (n + K.num.floor off)
    let e2 := equalized (n + K.num.floor off + 1)
    opEqSymbol K n off s = K.num.add e1 (K.num.mul (K.num.sub e2 e1) (interpolationFraction K.num off)) := rfl

/-- EQ_SYMBOL over the reals moves from the first sample to the second by the fraction of the offset. -/
theorem real_eqSymbol_eq (g : Signal ℝ) (n : Int) (off : ℝ) :
    eqSymbol realNumerics g n off = eqSample realNumerics g (n + ⌊off⌋)
      + (eqSample realNumerics g (n + ⌊off⌋ + 1) - eqSample realNumerics g (n + ⌊off⌋)) * Int.fract off := rfl

/-- A point at a fraction of the way between two numbers is between them. -/
theorem interpolation_between (a b : ℝ) {t : ℝ} (nonneg : 0 ≤ t) (le_one : t ≤ 1) :
    min a b ≤ a + (b - a) * t ∧ a + (b - a) * t ≤ max a b := by
  have weighted : a + (b - a) * t = (1 - t) • a + t • b := by
    simp only [smul_eq_mul]
    ring
  have rest : 0 ≤ 1 - t := sub_nonneg.2 le_one
  rw [weighted]
  exact ⟨Convex.min_le_combo a b rest nonneg (sub_add_cancel 1 t), Convex.combo_le_max a b rest nonneg (sub_add_cancel 1 t)⟩

/-- Settles O29: at binary32 the two operations are their texts; over the reals the fraction of the offset is in [0, 1). -/
theorem eqSymbolInterpolates : Obligations.EqSymbolInterpolates := by
  refine ⟨opEqualize_eq words32, opEqSymbol_eq words32, fun g n off => ?_⟩
  intro e1 e2 v
  have interpolated : v = e1 + (e2 - e1) * Int.fract off := real_eqSymbol_eq g n off
  obtain ⟨min_le, le_max⟩ := interpolation_between e1 e2 (Int.fract_nonneg off) (Int.fract_lt_one off).le
  refine ⟨interpolated, interpolated ▸ min_le, interpolated ▸ le_max, fun whole => ?_⟩
  have fraction : Int.fract off = 0 := by rw [whole, Int.fract_intCast]
  rw [interpolated, fraction, mul_zero, add_zero]

/-! ### EQ_APPLY (R155) -/

/-- EQ_APPLY writes the balance, the gain and `synchronized`; a recalibration, which only a synchronized block makes, restores
the gain and clears `synchronized`. -/
theorem opEqApply_eq (K : Reading α ω) (c : Correction α) (s : State.Over α ω) :
    opEqApply K c s =
      ({ s with
          balance := appliedBalance K.num s.synchronized s.balance c.balAdj
          gain := if recalibrates K.num s.synchronized c.balAdj then s.gainInitial
            else appliedGain K.num s.synchronized s.gain c.gainAdj s.gainMin s.gainMax
          synchronized := s.synchronized && !recalibrates K.num s.synchronized c.balAdj },
        recalibrates K.num s.synchronized c.balAdj) := by
  unfold opEqApply
  cases recal : recalibrates K.num s.synchronized c.balAdj with
  | true => simp [opEqReset]
  | false => simp

/-- The limits of the balance are the pattern of π/3 and its negation. -/
theorem appliedBalance_binary32 (synchronized : Bool) (balance balAdj : F32) :
    appliedBalance binary32 synchronized balance balAdj
      = clamp binary32 (F32.add balance (F32.mul (loopFactor binary32 synchronized) balAdj)) 0xBF860A92#32
        0x3F860A92#32 := by
  have neg_limit : 0xBF860A92#32 = F32.neg 0x3F860A92#32 := by decide
  rw [neg_limit]
  rfl

/-- Settles O30: EQ_APPLY as one state, with the patterns of its constants. -/
theorem eqApplyResult : Obligations.EqApplyResult := by
  intro c s
  rw [opEqApply_eq, words32_num, appliedBalance_binary32]
  rfl

end Sys2Proof.Machine
end

section
/-! The dibit primitive (R180 to R182) and the bit errors of hard decisions against a pattern (R184). -/

namespace Sys2Proof.Machine

/-! ### IDEAL_PHASE and TO_SYMBOL (R180, R181) -/

theorem F32.key_eq_neg {v : F32} (h : 2 ^ 31 ≤ v.toNat) : F32.key v = 2 ^ 31 - (v.toNat : Int) := by
  have := v.isLt
  rw [F32.key, F32.sign_eq, F32.abs_toNat, decide_eq_true h, if_pos rfl]
  omega

/-- TO_SYMBOL of a pattern that is no NaN, by the place of its key about 0 and the quadrant boundaries. -/
theorem toSymbol_binary32 {v : F32} (number : F32.isNaN v = false) :
    toSymbol binary32 v =
      if 0 ≤ F32.key v then (if 0x3FC90FDB < F32.key v then 0b01#2 else 0b00#2)
      else (if F32.key v < -0x3FC90FDB then 0b11#2 else 0b10#2) := by
  have zero : F32.le 0x00000000#32 v = decide (0 ≤ F32.key v) := by
    rw [F32.le, number]
    rfl
  have above : F32.lt 0x3FC90FDB#32 v = decide (0x3FC90FDB < F32.key v) := by
    rw [F32.lt, number]
    rfl
  have below : F32.lt v (F32.neg 0x3FC90FDB#32) = decide (F32.key v < -0x3FC90FDB) := by
    rw [F32.lt, number, show F32.isNaN (F32.neg 0x3FC90FDB#32) = false by decide,
      show F32.key (F32.neg 0x3FC90FDB#32) = -0x3FC90FDB by decide]
    rfl
  unfold toSymbol
  simp only [binary32, binary32Const, zero, above, below, decide_eq_true_eq]

/-- Settles O31: the table by evaluation; the regions by the key of a pattern below and from 2^31 on. -/
theorem dibitQuadrants : Obligations.DibitQuadrants := by
  refine ⟨by decide, by decide, by decide, by decide, fun v finite => ?_⟩
  rw [toSymbol_binary32 (F32.not_isNaN_of_isFinite finite)]
  rcases lt_or_ge v.toNat (2 ^ 31) with positive | negative
  · rw [F32.key_eq_toNat positive, if_pos (by omega)]
    refine ⟨fun _ => if_neg ?_, fun _ _ => if_pos ?_, ?_, ?_, ?_⟩ <;> omega
  · rw [F32.key_eq_neg negative]
    refine ⟨?_, ?_, fun zero => ?_, fun _ _ => ?_, fun _ => ?_⟩
    · omega
    · omega
    · rw [if_pos (by omega), if_neg (by omega)]
    · rw [if_neg (by omega), if_neg (by omega)]
    · rw [if_neg (by omega), if_pos (by omega)]

/-! ### BIT_DISTANCE (R182) -/

theorem bitDistance_le_two : ∀ a b : Dibit, bitDistance a b ≤ 2 := by decide

theorem bitDistance_eq_zero_iff : ∀ a b : Dibit, bitDistance a b = 0 ↔ a = b := by decide

/-- Settles O32: the table over the four dibits of a row and of a column. -/
theorem bitDistanceTable : Obligations.BitDistanceTable := ⟨by decide, bitDistance_le_two⟩

/-! ### HARD_ERRORS (R184) -/

@[simp] theorem bitErrors_nil_left (pat : List Dibit) : bitErrors [] pat = 0 := rfl

@[simp] theorem bitErrors_nil_right (ds : List Dibit) : bitErrors ds [] = 0 := by simp [bitErrors]

@[simp] theorem bitErrors_cons (d e : Dibit) (ds pat : List Dibit) :
    bitErrors (d :: ds) (e :: pat) = bitDistance d e + bitErrors ds pat := rfl

theorem bitErrors_le (ds pat : List Dibit) : bitErrors ds pat ≤ 2 * pat.length := by
  induction pat generalizing ds with
  | nil => simp
  | cons e pat ih =>
    cases ds with
    | nil => simp
    | cons d ds =>
      have first := bitDistance_le_two d e
      have rest := ih ds
      rw [bitErrors_cons, List.length_cons]
      omega

theorem bitErrors_eq_zero_iff {ds pat : List Dibit} (len : ds.length = pat.length) : bitErrors ds pat = 0 ↔ ds = pat := by
  induction ds generalizing pat with
  | nil => simp [List.eq_nil_of_length_eq_zero len.symm]
  | cons d ds ih =>
    cases pat with
    | nil => simp at len
    | cons e pat =>
      rw [bitErrors_cons, Nat.add_eq_zero_iff, bitDistance_eq_zero_iff, ih (Nat.succ.inj len), List.cons.injEq]

/-- The bit errors place by place, by index. -/
theorem bitErrors_eq_sum_range {ds pat : List Dibit} (len : ds.length = pat.length) :
    bitErrors ds pat
      = ((List.range pat.length).map fun k => bitDistance (ds.getD k 0#2) (pat.getD k 0#2)).sum := by
  refine congrArg List.sum (List.ext_getElem (by simp [len]) fun k left _ => ?_)
  obtain ⟨inDs, inPat⟩ := List.lt_length_left_of_zipWith left, List.lt_length_right_of_zipWith left
  simp [inDs, inPat]

/-- Settles O33: the three facts of the bit errors of two lists of one length. -/
theorem hardErrorsCount : Obligations.HardErrorsCount := fun s len =>
  ⟨bitErrors_eq_sum_range len, bitErrors_le s.hardHist s.params.syncPattern, bitErrors_eq_zero_iff len⟩

end Sys2Proof.Machine
end

section
/-! Sums in order and what the detectors compute with them: SOFT_SCORE (R183), STDDEV (R185), SCORE_AT and MEASURE (R186,
R187). -/

namespace Sys2Proof.Machine

/-! ### Sums in order (R8) -/

theorem sumInOrder_concat {α : Type} (N : Numerics α) (vs : List α) (v : α) :
    sumInOrder N (vs ++ [v]) = N.add (sumInOrder N vs) v :=
  List.foldl_concat ..

theorem real_sumInOrder (vs : List ℝ) : sumInOrder realNumerics vs = vs.sum := List.sum_eq_foldl.symm

/-! ### SOFT_SCORE (R183) -/

/-- One lane more adds its product to the score of the lanes before it. -/
theorem softScore_concat {α : Type} (N : Numerics α) {hist : List α} {pat : List Dibit} (len : hist.length = pat.length)
    (v : α) (d : Dibit) :
    softScore N (hist ++ [v]) (pat ++ [d]) = N.add (softScore N hist pat) (N.mul v (idealPhase N d)) := by
  rw [softScore, List.zipWith_append len]
  exact sumInOrder_concat ..

/-- The product of a +0.0 with an ideal phase is a zero of either sign, which a sum of +0.0 absorbs. -/
theorem add_mul_zero_idealPhase :
    ∀ d : Dibit, F32.add 0x00000000#32 (F32.mul 0x00000000#32 (idealPhase binary32 d)) = 0x00000000#32 := by decide

theorem softScore_replicate_zero (pat : List Dibit) :
    softScore binary32 (List.replicate pat.length 0x00000000#32) pat = 0x00000000#32 := by
  induction pat using List.reverseRecOn with
  | nil => rfl
  | append_singleton pat d ih =>
    rw [List.length_append, List.length_singleton, List.replicate_succ', softScore_concat binary32 List.length_replicate, ih]
    exact add_mul_zero_idealPhase d

/-- Settles O34: the score lane by lane from the oldest. -/
theorem softScoreAccumulates : Obligations.SoftScoreAccumulates :=
  ⟨rfl, fun _ _ v d len => softScore_concat binary32 len v d, softScore_replicate_zero⟩

/-! ### STDDEV (R185) -/

theorem real_stddev_eq (vs : List ℝ) :
    stddev realNumerics vs
      = (Real.sqrt ((vs.map fun v => (v - vs.sum / vs.length) ^ 2).sum / vs.length), vs.sum / vs.length) := by
  simp [stddev, real_sumInOrder, sq]

theorem sum_squares_nonneg (vs : List ℝ) (c : ℝ) : 0 ≤ (vs.map fun v => (v - c) ^ 2).sum :=
  List.sum_nonneg (List.forall_mem_map.2 fun _ _ => sq_nonneg _)

theorem real_mean_of_constant {vs : List ℝ} (ne : vs ≠ []) {c : ℝ} (constant : ∀ v ∈ vs, v = c) :
    vs.sum / vs.length = c := by
  have len : (vs.length : ℝ) ≠ 0 := Nat.cast_ne_zero.2 (List.length_pos_iff.2 ne).ne'
  rw [List.eq_replicate_of_mem constant, List.sum_replicate, List.length_replicate, nsmul_eq_mul, mul_div_cancel_left₀ c len]

/-- A constant sequence does not deviate from its mean. -/
theorem real_stddev_of_constant {vs : List ℝ} (ne : vs ≠ []) {c : ℝ} (constant : ∀ v ∈ vs, v = c) :
    (stddev realNumerics vs).1 = 0 := by
  have squares : vs.map (fun v => (v - c) ^ 2) = vs.map fun _ => 0 :=
    List.map_congr_left fun v mem => by rw [constant v mem, sub_self, sq, zero_mul]
  rw [real_stddev_eq, real_mean_of_constant ne constant, squares]
  simp

/-- Settles O35: at binary32 the text itself; over the reals the root of a mean of squares. -/
theorem stddevPopulation : Obligations.StddevPopulation := by
  refine ⟨fun _ => rfl, fun vs ne => ⟨?_, ?_, ?_, fun c => real_stddev_of_constant ne⟩⟩
  · rw [real_stddev_eq]
  · rw [real_stddev_eq]
    exact Real.sqrt_nonneg _
  · rw [real_stddev_eq]
    exact Real.sq_sqrt (div_nonneg (sum_squares_nonneg vs _) vs.length.cast_nonneg)

/-! ### MEASURE (R187) -/

theorem bitErrors_map_toSymbol {α : Type} (N : Numerics α) (vs : List α) (pat : List Dibit) :
    bitErrors (vs.map (toSymbol N)) pat = (List.zipWith (fun v d => bitDistance (toSymbol N v) d) vs pat).sum := by
  rw [bitErrors, List.zipWith_map_left]

theorem sum_zipWith_sub {β : Type} (f : β → ℝ) {vs : List ℝ} {ds : List β} (len : vs.length = ds.length) :
    (List.zipWith (fun v d => v - f d) vs ds).sum = vs.sum - (ds.map f).sum := by
  induction vs generalizing ds with
  | nil => simp [List.eq_nil_of_length_eq_zero len.symm]
  | cons v vs ih =>
    cases ds with
    | nil => simp at len
    | cons d ds =>
      rw [List.zipWith_cons_cons, List.sum_cons, ih (Nat.succ.inj len), List.map_cons, List.sum_cons, List.sum_cons]
      ring

/-- The mean error of the symbols against the ideal phases (R187). -/
def meanError {α : Type} (N : Numerics α) (vs : List α) (pat : List Dibit) : α :=
  N.div (sumInOrder N (List.zipWith (fun v d => N.sub v (idealPhase N d)) vs pat)) (N.ofInt pat.length)

/-- The sum of the distances of the symbols from the mean error (R187). -/
def symbolSpread {α : Type} (N : Numerics α) (vs : List α) (pat : List Dibit) : α :=
  sumInOrder N (vs.map fun v => N.abs (N.sub v (meanError N vs pat)))

theorem measurement_eq {α : Type} (N : Numerics α) (gain : α) (vs : List α) (pat : List Dibit) :
    measurement N gain vs pat =
      { balAdj := N.div (N.neg (meanError N vs pat)) gain
        gainAdj :=
          if N.lt (N.const .zero) (symbolSpread N vs pat) then
            N.sub (N.mul gain (N.div (sumInOrder N (pat.map fun d => N.abs (idealPhase N d))) (symbolSpread N vs pat))) gain
          else N.const .zero
        correctedBits := (List.zipWith (fun v d => bitDistance (toSymbol N v) d) vs pat).sum } := by
  rw [← bitErrors_map_toSymbol]
  rfl

theorem measurement_correctedBits_le {α : Type} (N : Numerics α) (gain : α) (vs : List α) (pat : List Dibit) :
    (measurement N gain vs pat).correctedBits ≤ 2 * pat.length :=
  bitErrors_le (vs.map (toSymbol N)) pat

theorem real_meanError {vs : List ℝ} {pat : List Dibit} (len : vs.length = pat.length) :
    meanError realNumerics vs pat = (vs.sum - (pat.map (idealPhase realNumerics)).sum) / pat.length := by
  simp only [meanError, realNumerics_sub, real_sumInOrder, realNumerics_ofInt, Int.cast_natCast, realNumerics_div,
    sum_zipWith_sub _ len]

theorem real_symbolSpread (vs : List ℝ) (pat : List Dibit) :
    symbolSpread realNumerics vs pat = (vs.map fun v => |v - meanError realNumerics vs pat|).sum := real_sumInOrder _

/-- Without a spread the gain stays. -/
theorem real_gainAdj_of_no_spread (gain : ℝ) {vs : List ℝ} {pat : List Dibit} (none : symbolSpread realNumerics vs pat = 0) :
    (measurement realNumerics gain vs pat).gainAdj = 0 := by
  rw [measurement_eq]
  exact if_neg ((realNumerics_lt ..).not.2 none.not_gt)

/-- The adjusted gain scales the spread to the ideal magnitude. -/
theorem real_gainAdj_scales {gain : ℝ} (gain_ne : gain ≠ 0) {vs : List ℝ} {pat : List Dibit}
    (pos : 0 < symbolSpread realNumerics vs pat) :
    (gain + (measurement realNumerics gain vs pat).gainAdj) / gain * symbolSpread realNumerics vs pat
      = (pat.map fun d => |idealPhase realNumerics d|).sum := by
  have adjusted : (measurement realNumerics gain vs pat).gainAdj
      = gain * ((pat.map fun d => |idealPhase realNumerics d|).sum / symbolSpread realNumerics vs pat) - gain := by
    rw [measurement_eq, ← real_sumInOrder (pat.map fun d => |idealPhase realNumerics d|)]
    exact if_pos ((realNumerics_lt ..).2 pos)
  rw [adjusted, add_sub_cancel, mul_div_cancel_left₀ _ gain_ne, div_mul_cancel₀ _ pos.ne']

theorem sum_map_add_const (vs : List ℝ) (c : ℝ) : (vs.map fun v => v + c).sum = vs.sum + vs.length * c := by
  rw [List.sum_map_add, List.map_id', List.map_const', List.sum_replicate, nsmul_eq_mul]

/-- Over the reals the balance adjustment, through the gain, takes the mean error off the sum of the symbols. -/
theorem real_balAdj_cancels {gain : ℝ} (gain_ne : gain ≠ 0) {vs : List ℝ} {pat : List Dibit} (pat_ne : pat ≠ [])
    (len : vs.length = pat.length) :
    (vs.map fun v => v + (measurement realNumerics gain vs pat).balAdj * gain).sum
      = (pat.map (idealPhase realNumerics)).sum := by
  have count : (pat.length : ℝ) ≠ 0 := Nat.cast_ne_zero.2 (List.length_pos_iff.2 pat_ne).ne'
  have balAdj : (measurement realNumerics gain vs pat).balAdj = -meanError realNumerics vs pat / gain := rfl
  rw [sum_map_add_const, balAdj, div_mul_cancel₀ _ gain_ne, real_meanError len, len, mul_neg, mul_div_cancel₀ _ count]
  ring

/-- Settles O36: at binary32 the text itself; over the reals the mean error and the spread cancel out. -/
theorem measureCancels : Obligations.MeasureCancels := by
  refine ⟨fun pat n t s => measurement_eq binary32 s.gain _ pat, fun gain vs pat gain_ne pat_ne len => ?_⟩
  intro m ideal mean spread
  have spread_eq : symbolSpread realNumerics vs pat = spread := by rw [real_symbolSpread, real_meanError len]
  have magnitudes : (ideal.map fun v => |v|) = pat.map fun d => |idealPhase realNumerics d| := List.map_map
  refine ⟨real_balAdj_cancels gain_ne pat_ne len, fun pos => ?_, fun none => ?_, ?_, ?_⟩
  · rw [magnitudes, ← spread_eq]
    exact real_gainAdj_scales gain_ne (spread_eq ▸ pos)
  · exact real_gainAdj_of_no_spread gain (spread_eq.trans none)
  · exact congrArg Measurement.correctedBits (measurement_eq ..)
  · exact measurement_correctedBits_le ..

end Sys2Proof.Machine
end

section
/-! The timing search and OPTIMIZE (R188, R189): what one iteration does, where the search stays, why it ends, and what it
answers. -/

namespace Sys2Proof.Machine

variable {α ω : Type}

/-! ### One iteration (R189) -/

/-- A number above another is no NaN: it is at least itself. -/
def Numerics.LeSelfOfLt (N : Numerics α) : Prop := ∀ {a b : α}, N.lt a b = true → N.le b b = true

theorem binary32_leSelfOfLt : Numerics.LeSelfOfLt binary32 := fun above => by
  obtain ⟨-, number, -⟩ := (F32.lt_iff ..).1 above
  exact (F32.le_iff ..).2 ⟨number, number, le_rfl⟩

theorem real_leSelfOfLt : Numerics.LeSelfOfLt realNumerics := fun _ => (realNumerics_le ..).2 le_rfl

/-- The state of the search after a move. -/
def Search.moved (scoreOf : α → α) (off : α) (c : Search α) : Search α := ⟨off, scoreOf off, c.step⟩

/-- The state of the search after its step is halved. -/
def Search.halved (N : Numerics α) (c : Search α) : Search α := { c with step := N.div c.step (N.const .two) }

/-- One iteration without the candidates that are missing: a neighbour counts where it is in the window. Where only the right one
is there, its comparison with -inf holds because a score above another is no NaN. -/
theorem searchStep_eq {N : Numerics α} (self : N.LeSelfOfLt) (scoreOf : α → α) (window : α) (c : Search α) :
    searchStep N scoreOf window c =
      if N.le (N.add c.off c.step) window = true ∧ N.lt c.score (scoreOf (N.add c.off c.step)) = true
          ∧ (N.le (N.neg window) (N.sub c.off c.step) = true →
            N.le (scoreOf (N.sub c.off c.step)) (scoreOf (N.add c.off c.step)) = true) then
        c.moved scoreOf (N.add c.off c.step)
      else if N.le (N.neg window) (N.sub c.off c.step) = true ∧ N.lt c.score (scoreOf (N.sub c.off c.step)) = true then
        c.moved scoreOf (N.sub c.off c.step)
      else c.halved N := by
  simp only [searchStep]
  cases rightOpen : N.le (N.add c.off c.step) window <;> cases leftOpen : N.le (N.neg window) (N.sub c.off c.step)
  case true.false =>
    cases above : N.lt c.score (scoreOf (N.add c.off c.step)) with
    | false => simp [candidateAbove, above, Search.halved]
    | true => simp [candidateAbove, candidateAtLeast, above, self above, Search.moved]
  all_goals simp [candidateAbove, candidateAtLeast, Search.moved, Search.halved]

/-- What one iteration can do: move to a neighbour in the window with a higher score, or halve the step. -/
theorem searchStep_cases {N : Numerics α} (self : N.LeSelfOfLt) (scoreOf : α → α) (window : α) (c : Search α) :
    (∃ off, (off = N.add c.off c.step ∧ N.le off window = true ∨ off = N.sub c.off c.step ∧ N.le (N.neg window) off = true)
        ∧ N.lt c.score (scoreOf off) = true ∧ searchStep N scoreOf window c = c.moved scoreOf off)
      ∨ searchStep N scoreOf window c = c.halved N := by
  rw [searchStep_eq self]
  split
  case isTrue right =>
    obtain ⟨inside, above, -⟩ := right
    exact .inl ⟨_, .inl ⟨rfl, inside⟩, above, rfl⟩
  split
  case isTrue left =>
    obtain ⟨inside, above⟩ := left
    exact .inl ⟨_, .inr ⟨rfl, inside⟩, above, rfl⟩
  exact .inr rfl

/-- What holds at the start of the search and along every iteration holds where the search stops. -/
theorem search_induct {N : Numerics α} {scoreOf : α → α} {window : α} {P : Search α → Prop}
    (iterate : ∀ {c}, P c → P (searchStep N scoreOf window c)) (minStep : α) (fuel : Nat) {c : Search α} (start : P c) :
    P (search N scoreOf window minStep fuel c) := by
  induction fuel generalizing c with
  | zero => exact start
  | succ fuel ih =>
    unfold search
    split
    · exact ih (iterate start)
    · exact start

/-! ### The search over the reals stays in its window -/

/-- The offset is in the window, the step is above 0, and the score is that of the offset and at least `low`. -/
structure RealSearchKept (scoreOf : ℝ → ℝ) (window low : ℝ) (c : Search ℝ) : Prop where
  inside : |c.off| ≤ window
  step : 0 < c.step
  score : c.score = scoreOf c.off
  above : low ≤ c.score

theorem RealSearchKept.searchStep {scoreOf : ℝ → ℝ} {window low : ℝ} {c : Search ℝ} (h : RealSearchKept scoreOf window low c) :
    RealSearchKept scoreOf window low (searchStep realNumerics scoreOf window c) := by
  obtain ⟨inside, step, score, above⟩ := h
  obtain ⟨lower, upper⟩ := abs_le.1 inside
  rcases searchStep_cases real_leSelfOfLt scoreOf window c with ⟨off, side, higher, e⟩ | e <;> rw [e]
  · rw [realNumerics_lt] at higher
    refine ⟨?_, step, rfl, above.trans higher.le⟩
    simp only [realNumerics_add, realNumerics_sub, realNumerics_neg, realNumerics_le] at side
    rcases side with ⟨rfl, le⟩ | ⟨rfl, le⟩
    · exact abs_le.2 ⟨show -window ≤ c.off + c.step by linarith, le⟩
    · exact abs_le.2 ⟨le, show c.off - c.step ≤ window by linarith⟩
  · exact ⟨inside, half_pos step, score, above⟩

/-- Settles O37: every iteration keeps the window and the score. -/
theorem searchInWindow : Obligations.SearchInWindow := by
  intro scoreOf window minStep fuel c inside step score
  have kept := search_induct (P := RealSearchKept scoreOf window c.score) RealSearchKept.searchStep minStep fuel
    ⟨inside, step, score, le_rfl⟩
  exact ⟨kept.inside, kept.score, kept.above⟩

/-! ### The search at binary32 ends (R189 (a)) -/

theorem F32.half_nearest {v : F32} (finite : F32.isFinite v = true) :
    F32.Nearest (F32.div v 0x40000000#32) ((F32.value v : ℝ) / 2) := by
  have two : F32.value 0x40000000#32 = 2 := by decide +kernel
  have near := F32.div_nearest (b := 0x40000000#32) finite (by decide) (by rw [two]; exact two_ne_zero) (by
    have := F32.abs_value_lt finite
    rw [two, abs_div]
    norm_num at this ⊢
    linarith)
  rw [two] at near
  exact_mod_cast near

/-- Above the least pattern there is another number between it and 0. -/
theorem F32.exists_between_zero {v : F32} (finite : F32.isFinite v = true) (pos : 1 < F32.key v) :
    ∃ c : F32, F32.isFinite c = true ∧ 0 < F32.value c ∧ F32.value c < F32.value v := by
  have zero : F32.value 0x00000000#32 = 0 := by decide +kernel
  have key_zero : F32.key 0x00000000#32 = 0 := by decide
  have positive := F32.toNat_lt_of_key_pos (zero_lt_one.trans pos)
  have key := F32.key_eq_toNat positive
  have one_le : 1#32 ≤ v := BitVec.le_def.2 (show 1 ≤ v.toNat by omega)
  have lower : (v - 1#32).toNat = v.toNat - 1 := BitVec.toNat_sub_of_le one_le
  have key_lower : F32.key (v - 1#32) = (v.toNat - 1 : Nat) := lower ▸ F32.key_eq_toNat (by omega)
  refine ⟨v - 1#32, ?_, ?_, ?_⟩
  · rw [F32.isFinite_iff, F32.expField_eq] at finite ⊢
    omega
  · rw [← zero, F32.value_lt_iff]
    omega
  · rw [F32.value_lt_iff]
    omega

/-- The least pattern above 0 halves to +0.0, on the tie; the half of any other one is nearer to a number below it. -/
theorem F32.key_half_lt {v : F32} (finite : F32.isFinite v = true) (pos : 0 < F32.key v) :
    F32.key (F32.div v 0x40000000#32) < F32.key v := by
  by_cases least : v = 1#32
  · rw [least]
    decide
  have above : 1 < F32.key v := by
    have key := F32.key_eq_toNat (F32.toNat_lt_of_key_pos pos)
    have : v.toNat ≠ 1 := fun one => least (BitVec.eq_of_toNat_eq one)
    omega
  obtain ⟨c, c_finite, c_pos, c_lt⟩ := F32.exists_between_zero finite above
  obtain ⟨near, -⟩ := (F32.half_nearest finite).2 c c_finite
  rw [← F32.value_lt_iff]
  by_contra higher
  have c_pos : (0 : ℝ) < F32.value c := by exact_mod_cast c_pos
  have c_lt : (F32.value c : ℝ) < F32.value v := by exact_mod_cast c_lt
  have le : (F32.value v : ℝ) ≤ F32.value (F32.div v 0x40000000#32) := by exact_mod_cast not_lt.1 higher
  have closer : |(F32.value c : ℝ) - F32.value v / 2| < F32.value v / 2 := abs_lt.2 ⟨by linarith, by linarith⟩
  have farther := le_abs_self ((F32.value (F32.div v 0x40000000#32) : ℝ) - F32.value v / 2)
  linarith

/-- How many iterations are left at most: the scores above and the steps below. -/
def searchBudget (c : Search F32) : Nat := (2 ^ 31 - F32.key c.score).toNat + (F32.key c.step).toNat

theorem searchBudget_le (c : Search F32) : searchBudget c ≤ searchFuel := by
  have score := F32.key_bounds c.score
  have step := F32.key_bounds c.step
  unfold searchBudget searchFuel
  omega

/-- An iteration at a step above 0 keeps the step finite and uses up budget: a move raises the score, a halving lowers the step. -/
theorem searchStep_budget {scoreOf : F32 → F32} {window : F32} {c : Search F32} (finite : F32.isFinite c.step = true)
    (pos : 0 < F32.key c.step) :
    F32.isFinite (searchStep binary32 scoreOf window c).step = true
      ∧ searchBudget (searchStep binary32 scoreOf window c) < searchBudget c := by
  rcases searchStep_cases binary32_leSelfOfLt scoreOf window c with ⟨off, -, higher, e⟩ | e <;> rw [e]
  · obtain ⟨-, -, raised⟩ := (F32.lt_iff ..).1 higher
    have bounds := F32.key_bounds (scoreOf off)
    refine ⟨finite, ?_⟩
    simp only [searchBudget, Search.moved]
    omega
  · have lowered : F32.key (binary32.div c.step (binary32.const .two)) < F32.key c.step := F32.key_half_lt finite pos
    refine ⟨(F32.half_nearest finite).1, ?_⟩
    simp only [searchBudget, Search.halved]
    omega

/-- With fuel for the whole budget the search stops by its own test. -/
theorem search_ends {scoreOf : F32 → F32} {window minStep : F32} (min_pos : F32.lt 0x00000000#32 minStep = true) {fuel : Nat}
    {c : Search F32} (finite : F32.isFinite c.step = true) (enough : searchBudget c ≤ fuel) :
    F32.le minStep (search binary32 scoreOf window minStep fuel c).step = false := by
  have step_pos {v : F32} (le : F32.le minStep v = true) : 0 < F32.key v := by
    obtain ⟨-, -, zero_lt⟩ := (F32.lt_iff ..).1 min_pos
    obtain ⟨-, -, le⟩ := (F32.le_iff ..).1 le
    exact zero_lt.trans_le le
  induction fuel generalizing c with
  | zero =>
    refine Bool.eq_false_iff.2 fun le => ?_
    have pos : 0 < F32.key c.step := step_pos le
    unfold searchBudget at enough
    omega
  | succ fuel ih =>
    unfold search
    split
    case isTrue le =>
      obtain ⟨finite, less⟩ := searchStep_budget (scoreOf := scoreOf) (window := window) finite (step_pos le)
      exact ih finite (by omega)
    case isFalse stop => exact Bool.eq_false_iff.2 stop

/-- Settles O38: the fuel covers every budget. -/
theorem searchEnds : Obligations.SearchEnds := fun _ _ _ c finite min_pos => search_ends min_pos finite (searchBudget_le c)

/-! ### OPTIMIZE (R186, R188, R189) -/

theorem opScoreAt_eq (K : Reading α ω) (pat : List Dibit) (n : Int) (t : α) (s : State.Over α ω) :
    opScoreAt K pat n t s
      = softScore K.num ((List.range pat.length).map fun k : Nat =>
          opEqSymbol K n (K.num.sub t (K.num.mul (K.num.ofInt ((pat.length : Int) - 1 - (k : Int))) s.sps)) s) pat := rfl

/-- One iteration of the search, then the rest of it. -/
theorem search_succ {N : Numerics α} (self : N.LeSelfOfLt) (scoreOf : α → α) (window minStep : α) (fuel : Nat)
    (c : Search α) :
    search N scoreOf window minStep (fuel + 1) c =
      if N.le minStep c.step = false then c
      else if N.le (N.add c.off c.step) window = true ∧ N.lt c.score (scoreOf (N.add c.off c.step)) = true
          ∧ (N.le (N.neg window) (N.sub c.off c.step) = true →
            N.le (scoreOf (N.sub c.off c.step)) (scoreOf (N.add c.off c.step)) = true) then
        search N scoreOf window minStep fuel (c.moved scoreOf (N.add c.off c.step))
      else if N.le (N.neg window) (N.sub c.off c.step) = true ∧ N.lt c.score (scoreOf (N.sub c.off c.step)) = true then
        search N scoreOf window minStep fuel (c.moved scoreOf (N.sub c.off c.step))
      else search N scoreOf window minStep fuel (c.halved N) := by
  rw [search, searchStep_eq self, apply_ite (search N scoreOf window minStep fuel),
    apply_ite (search N scoreOf window minStep fuel)]
  cases N.le minStep c.step <;> rfl

theorem searchFirstStep_binary32 (sps : F32) (synchronized : Bool) :
    searchFirstStep binary32 sps synchronized = F32.div sps (if synchronized then 0x41000000#32 else 0x41800000#32) := by
  have coarse : F32.ofInt 8 = 0x41000000#32 := by decide
  have fine : F32.ofInt 16 = 0x41800000#32 := by decide
  cases synchronized with
  | true => exact congrArg (F32.div sps) coarse
  | false => exact congrArg (F32.div sps) fine

/-- Settles O39: the text of OPTIMIZE, and one iteration of its search. -/
theorem optimizeValid : Obligations.OptimizeValid := by
  intro pat add det n mu s base lo hi samples scoreOf window first climb found m
  refine ⟨fun t => opScoreAt_eq words32 pat n t s,
    search_succ binary32_leSelfOfLt scoreOf window s.params.minStep, ?_, measurement_correctedBits_le ..⟩
  have first_eq : searchFirstStep binary32 (s.signal words32).sps s.synchronized = first := searchFirstStep_binary32 ..
  have text : opOptimize words32 pat add det n mu s = optimize binary32 (s.signal words32) s.synchronized
    s.params.noiseStddevMax s.params.minStep searchFuel pat add det n mu := rfl
  rw [text, optimize, first_eq]
  rfl

end Sys2Proof.Machine
end

section
/-! Accepting a sync (R226, R227): the framer's answer to it as one state (R260, R262), then ACCEPT_SYNC and COAST_SYNC. -/

namespace Sys2Proof.Machine

variable {α ω : Type}

/-! ### The framer at a sync (R260, R262) -/

/-- The header of a FRAME record, field by field (R122). -/
theorem frameHeader_append (complete : BitVec 1) (count : BitVec 23) :
    header 0x04#8 (complete ++ count) = 0x04#8 ++ complete ++ count := by
  rw [header, BitVec.append_assoc]
  rfl

/-- DISPATCH emits the FRAME record of the assembler, counts it and empties the assembler. -/
theorem opDispatch_eq (s : State) :
    opDispatch words32 s =
      { s with output := s.output ++ dispatchedWords s, framesDispatched := s.framesDispatched + 1#32, asmBits := [] } := by
  have words : (Record.frame (decide (s.asmBits.length = s.params.frameBits)) (opFrameTimestamp s) s.asmBits).items words32
      = dispatchedWords s := (frame_words ..).trans (by rw [frameHeader_append]; rfl)
  simp only [opDispatch, State.emit, words, wrap32_succ]

/-- FRAMER_SYNC ends in an empty assembler that is assembling; a frame in progress is dispatched before. -/
theorem opFramerSync_eq (s : State) :
    opFramerSync words32 s =
      { s with
        output := s.output ++ (if decide (s.framerState = .assembling) then dispatchedWords s else [])
        framesDispatched := if decide (s.framerState = .assembling) then s.framesDispatched + 1#32 else s.framesDispatched
        framerState := .assembling
        asmBits := [] } := by
  rcases opFramerSync_cases words32 s with ⟨assembling, e⟩ | ⟨idle, e⟩
  · simp [e, assembling, opDispatch_eq]
  · simp [e, idle]

/-! ### ACCEPT_SYNC (R226) -/

/-- The header of a SYNC record, field by field (R124). -/
theorem syncHeader_append : ∀ (syncAfter recal : BitVec 1) (kind : BitVec 2),
    header 0x03#8 (0#20 ++ syncAfter ++ recal ++ kind) = 0x03#8 ++ 0#20 ++ syncAfter ++ recal ++ kind := by decide

theorem sync_items (kind : SyncKind) (recal syncAfter : Bool) (score shift : F32) :
    (Record.sync kind recal syncAfter score shift : Record F32 Word).items words32
      = [0x03#8 ++ 0#20 ++ bitOf syncAfter ++ bitOf recal ++ kind.code, score, shift] :=
  congrArg (· :: _) (syncHeader_append ..)

/-- After the Correction and the shift the block is synchronized, unless the Correction made a recalibration. -/
theorem acceptedState_eq (K : Reading α ω) (c : Correction α) (s : State.Over α ω) :
    acceptedState K c s =
      { (opEqApply K c s).1 with
        samplePoint := shiftedSamplePoint K.num s.samplePoint (correctionShift K.num c) s.sps
        symbolsSinceSync := 0#32
        synchronized := !(opEqApply K c s).2
        syncCount := s.syncCount + 1#32 } := by
  simp only [acceptedState, opEqApply_eq, wrap32_succ]
  cases recalibrates K.num s.synchronized c.balAdj <;> simp

/-- A dispatch reads nothing that ACCEPT_SYNC writes before it. -/
theorem dispatchedWords_accepted (record : Record F32 Word) (c : Correction F32) (s : State) :
    dispatchedWords (State.emit words32 record (acceptedState words32 c s)) = dispatchedWords s := by
  rw [acceptedState_eq, opEqApply_eq]
  rfl

/-- Settles O46: the framer's answer to the sync, of the state that the Correction and the shift leave. -/
theorem acceptSyncResult : Obligations.AcceptSyncResult := by
  intro c kind s applied recal shift moved assembling
  obtain ⟨framerState, -, -, -, framesDispatched, -, -, -, output, -⟩ := opEqApply_framer words32 c s
  rw [opAcceptSync_eq, opFramerSync_eq, dispatchedWords_accepted, acceptedState_eq]
  simp only [State.emit, sync_items, framerState, framesDispatched, output]
  rfl

/-! ### COAST_SYNC (R227) -/

/-- Settles O47: the framer's answer to the sync, of the state that only restarts the counter. -/
theorem coastSyncResult : Obligations.CoastSyncResult := by
  intro s assembling
  have header : 0x03#8 ++ 0#20 ++ bitOf true ++ bitOf false ++ SyncKind.coast.code = 0x0300000B#32 := by decide
  rw [opCoastSync_eq, opFramerSync_eq]
  simp only [State.emit, sync_items, header, coastedState, wrap32_succ]
  rfl

end Sys2Proof.Machine
end

section
/-! Detection (R224, R225): the detectors tried in order end in a count of invalid Corrections or in the first valid one, and
SYNC_CHECK as one conditional on the state it began with. -/

namespace Sys2Proof.Machine

variable {α ω : Type}

/-! ### The detectors in order (R225) -/

/-- The detector's score exceeds SYNC_DETECT_THRESHOLD (R224). -/
def Detector.fires (N : Numerics α) (d : Detector α) : Bool := N.lt (N.const .syncDetectThreshold) d.score

/-- What OPTIMIZE answers to the detector at the time (n, mu). -/
def Detector.answer (K : Reading α ω) (n : Int) (mu : α) (s : State.Over α ω) (d : Detector α) : OptimizeResult α :=
  opOptimize K d.pattern d.additionalOffset d.score n mu s

/-- `k` rejected Corrections counted (R329). -/
def countInvalids (k : Nat) (s : State.Over α ω) : State.Over α ω :=
  { s with invalidCount := s.invalidCount + BitVec.ofNat 32 k }

@[simp] theorem countInvalids_zero (s : State.Over α ω) : countInvalids 0 s = s := by
  simp [countInvalids]

theorem countInvalids_succ (k : Nat) (s : State.Over α ω) : countInvalids k (countInvalid s) = countInvalids (k + 1) s := by
  have sum : s.invalidCount + 1#32 + BitVec.ofNat 32 k = s.invalidCount + BitVec.ofNat 32 (k + 1) := by
    rw [BitVec.ofNat_add, BitVec.add_assoc, BitVec.add_comm 1#32]
  simp only [countInvalids, countInvalid, wrap32_succ, sum]

/-- A count of rejected Corrections does not change what OPTIMIZE answers. -/
theorem answer_countInvalid (K : Reading α ω) (n : Int) (mu : α) (s : State.Over α ω) (d : Detector α) :
    d.answer K n mu (countInvalid s) = d.answer K n mu s :=
  opOptimize_congr K rfl rfl rfl ..

/-- How many detectors of a list fire. -/
def firing (N : Numerics α) (ds : List (Detector α)) : Nat := (ds.filter (Detector.fires N)).length

@[simp] theorem firing_nil (N : Numerics α) : firing N [] = 0 := rfl

theorem firing_cons_of_low {N : Numerics α} {d : Detector α} (low : d.fires N = false) (ds : List (Detector α)) :
    firing N (d :: ds) = firing N ds := by
  rw [firing, List.filter_cons_of_neg (Bool.eq_false_iff.1 low), firing]

theorem firing_cons_of_high {N : Numerics α} {d : Detector α} (high : d.fires N = true) (ds : List (Detector α)) :
    firing N (d :: ds) = firing N ds + 1 := by
  rw [firing, List.filter_cons_of_pos high, List.length_cons, firing]

/-- Everything that trying the detectors can lead to: each one that fires is rejected and counted, or the first one that fires
with a valid Correction is accepted after the counts of those before it. -/
theorem tryDetectors_cases (K : Reading α ω) (n : Int) (mu : α) (ds : List (Detector α)) (s : State.Over α ω) :
    ((∀ d ∈ ds, d.fires K.num = true → d.answer K n mu s = none)
        ∧ tryDetectors K n mu ds s = (countInvalids (firing K.num ds) s, false))
      ∨ ∃ before d after c, ds = before ++ d :: after
          ∧ (∀ e ∈ before, e.fires K.num = true → e.answer K n mu s = none)
          ∧ d.fires K.num = true ∧ d.answer K n mu s = some c
          ∧ tryDetectors K n mu ds s =
            (opAcceptSync K c d.kind
              { countInvalids (firing K.num before) s with lastCorrectedBits := wrap32 c.correctedBits }, true) := by
  induction ds generalizing s with
  | nil => exact .inl ⟨by simp, by rw [firing_nil, countInvalids_zero, tryDetectors]⟩
  | cons d rest ih =>
    rcases tryDetectors_cons K n mu d rest s with ⟨low, e⟩ | ⟨high, c, valid, e⟩ | ⟨high, invalid, e⟩
    · replace low : d.fires K.num = false := low
      have silent : d.fires K.num = true → d.answer K n mu s = none := fun fires => absurd (fires.symm.trans low) nofun
      rcases ih s with ⟨none, k⟩ | ⟨before, f, after, c, split, none, fires, valid, k⟩
      · exact .inl ⟨List.forall_mem_cons.2 ⟨silent, none⟩, by rw [e, k, firing_cons_of_low low]⟩
      · exact .inr ⟨d :: before, f, after, c, by rw [split, List.cons_append], List.forall_mem_cons.2 ⟨silent, none⟩, fires,
          valid, by rw [e, k, firing_cons_of_low low]⟩
    · exact .inr ⟨[], d, rest, c, rfl, by simp, high, valid, by
        rw [e, firing_nil, countInvalids_zero]⟩
    · replace high : d.fires K.num = true := high
      have rejected : d.fires K.num = true → d.answer K n mu s = none := fun _ => invalid
      have unchanged := answer_countInvalid K n mu s
      rcases ih (countInvalid s) with ⟨none, k⟩ | ⟨before, f, after, c, split, none, fires, valid, k⟩
      · simp only [unchanged] at none
        exact .inl ⟨List.forall_mem_cons.2 ⟨rejected, none⟩, by rw [e, k, firing_cons_of_high high, countInvalids_succ]⟩
      · simp only [unchanged] at none valid
        exact .inr ⟨d :: before, f, after, c, by rw [split, List.cons_append], List.forall_mem_cons.2 ⟨rejected, none⟩, fires,
          valid, by rw [e, k, firing_cons_of_high high, countInvalids_succ]⟩

/-- Settles O45: the list by whether CONTROL_PATTERN is present; the order by an induction over it. -/
theorem firstValidDetector : Obligations.FirstValidDetector := by
  refine ⟨fun s => ?_, fun n mu ds s => tryDetectors_cases words32 n mu ds s⟩
  unfold detectors
  cases s.params.controlPattern <;> rfl

/-! ### SYNC_CHECK (R224) -/

theorem tryDetectors_cons_of_low {K : Reading α ω} {d : Detector α} (low : d.fires K.num = false) (n : Int) (mu : α)
    (rest : List (Detector α)) (s : State.Over α ω) : tryDetectors K n mu (d :: rest) s = tryDetectors K n mu rest s :=
  if_neg (Bool.eq_false_iff.1 low)

/-- Where no detector fires, none is tried. -/
theorem tryDetectors_of_low (K : Reading α ω) (n : Int) (mu : α) {ds : List (Detector α)} (s : State.Over α ω)
    (low : ∀ d ∈ ds, d.fires K.num = false) : tryDetectors K n mu ds s = (s, false) := by
  induction ds with
  | nil => rfl
  | cons d rest ih =>
    obtain ⟨low_d, low_rest⟩ := List.forall_mem_cons.1 low
    rw [tryDetectors_cons_of_low low_d, ih low_rest]

/-- Every detector's score is one of the three that R224 keeps. -/
theorem detectors_score (K : Reading α ω) (s : State.Over α ω) {d : Detector α} (mem : d ∈ detectors K s) :
    d.score = s.lastScorePrimary ∨ d.score = s.lastScoreControl ∨ d.score = s.lastScoreLag := by
  unfold detectors at mem
  cases control : s.params.controlPattern with
  | none =>
    simp only [control, List.mem_cons, List.not_mem_nil, or_false] at mem
    rcases mem with rfl | rfl <;> simp
  | some pat =>
    simp only [control, List.mem_cons, List.not_mem_nil, or_false] at mem
    rcases mem with rfl | rfl | rfl <;> simp

/-- A detection that accepts nothing has only kept the scores and counted. -/
theorem detection_of_not_accepted (K : Reading α ω) (n : Int) (mu : α) {s : State.Over α ω}
    (none : (detection K n mu s).2 = false) : ∃ k, (detection K n mu s).1 = countInvalids k (updateScores K s) := by
  unfold detection at none ⊢
  split at none
  case isTrue due =>
    rw [if_pos due]
    rcases tryDetectors_cases K n mu (detectors K (updateScores K s)) (updateScores K s) with
      ⟨-, e⟩ | ⟨_, _, _, _, _, _, _, _, e⟩
    · exact ⟨_, congrArg Prod.fst e⟩
    · rw [e] at none
      exact absurd none nofun
  case isFalse early =>
    rw [if_neg early]
    exact ⟨0, (countInvalids_zero _).symm⟩

/-- Neither the scores nor the counts of a detection move the coast test and the loss test. -/
theorem coastDue_detected (K : Reading α ω) (k : Nat) (s : State.Over α ω) :
    coastDue (countInvalids k (updateScores K s)) = coastDue s := rfl

theorem syncLost_detected (K : Reading α ω) (k : Nat) (s : State.Over α ω) :
    syncLost (countInvalids k (updateScores K s)) = syncLost s := rfl

theorem coastDue_iff (s : State.Over α ω) : coastDue s = true ↔ s.symbolsSinceSync = 384#32 ∧ opHardErrors s ≤ 10 := by
  have exactly : s.symbolsSinceSync.toNat = Config.syncInterval ↔ s.symbolsSinceSync = 384#32 :=
    BitVec.toNat_inj (y := 384#32)
  rw [coastDue, Bool.and_eq_true, decide_eq_true_eq, decide_eq_true_eq, exactly, Config.coastMaxBitErrors]

theorem syncLost_iff (s : State.Over α ω) :
    syncLost s = true ↔ s.synchronized = true ∧ 800 < s.symbolsSinceSync.toNat := by
  rw [syncLost, Bool.and_eq_true, decide_eq_true_eq, Config.lossSymbols]

/-- SYNC_CHECK by its four ends, the tests read off the state it began with. -/
theorem opSyncCheck_eq (K : Reading α ω) (n : Int) (mu : α) (s : State.Over α ω) :
    opSyncCheck K n mu s =
      if (detection K n mu s).2 = true then (detection K n mu s).1
      else if s.symbolsSinceSync = 384#32 ∧ opHardErrors s ≤ 10 then opCoastSync K (detection K n mu s).1
      else if s.synchronized = true ∧ 800 < s.symbolsSinceSync.toNat then
        { (detection K n mu s).1 with synchronized := false, gain := s.gainInitial }
      else (detection K n mu s).1 := by
  have text : opSyncCheck K n mu s =
      if (detection K n mu s).2 = true then (detection K n mu s).1
      else if coastDue (detection K n mu s).1 = true then opCoastSync K (detection K n mu s).1
      else if syncLost (detection K n mu s).1 = true then opEqReset (detection K n mu s).1
      else (detection K n mu s).1 := rfl
  rw [text]
  cases accepted : (detection K n mu s).2 with
  | true => rfl
  | false =>
    obtain ⟨k, e⟩ := detection_of_not_accepted K n mu accepted
    simp only [e, coastDue_detected, syncLost_detected, coastDue_iff, syncLost_iff]
    rfl

/-- Settles O44: the detection as R224 writes it, and that no detector fires where no score does. -/
theorem syncCheckResult : Obligations.SyncCheckResult := by
  intro n mu s t tried
  refine ⟨opSyncCheck_eq words32 n mu s, ?_⟩
  rintro (early | ⟨primary, lag, control⟩)
  · exact if_neg (not_le.2 early)
  · have low : ∀ d ∈ detectors words32 t, d.fires binary32 = false := by
      intro d mem
      unfold Detector.fires
      rcases detectors_score words32 t mem with score | score | score <;> rw [score]
      exacts [primary, control, lag]
    show (if _ then _ else _) = _
    rw [tryDetectors_of_low words32 n mu t low, ite_self]

end Sys2Proof.Machine
end

section
/-! A sample and its symbol (R220 to R223): the pre-bias, the nudge, SAMPLE_STEP, and SYMBOL_STEP as one SYNC_CHECK. -/

namespace Sys2Proof.Machine

variable {α ω : Type}

/-! ### PREBIAS (R220) -/

/-- PREBIAS does nothing once it is done, or on a block under PREBIAS_SAMPLES. -/
theorem opPrebias_of_done_or_short (K : Reading α ω) {v : List α} {s : State.Over α ω}
    (h : s.prebiasDone = true ∨ v.length < Config.prebiasSamples) : opPrebias K v s = s := by
  unfold opPrebias
  exact if_pos (by simpa using h)

/-- The test of PREBIAS: no sync, and a deviation of the first PREBIAS_SAMPLES samples within PREBIAS_NOISE_MAX. -/
def prebiasMoves (K : Reading α ω) (v : List α) (s : State.Over α ω) : Bool :=
  !s.synchronized && K.num.le (stddev K.num (v.take Config.prebiasSamples)).1 (K.ofPattern s.params.prebiasNoiseMax)

/-- The first large block sets `prebias_done`, and moves the balance where the test holds. -/
theorem opPrebias_first (K : Reading α ω) {v : List α} {s : State.Over α ω} (fresh : s.prebiasDone = false)
    (large : Config.prebiasSamples ≤ v.length) :
    opPrebias K v s =
      { s with
        balance :=
          if prebiasMoves K v s then
            prebiasedBalance K.num (K.ofPattern s.params.prebiasGain) s.balance
              (stddev K.num (v.take Config.prebiasSamples)).2
          else s.balance
        prebiasDone := true } := by
  unfold opPrebias
  exact if_neg (by simp [fresh, large])

/-- The limits of the pre-biased balance are the pattern of π/3 and its negation. -/
theorem prebiasedBalance_binary32 (prebiasGain balance mean : F32) :
    prebiasedBalance binary32 prebiasGain balance mean
      = clamp binary32 (F32.add balance (F32.mul prebiasGain (F32.sub (F32.neg mean) balance))) 0xBF860A92#32
        0x3F860A92#32 := by
  have neg_limit : 0xBF860A92#32 = F32.neg 0x3F860A92#32 := by decide
  rw [neg_limit]
  rfl

/-- Settles O40: the first large block by the outcome of its test. -/
theorem prebiasCases : Obligations.PrebiasCases := by
  intro v s sd mean moved
  have test : prebiasMoves words32 v s = (!s.synchronized && F32.le sd s.params.prebiasNoiseMax) := rfl
  refine ⟨opPrebias_of_done_or_short words32, fun fresh large still => ?_, fun fresh large lost quiet => ?_⟩
  · have stays : prebiasMoves words32 v s = false := by
      rcases still with sync | noisy
      · rw [test, sync, Bool.not_true, Bool.false_and]
      · rw [test, noisy, Bool.and_false]
    rw [opPrebias_first words32 fresh large, if_neg (Bool.eq_false_iff.1 stays)]
  · have moves : prebiasMoves words32 v s = true := by
      rw [test, lost, quiet]
      rfl
    rw [opPrebias_first words32 fresh large, if_pos moves, words32_num, prebiasedBalance_binary32]
    rfl

/-! ### TIMING_NUDGE (R223) -/

/-- The sign of an ideal phase is its dibit's high bit (R180). -/
theorem lt_zero_idealPhase : ∀ d : Dibit, F32.lt 0x00000000#32 (idealPhase binary32 d) = !d.getLsbD 1 := by decide

/-- Settles O43: the tests of the pseudocode in their order, with the sign of the phase read off the dibit. -/
theorem timingNudgeSign : Obligations.TimingNudgeSign := by
  intro n mu d s e1 e2 trend nudge
  have text : nudge =
      if F32.eq s.params.nudgeMax 0#32 = true then 0#32
      else if F32.eq trend 0#32 = true then 0#32
      else if (F32.lt 0#32 trend == F32.lt 0#32 (idealPhase binary32 d)) = true then s.params.nudgeMax
      else F32.neg s.params.nudgeMax := rfl
  rw [text, lt_zero_idealPhase]
  refine ⟨?_, fun enabled slope => ?_⟩
  · rintro (off | flat)
    · exact if_pos off
    · rw [if_pos flat, ite_self]
  · simp only [enabled, slope, beq_iff_eq, Bool.false_eq_true, if_false]

/-! ### SAMPLE_STEP (R221) -/

/-- Settles O41: the two cases of the text; the frames are those of the symbol's operations. -/
theorem sampleStepCases : Obligations.SampleStepCases := by
  intro n s t
  have frame := opSampleStep_frame (K := words32) n s
  have process := opSampleStep_process (K := words32) n s
  exact ⟨fun taken => if_pos taken, fun waits => if_neg (Bool.eq_false_iff.1 waits), frame.setup, frame.smp, frame.r, frame.p,
    process.refTs, process.prebiasDone⟩

/-! ### SYMBOL_STEP (R222) -/

theorem opFramerSync_counters (K : Reading α ω) (s : State.Over α ω) :
    (opFramerSync K s).dibitsSinceTs = s.dibitsSinceTs ∧ (opFramerSync K s).symbolsSinceSync = s.symbolsSinceSync := by
  rcases opFramerSync_cases K s with ⟨-, e⟩ | ⟨-, e⟩ <;> rw [e] <;> exact ⟨rfl, rfl⟩

theorem opAcceptSync_counters (K : Reading α ω) (c : Correction α) (kind : SyncKind) (s : State.Over α ω) :
    (opAcceptSync K c kind s).dibitsSinceTs = s.dibitsSinceTs ∧ (opAcceptSync K c kind s).symbolsSinceSync = 0#32 := by
  rw [opAcceptSync_eq, (opFramerSync_counters ..).1, (opFramerSync_counters ..).2, acceptedState_eq, opEqApply_eq]
  exact ⟨rfl, rfl⟩

theorem opCoastSync_counters (K : Reading α ω) (s : State.Over α ω) :
    (opCoastSync K s).dibitsSinceTs = s.dibitsSinceTs ∧ (opCoastSync K s).symbolsSinceSync = 0#32 := by
  rw [opCoastSync_eq, (opFramerSync_counters ..).1, (opFramerSync_counters ..).2]
  exact ⟨rfl, rfl⟩

theorem detection_counters (K : Reading α ω) (n : Int) (mu : α) (s : State.Over α ω) :
    (detection K n mu s).1.dibitsSinceTs = s.dibitsSinceTs
      ∧ ((detection K n mu s).1.symbolsSinceSync = 0#32 ∨ (detection K n mu s).1.symbolsSinceSync = s.symbolsSinceSync) := by
  unfold detection
  split
  · rcases tryDetectors_cases K n mu (detectors K (updateScores K s)) (updateScores K s) with
      ⟨-, e⟩ | ⟨before, d, after, c, -, -, -, -, e⟩ <;> rw [e]
    · exact ⟨rfl, .inr rfl⟩
    · obtain ⟨dibits, symbols⟩ := opAcceptSync_counters K c d.kind _
      exact ⟨dibits, .inl symbols⟩
  · exact ⟨rfl, .inr rfl⟩

/-- Over SYNC_CHECK the dibits since the timestamp stay, and the symbols since the sync stay or restart. -/
theorem opSyncCheck_counters (K : Reading α ω) (n : Int) (mu : α) (s : State.Over α ω) :
    (opSyncCheck K n mu s).dibitsSinceTs = s.dibitsSinceTs
      ∧ ((opSyncCheck K n mu s).symbolsSinceSync = 0#32 ∨ (opSyncCheck K n mu s).symbolsSinceSync = s.symbolsSinceSync) := by
  have detected := detection_counters K n mu s
  rcases opSyncCheck_cases K n mu s with ⟨-, e⟩ | ⟨-, -, e⟩ | ⟨-, -, -, e⟩ | ⟨-, -, -, e⟩ <;> rw [e]
  · exact detected
  · obtain ⟨dibits, symbols⟩ := opCoastSync_counters K (detection K n mu s).1
    exact ⟨dibits.trans detected.1, .inl symbols⟩
  · exact detected
  · exact detected

/-- The words of a SOFT record, its header field by field (R123). -/
theorem softHeader_append : ∀ d : Dibit, header 0x02#8 (d.zeroExtend 24) = 0x02#8 ++ 0#22 ++ d := by decide

/-- The state of SYMBOL_STEP with its SOFT record out, if SOFT_OUT_ENABLE has one emitted (R123, R222). -/
def softEmitted (d : Dibit) (soft : F32) (s : State) : State :=
  { s with output := s.output ++ (if s.params.softOutEnable then [0x02#8 ++ 0#22 ++ d, soft] else []) }

theorem softEmitted_eq (d : Dibit) (soft : F32) (s : State) :
    softEmitted d soft s = if s.params.softOutEnable then State.emit words32 (.soft d soft) s else s := by
  have words : (Record.soft d soft : Record F32 Word).items words32 = [0x02#8 ++ 0#22 ++ d, soft] :=
    congrArg (· :: _) (softHeader_append d)
  unfold softEmitted
  cases s.params.softOutEnable with
  | true => rw [if_pos rfl, if_pos rfl, State.emit, words]
  | false => rw [if_neg (by decide), if_neg (by decide), List.append_nil]

/-- The histories, the counters and the sample point of a symbol, of a state `u` that keeps those of `s`. -/
theorem countedState_eq (K : Reading α ω) (n : Int) (d : Dibit) (soft nudge : α) {s u : State.Over α ω}
    (frame : SymbolFrame s u) (signal : u.signal K = s.signal K) (samplePoint : u.samplePoint = s.samplePoint)
    (symbols : u.symbolsSinceSync = s.symbolsSinceSync) :
    countedState K n s.samplePoint d soft nudge u =
      { u with
        softHist := s.softHist.drop 1 ++ [soft]
        hardHist := s.hardHist.drop 1 ++ [d]
        lagHist := s.lagHist.drop 1
          ++ [opEqSymbol K n (K.num.sub s.samplePoint (K.num.div s.sps (K.num.const .two))) s]
        symbolsSinceSync := sat32 (s.symbolsSinceSync.toNat + 1)
        totalSymbols := s.totalSymbols + 1#32
        samplePoint := K.num.add (K.num.add s.samplePoint s.sps) nudge } := by
  have lag (off : α) : opEqSymbol K n off u = opEqSymbol K n off s := congrArg (eqSymbol K.num · n off) signal
  simp only [countedState, advanceSymbol, pushHistories, lag, frame.softHist, frame.hardHist, frame.lagHist, frame.setup.sps,
    frame.totalSymbols, samplePoint, symbols, wrap32_succ]

/-- Settles O42: the state before SYNC_CHECK by what the framer and the recording keep, the rest by what SYNC_CHECK keeps. -/
theorem symbolStepResult : Obligations.SymbolStepResult := by
  intro n s mu soft d nudge emitted u decided t
  have frame_emitted : SymbolFrame s emitted :=
    ⟨⟨rfl, rfl, rfl, rfl, rfl, rfl, rfl, rfl, rfl, rfl, rfl⟩, ⟨_, rfl⟩, rfl, rfl, rfl, rfl, rfl, rfl, rfl, rfl, rfl⟩
  have frame_taken : SymbolFrame emitted u := (opFramerDibit_frame words32 d emitted).trans (opRecordPush_frame words32 d _)
  obtain ⟨signal, -, samplePoint, symbols, dibits⟩ := takeDibit_keeps words32 d emitted
  have taken : decidedState words32 d soft s = u :=
    congrArg (fun v => opRecordPush words32 d (opFramerDibit words32 d v)) (softEmitted_eq d soft s).symm
  have counted : countedState words32 n mu d soft nudge u = decided :=
    countedState_eq words32 n d soft nudge (frame_emitted.trans frame_taken) signal samplePoint symbols
  have checked : t = opSyncCheck words32 n mu decided := by
    rw [← counted, ← taken]
    exact opSymbolStep_eq n s
  have frame := opSyncCheck_frame words32 n mu decided
  have process := opSymbolStep_process (K := words32) n s
  obtain ⟨keptDibits, symbolsSinceSync⟩ := opSyncCheck_counters words32 n mu decided
  rw [← checked] at frame keptDibits symbolsSinceSync
  exact ⟨checked, frame.softHist, frame.hardHist, frame.lagHist, frame.totalSymbols,
    keptDibits.trans (dibits.trans (wrap32_succ s.dibitsSinceTs)), symbolsSinceSync, process.setup,
    frame_taken.output.trans frame.output, process.smp, process.r, opSymbolStep_p n s, process.refTs, process.prebiasDone⟩

end Sys2Proof.Machine
end

section
/-! The recording over a sequence of dibits (R228): the byte assembler packs what leaves the delay line, four dibits a byte. -/

namespace Sys2Proof.Machine

/-! ### The byte assembler (R125, R228) -/

/-- The dibits of an unfinished byte: those after the last whole group of four. -/
def unpacked (left : List Dibit) : List Dibit := left.drop (4 * (left.length / 4))

theorem unpacked_of_short {left : List Dibit} (short : left.length < 4) : unpacked left = left := by
  rw [unpacked, Nat.div_eq_of_lt short, Nat.mul_zero, List.drop_zero]

theorem unpacked_four (d0 d1 d2 d3 : Dibit) (rest : List Dibit) : unpacked (d0 :: d1 :: d2 :: d3 :: rest) = unpacked rest := by
  have groups : 4 * ((d0 :: d1 :: d2 :: d3 :: rest).length / 4) = 4 * (rest.length / 4) + 4 := by
    simp only [List.length_cons]
    omega
  rw [unpacked, groups, unpacked]
  rfl

/-- The REC record of four dibits, the first in the high bits (R86, R125). -/
theorem recording_items_four : ∀ d0 d1 d2 d3 : Dibit,
    (Record.recording (recByte [d0, d1, d2, d3]) : Record F32 Word).items words32
      = [0x05#8 ++ 0#16 ++ d0 ++ d1 ++ d2 ++ d3] := by decide

/-- The byte assembler and the output when the dibits `left` have left the delay line. -/
def packed (left : List Dibit) (s : State) : State :=
  { s with output := s.output ++ recordingWords left, pack := unpacked left }

/-- The groups of four before the last dibits are out and change nothing of what follows. -/
theorem packed_four (d0 d1 d2 d3 : Dibit) (rest : List Dibit) (s : State) :
    packed (d0 :: d1 :: d2 :: d3 :: rest) s
      = packed rest { s with output := s.output ++ [0x05#8 ++ 0#16 ++ d0 ++ d1 ++ d2 ++ d3] } := by
  simp only [packed, unpacked_four, recordingWords, List.append_assoc, List.cons_append, List.nil_append]

theorem recordingWords_of_short {left : List Dibit} (short : left.length < 4) : recordingWords left = [] := by
  unfold recordingWords
  split
  · simp only [List.length_cons] at short
    omega
  · rfl

theorem packed_of_short {left : List Dibit} (short : left.length < 4) (s : State) :
    packed left s = { s with pack := left } := by
  rw [packed, recordingWords_of_short short, unpacked_of_short short, List.append_nil]

/-- One more dibit to the byte assembler is one more that has left the delay line. -/
theorem packDibit_packed (d : Dibit) (left : List Dibit) (s : State) :
    packDibit words32 d (packed left s) = packed (left ++ [d]) s := by
  induction left using recordingWords.induct generalizing s with
  | case1 d0 d1 d2 d3 rest ih =>
    rw [packed_four, ih]
    exact (packed_four d0 d1 d2 d3 (rest ++ [d]) s).symm
  | case2 left unfinished =>
    have short : left.length < 4 := by
      match left, unfinished with
      | [], _ | [_], _ | [_, _], _ | [_, _, _], _ => simp
      | d0 :: d1 :: d2 :: d3 :: rest, unfinished => exact (unfinished d0 d1 d2 d3 rest rfl).elim
    rw [packed_of_short short]
    rcases packDibit_cases words32 d { s with pack := left } with ⟨three, e⟩ | ⟨fewer, e⟩ <;> rw [e]
    · obtain ⟨d0, d1, d2, rfl⟩ := List.length_eq_three.1 three
      show _ = packed (d0 :: d1 :: d2 :: d :: []) s
      rw [packed_four, packed_of_short (by decide), State.emit]
      exact congrArg (fun words => { s with output := s.output ++ words, pack := [] }) (recording_items_four d0 d1 d2 d)
    · replace fewer : left.length ≠ 3 := fewer
      rw [packed_of_short (by rw [List.length_append, List.length_singleton]; omega)]

/-! ### The delay line (R44, R228) -/

/-- The recording of a block when it has taken the dibits `ds` from empty: the last `delay` of them wait, the others have
left. -/
def recorded (delay : Nat) (ds : List Dibit) (s : State) : State :=
  packed (ds.take (ds.length - delay)) { s with delayFifo := ds.drop (ds.length - delay) }

theorem recorded_nil (delay : Nat) {s : State} (noDelayed : s.delayFifo = []) (noPacked : s.pack = []) :
    recorded delay [] s = s := by
  rw [recorded, List.take_nil, List.drop_nil, packed_of_short (by decide)]
  exact congrArg₂ (fun fifo pack => { s with delayFifo := fifo, pack := pack }) noDelayed.symm noPacked.symm

/-- One more dibit to the recording: while the line fills it only waits, after that the oldest one leaves. -/
theorem opRecordPush_recorded (d : Dibit) (ds : List Dibit) {s : State} (enabled : s.params.recordEnable = true) :
    opRecordPush words32 d (recorded s.params.delaySymbols ds s) = recorded s.params.delaySymbols (ds ++ [d]) s := by
  obtain ⟨k, gone⟩ : ∃ k, ds.length - s.params.delaySymbols = k := ⟨_, rfl⟩
  have within : k ≤ ds.length := by omega
  have length : (ds ++ [d]).length = ds.length + 1 := List.length_append
  have before : recorded s.params.delaySymbols ds s = packed ((ds ++ [d]).take k) { s with delayFifo := ds.drop k } := by
    rw [recorded, gone, List.take_append_of_le_length within]
  have line : (recorded s.params.delaySymbols ds s).delayFifo ++ [d] = (ds ++ [d]).drop k := by
    rw [before, List.drop_append_of_le_length within]
    rfl
  rcases opRecordPush_cases words32 d (recorded s.params.delaySymbols ds s) with ⟨off, -⟩ | ⟨-, fills, e⟩ | ⟨-, full, e⟩
  · exact absurd (enabled.symm.trans off) nofun
  · replace fills : ((recorded s.params.delaySymbols ds s).delayFifo ++ [d]).length ≤ s.params.delaySymbols := fills
    rw [line, List.length_drop, length] at fills
    have same : (ds ++ [d]).length - s.params.delaySymbols = k := by omega
    rw [e, line, before, recorded, same]
    rfl
  · replace full : s.params.delaySymbols < ((recorded s.params.delaySymbols ds s).delayFifo ++ [d]).length := full
    rw [line, List.length_drop, length] at full
    have next : (ds ++ [d]).length - s.params.delaySymbols = k + 1 := by omega
    have oldest : k < (ds ++ [d]).length := by omega
    have left : (ds ++ [d]).take (k + 1) = (ds ++ [d]).take k ++ [(ds ++ [d])[k]] := List.take_succ_eq_append_getElem oldest
    rw [e, line, List.drop_eq_getElem_cons oldest, before, recorded, next, left, ← packDibit_packed]
    rfl

theorem foldl_opRecordPush_recorded (ds : List Dibit) {s : State} (enabled : s.params.recordEnable = true)
    (noDelayed : s.delayFifo = []) (noPacked : s.pack = []) :
    ds.foldl (fun u d => opRecordPush words32 d u) s = recorded s.params.delaySymbols ds s := by
  induction ds using List.reverseRecOn with
  | nil => exact (recorded_nil _ noDelayed noPacked).symm
  | append_singleton ds d ih =>
    rw [List.foldl_append, ih]
    exact opRecordPush_recorded d ds enabled

/-- Settles O48: the recorded state along the sequence; without RECORD_ENABLE no dibit does anything. -/
theorem recordingDelayed : Obligations.RecordingDelayed := by
  intro ds s t left
  refine ⟨fun off => ?_, fun enabled noDelayed noPacked => foldl_opRecordPush_recorded ds enabled noDelayed noPacked⟩
  have ignored (d : Dibit) : opRecordPush words32 d s = s := if_neg (Bool.eq_false_iff.1 off)
  exact List.foldlRecOn (motive := (· = s)) ds _ rfl fun u kept d _ => by rw [kept, ignored]

end Sys2Proof.Machine
end

section
/-! How far PROCESS_PENDING goes (R229, R356): one iteration a pending sample, up to LOOKAHEAD before `r`. -/

namespace Sys2Proof.Machine

variable {α ω : Type} {K : Reading α ω}

/-- An iteration is SAMPLE_STEP at `p`, which leaves `p` to it, and then `p` one further. -/
theorem processOne_eq (s : State.Over α ω) : processOne K s = { opSampleStep K s.p.toNat s with p := s.p + 1#64 } :=
  congrArg (fun p => { opSampleStep K s.p.toNat s with p := p + 1#64 }) (opSampleStep_frame (K := K) s.p.toNat s).p

theorem samplePending_iff (N : Numerics α) (s : State.Over α ω) :
    samplePending N s = true ↔ (s.p.toNat : Int) + lookahead N s.sps < (s.r.toNat : Int) := decide_eq_true_iff

/-- A pending sample is below `r`, so `p` does not wrap past it. -/
theorem processOne_p_toNat {s : State.Over α ω} (ahead : 0 ≤ lookahead K.num s.sps) (pending : samplePending K.num s = true) :
    (processOne K s).p.toNat = s.p.toNat + 1 := by
  rw [samplePending_iff] at pending
  have := s.r.isLt
  rw [processOne_eq]
  show (s.p + 1#64).toNat = s.p.toNat + 1
  rw [BitVec.toNat_add]
  exact Nat.mod_eq_of_lt (by rw [BitVec.toNat_ofNat]; omega)

theorem processOne_frame (s : State.Over α ω) : (processOne K s).r = s.r ∧ (processOne K s).sps = s.sps := by
  have frame := opSampleStep_frame (K := K) s.p.toNat s
  exact ⟨frame.r, frame.setup.sps⟩

theorem opProcessPending_of_pending {s : State.Over α ω} (ahead : 0 ≤ lookahead K.num s.sps)
    (pending : samplePending K.num s = true) : opProcessPending K s = opProcessPending K (processOne K s) := by
  have next := processOne_p_toNat ahead pending
  have fuel : s.r.toNat - s.p.toNat = ((processOne K s).r.toNat - (processOne K s).p.toNat) + 1 := by
    rw [samplePending_iff] at pending
    rw [(processOne_frame s).1, next]
    omega
  rw [opProcessPending, fuel, processLoop, if_pos pending, opProcessPending]

theorem opProcessPending_of_not_pending {s : State.Over α ω} (done : samplePending K.num s = false) :
    opProcessPending K s = s := by
  unfold opProcessPending
  cases s.r.toNat - s.p.toNat with
  | zero => rfl
  | succ fuel => exact if_neg (Bool.eq_false_iff.1 done)

/-- The processing stops LOOKAHEAD before `r`, or where `p` already is. -/
theorem opProcessPending_p_toNat {s : State.Over α ω} (ahead : 0 ≤ lookahead K.num s.sps) :
    (opProcessPending K s).p.toNat = max s.p.toNat (s.r.toNat - (lookahead K.num s.sps).toNat) := by
  induction left : s.r.toNat - s.p.toNat generalizing s with
  | zero =>
    have done : samplePending K.num s = false := by
      rw [Bool.eq_false_iff, ne_eq, samplePending_iff]
      omega
    rw [opProcessPending_of_not_pending done]
    omega
  | succ left ih =>
    cases pending : samplePending K.num s with
    | true =>
      have next := processOne_p_toNat ahead pending
      obtain ⟨r, sps⟩ := processOne_frame (K := K) s
      rw [opProcessPending_of_pending ahead pending, ih (by rwa [sps]) (by rw [r]; omega), next, r, sps]
      rw [samplePending_iff] at pending
      omega
    | false =>
      rw [opProcessPending_of_not_pending pending]
      rw [Bool.eq_false_iff, ne_eq, samplePending_iff] at pending
      omega

/-- LOOKAHEAD of an accepted SPS, as the number it stands for (R5). -/
theorem lookahead_binary32 {sps : F32} (accepted : acceptedSps sps = true) :
    lookahead binary32 sps = ⌈F32.value sps⌉ + 2 := by
  obtain ⟨low, high⟩ := of_decide_eq_true accepted
  have finite : F32.isFinite (F32.neg sps) = true := by rw [F32.isFinite_neg, (sps_finite_value low high).1]
  show -F32.floor (F32.neg sps) + 2 = _
  rw [F32.floor_eq finite, F32.value_neg, Int.floor_neg, neg_neg]

/-- The append of a block leaves `p` where it is. -/
theorem histAppendAll_p [DecidableEq α] (vs : List α) (s : State.Over α ω) : (State.histAppendAll K vs s).p = s.p :=
  histAppendAll_induct (P := fun t => t.p = s.p) (fun _ _ h => h) vs rfl

/-- Settles O20: the loop by one iteration, and its end for the block that SAMPLES has appended. -/
theorem samplesProgress : Obligations.SamplesProgress := by
  have ahead {sps : F32} (accepted : acceptedSps sps = true) : 0 ≤ lookahead binary32 sps := by
    obtain ⟨low, high⟩ := of_decide_eq_true accepted
    exact lookahead_nonneg low high
  refine ⟨fun s accepted _ => ?_, fun tsLo tsHi data s clear configured valid accepted _ room => ?_⟩
  · rw [← lookahead_binary32 accepted]
    split
    case isTrue pending =>
      rw [← processOne_eq]
      exact opProcessPending_of_pending (ahead accepted) ((samplePending_iff ..).2 pending)
    case isFalse done =>
      exact opProcessPending_of_not_pending (Bool.eq_false_iff.2 fun pending => done ((samplePending_iff ..).1 pending))
  · have biased := opPrebias_frame (K := words32) data (takeTimestamp tsLo tsHi s)
    have appended : (State.histAppendAll words32 data (biasedState words32 tsLo tsHi data s)).sps = s.sps :=
      (histAppendAll_setup data _).sps.trans biased.setup.sps
    have processed := opProcessPending_p_toNat (K := words32)
      (s := State.histAppendAll words32 data (biasedState words32 tsLo tsHi data s)) (by rw [appended]; exact ahead accepted)
    refine ⟨_, exec_samples_of_accepted tsLo tsHi clear configured valid, processed.trans ?_⟩
    have r : (biasedState words32 tsLo tsHi data s).r = s.r := biased.r
    have p : (biasedState words32 tsLo tsHi data s).p = s.p := biased.p
    rw [appended, histAppendAll_p, histAppendAll_r_toNat data (by rwa [r]), r, p, words32_num, lookahead_binary32 accepted]

end Sys2Proof.Machine
end

section
/-! The framer (R260 to R264): its operations as exact next states, the timestamp of a frame, and the frames that a sequence of
syncs and dibits gives. -/

namespace Sys2Proof.Machine

/-! ### FRAMER_SYNC and FRAMER_DIBIT (R260, R261) -/

theorem countDibit_eq {α ω : Type} (s : State.Over α ω) :
    countDibit s = { s with dibitsSinceTs := s.dibitsSinceTs + 1#32 } := by
  rw [countDibit, wrap32_succ]

@[simp] theorem length_dibitBits (d : Dibit) : (dibitBits d).length = 2 := rfl

/-- Settles O49: FRAMER_SYNC by the framer's state, FRAMER_DIBIT by the room in the assembler. -/
theorem framerTransitions : Obligations.FramerTransitions := by
  intro d s counted grown
  have sync := opFramerSync_eq s
  have dibit := opFramerDibit_cases words32 d s
  rw [List.length_append, length_dibitBits] at dibit
  refine ⟨fun idle => ?_, fun assembling => ?_, fun idle => ?_, fun assembling full => ?_,
    fun assembling room unfilled => ?_, fun assembling fills => ?_⟩
  · simpa [idle] using sync
  · simpa [assembling] using sync
  · simp only [idle, reduceCtorEq, true_and, false_and, or_false] at dibit
    rw [dibit, countDibit_eq]
  · simp only [assembling, full, not_lt.2 full, reduceCtorEq, true_and, false_and, false_or, or_false] at dibit
    rw [dibit, countDibit_eq, wrap32_succ]
  · simp only [assembling, room, not_le.2 room, ne_eq, unfilled, not_false_eq_true, reduceCtorEq, true_and, false_and,
      false_or, or_false] at dibit
    rw [dibit, countDibit_eq]
    rfl
  · have room : s.asmBits.length < s.params.frameBits := by omega
    simp only [assembling, room, not_le.2 room, ne_eq, fills, not_true_eq_false, reduceCtorEq, true_and, false_and,
      false_or] at dibit
    rw [dibit, countDibit_eq, opDispatch_eq]
    rfl

/-! ### FRAME_TIMESTAMP (R263) -/

/-- Settles O50: at a rate other than 0 the quotient is the division of the natural numbers. -/
theorem frameTimestamp : Obligations.FrameTimestamp := by
  intro s rate
  have elapsed : opFrameTimestamp s = wrap64 (s.refTs.toNat + s.dibitsSinceTs.toNat * 1000 / s.symbolRate.toNat) := by
    rw [opFrameTimestamp, if_neg rate]
  rw [elapsed, wrap64, BitVec.toNat_ofNat]

/-! ### What a piece of a run emits -/

/-- From `s` to `t` exactly these frames were dispatched, each in a FRAME record that is marked complete where the frame is
(R262). -/
structure FramesEmitted (frames : List (List Bool)) (s t : State) : Prop where
  params : t.params = s.params
  output : ∃ stamps : List (BitVec 64), stamps.length = frames.length ∧ t.output = s.output
    ++ (List.zipWith (fun ts bits => (Record.frame (decide (bits.length = s.params.frameBits)) ts bits).words)
        stamps frames).flatten
  dispatched : t.framesDispatched = s.framesDispatched + BitVec.ofNat 32 frames.length

namespace FramesEmitted

variable {s t u : State}

theorem of_eq (params : t.params = s.params) (output : t.output = s.output)
    (dispatched : t.framesDispatched = s.framesDispatched) : FramesEmitted [] s t :=
  ⟨params, ⟨[], rfl, by simp [output]⟩, by simp [dispatched]⟩

theorem trans {first second : List (List Bool)} (h : FramesEmitted first s t) (k : FramesEmitted second t u) :
    FramesEmitted (first ++ second) s u := by
  obtain ⟨stamps, lengths, output⟩ := h.output
  obtain ⟨stamps', lengths', output'⟩ := k.output
  refine ⟨k.params.trans h.params, ⟨stamps ++ stamps', by simp [lengths, lengths'], ?_⟩, ?_⟩
  · rw [output', output, h.params, List.zipWith_append lengths, List.flatten_append, List.append_assoc]
  · rw [k.dispatched, h.dispatched, List.length_append, BitVec.ofNat_add, BitVec.add_assoc]

/-- A dispatch emits the assembler's bits, whatever the framer's state is set to after it. -/
theorem dispatch (s : State) (after : FramerState) :
    FramesEmitted [s.asmBits] s { opDispatch words32 s with framerState := after } :=
  ⟨rfl, ⟨[opFrameTimestamp s], rfl, by simp⟩, wrap32_succ _⟩

end FramesEmitted

/-! ### A run of the framer (R264) -/

/-- What the framer keeps between two events: the assembler holds whole dibits, is never full, and is empty while IDLE. -/
structure FramerKept (s : State) : Prop where
  frameEven : s.params.frameBits % 2 = 0
  bitsEven : s.asmBits.length % 2 = 0
  room : s.asmBits.length < s.params.frameBits
  idleEmpty : s.framerState = .idle → s.asmBits = []

/-- An empty assembler has room, whatever the framer's state is. -/
theorem FramerKept.emptied {s t : State} (kept : FramerKept s) (params : t.params = s.params) (empty : t.asmBits = []) :
    FramerKept t :=
  ⟨by rw [params]; exact kept.frameEven, by rw [empty]; rfl,
    by rw [params, empty]; exact Nat.zero_lt_of_lt kept.room, fun _ => empty⟩

/-- The frames that are still to be dispatched when these events and the end of the stream follow: the one in progress with
the dibits up to the next sync, then one for each sync. -/
def framesAhead (es : List FramerEvent) (s : State) : List (List Bool) :=
  match s.framerState with
  | .idle => (dibitsPerSync es).map (frameBitsOf s.params)
  | .assembling =>
    (s.asmBits ++ (dibitsPerSync.dibitsAfterSync es).flatMap dibitBits).take s.params.frameBits
      :: (dibitsPerSync es).map (frameBitsOf s.params)

theorem framesAhead_of_idle {s : State} (idle : s.framerState = .idle) (es : List FramerEvent) :
    framesAhead es s = (dibitsPerSync es).map (frameBitsOf s.params) := by
  rw [framesAhead, idle]

theorem framesAhead_of_assembling {s : State} (assembling : s.framerState = .assembling) (es : List FramerEvent) :
    framesAhead es s =
      (s.asmBits ++ (dibitsPerSync.dibitsAfterSync es).flatMap dibitBits).take s.params.frameBits
        :: (dibitsPerSync es).map (frameBitsOf s.params) := by
  rw [framesAhead, assembling]

/-- From `s` to `t` the framer dispatched the first of the frames ahead, and the events `es` after `t` give the others. -/
def FramerAdvances (frames : List (List Bool)) (es : List FramerEvent) (s t : State) : Prop :=
  FramerKept t ∧ ∃ emitted, FramesEmitted emitted s t ∧ frames = emitted ++ framesAhead es t

/-- A sync dispatches the frame in progress, as long as it got, and opens the next one (R260). -/
theorem opFramerSync_advances (es : List FramerEvent) {s : State} (kept : FramerKept s) :
    FramerAdvances (framesAhead (.sync :: es) s) es s (opFramerSync words32 s) := by
  rcases opFramerSync_cases words32 s with ⟨assembling, e⟩ | ⟨idle, e⟩ <;> rw [e]
  · refine ⟨kept.emptied rfl rfl, [s.asmBits], .dispatch s .assembling, ?_⟩
    rw [framesAhead_of_assembling assembling, framesAhead_of_assembling rfl]
    simp [dibitsPerSync, dibitsPerSync.dibitsAfterSync, frameBitsOf, List.take_of_length_le kept.room.le]
  · refine ⟨kept.emptied rfl rfl, [], .of_eq rfl rfl rfl, ?_⟩
    rw [framesAhead_of_idle idle, framesAhead_of_assembling rfl]
    rfl

/-- A dibit is dropped, joins the frame in progress, or fills it and so ends it; an assembler that is kept is never full
(R261). -/
theorem opFramerDibit_advances (d : Dibit) (es : List FramerEvent) {s : State} (kept : FramerKept s) :
    FramerAdvances (framesAhead (.dibit d :: es) s) es s (opFramerDibit words32 d s) := by
  have two : (s.asmBits ++ dibitBits d).length = s.asmBits.length + 2 := List.length_append
  rcases opFramerDibit_cases words32 d s with
    ⟨idle, e⟩ | ⟨-, full, -⟩ | ⟨assembling, -, unfilled, e⟩ | ⟨assembling, -, fills, e⟩
  · rw [e]
    refine ⟨{ kept with }, [], .of_eq rfl rfl rfl, ?_⟩
    rw [framesAhead_of_idle idle, framesAhead_of_idle (s := countDibit s) idle]
    rfl
  · exact absurd kept.room (not_lt.2 full)
  · rw [e]
    have frameEven := kept.frameEven
    have bitsEven := kept.bitsEven
    have room := kept.room
    refine ⟨⟨frameEven, ?even, ?room, fun idle => absurd (assembling.symm.trans idle) (by decide)⟩,
      [], .of_eq rfl rfl rfl, ?ahead⟩
    case even => show (s.asmBits ++ dibitBits d).length % 2 = 0; omega
    case room => show (s.asmBits ++ dibitBits d).length < s.params.frameBits; omega
    case ahead =>
      rw [framesAhead_of_assembling assembling, List.nil_append]
      refine .trans ?_ (framesAhead_of_assembling (by exact assembling) es).symm
      simp [dibitsPerSync, dibitsPerSync.dibitsAfterSync, countDibit]
  · rw [e]
    refine ⟨kept.emptied rfl rfl, [s.asmBits ++ dibitBits d], ?emitted, ?ahead⟩
    case emitted =>
      let grown : State := { countDibit s with asmBits := s.asmBits ++ dibitBits d }
      have joined : FramesEmitted [] s grown := .of_eq rfl rfl rfl
      exact joined.trans (.dispatch grown .idle)
    case ahead =>
      have filled (more : List Bool) : (s.asmBits ++ (dibitBits d ++ more)).take s.params.frameBits
          = s.asmBits ++ dibitBits d := by
        rw [← List.append_assoc, ← fills, List.take_left]
      rw [framesAhead_of_assembling assembling, framesAhead_of_idle rfl]
      simp [dibitsPerSync, dibitsPerSync.dibitsAfterSync, filled, countDibit]

theorem framerEvent_advances (e : FramerEvent) (es : List FramerEvent) {s : State} (kept : FramerKept s) :
    FramerAdvances (framesAhead (e :: es) s) es s (framerEvent e s) := by
  cases e with
  | sync => exact opFramerSync_advances es kept
  | dibit d => exact opFramerDibit_advances d es kept

/-- All events of a run done, the frames ahead are dispatched but for the one in progress. -/
theorem framerRun_advances (es : List FramerEvent) {s : State} (kept : FramerKept s) :
    FramerAdvances (framesAhead es s) [] s (framerRun es s) := by
  induction es generalizing s with
  | nil => exact ⟨kept, [], .of_eq rfl rfl rfl, rfl⟩
  | cons e es ih =>
    obtain ⟨kept', first, emitted, ahead⟩ := framerEvent_advances e es kept
    obtain ⟨kept'', others, emitted', ahead'⟩ := ih kept'
    exact ⟨kept'', first ++ others, emitted.trans emitted', by rw [ahead, ahead', List.append_assoc]; rfl⟩

/-- The end of the stream dispatches the frame in progress, and leaves the framer IDLE and empty (R296). -/
theorem flushEffect_framesAhead {s : State} (kept : FramerKept s) :
    FramesEmitted (framesAhead [] s) s (flushEffect words32 s)
      ∧ (flushEffect words32 s).framerState = .idle ∧ (flushEffect words32 s).asmBits = [] := by
  rcases flushEffect_cases words32 s with ⟨assembling, e⟩ | ⟨idle, e⟩ <;> rw [e]
  · have inProgress : framesAhead [] s = [s.asmBits] := by
      rw [framesAhead_of_assembling assembling]
      simp [dibitsPerSync, dibitsPerSync.dibitsAfterSync, List.take_of_length_le kept.room.le]
    exact ⟨inProgress ▸ .dispatch s .idle, rfl, rfl⟩
  · rw [framesAhead_of_idle idle]
    exact ⟨.of_eq rfl rfl rfl, idle, kept.idleEmpty idle⟩

theorem length_dibitsPerSync (es : List FramerEvent) :
    (dibitsPerSync es).length = (es.filter fun e => e = .sync).length := by
  induction es with
  | nil => rfl
  | cons e es ih => cases e <;> simp [dibitsPerSync, ih]

/-- Settles O52: the frames ahead of an idle framer are one for each sync, and the run and the end of the stream dispatch
them. -/
theorem framesPerSync : Obligations.FramesPerSync := by
  intro es s legal idle empty t frames
  obtain ⟨-, even, two_le⟩ := Params.bounds_of_legal legal
  have kept : FramerKept s := ⟨even, by simp [empty], by rw [empty, List.length_nil]; omega, fun _ => empty⟩
  obtain ⟨kept', emitted, run, ahead⟩ := framerRun_advances es kept
  obtain ⟨rest, idle', empty'⟩ := flushEffect_framesAhead kept'
  have all : FramesEmitted frames s t := by
    have frames_eq : frames = emitted ++ framesAhead [] (framerRun es s) := (framesAhead_of_idle idle es).symm.trans ahead
    rw [frames_eq]
    exact run.trans rest
  obtain ⟨stamps, lengths, output⟩ := all.output
  refine ⟨stamps, lengths, output, ?_, idle', empty'⟩
  rw [all.dispatched, List.length_map, length_dibitsPerSync]

end Sys2Proof.Machine
end

section
/-! The five host commands as exact next states (R291 to R296, R350): CONFIGURE, SAMPLES, FLUSH, RESET and READ_REG, each by the
checks that it makes of its operands. -/

namespace Sys2Proof.Machine

variable {α ω : Type} {K : Reading α ω}

/-! ### A command of a block that is not faulted (R322, R323) -/

/-- Behind the fault gate a command of an unfaulted block acts. -/
theorem exec_of_faultGate {i : Instr} {s : State} {act : State → State} (clear : s.fault = false)
    (gated : runCommand words32 i s = faultGate act s) : exec i s = .next (act s) := by
  rw [exec_eq, gated, faultGate_of_clear clear]

/-- A command that ends in fault entry gives the faulted state. -/
theorem exec_of_raiseFault {i : Instr} {s : State} {act : State → State} {cause : FaultCause} {w : Word}
    (clear : s.fault = false) (gated : runCommand words32 i s = faultGate act s)
    (raises : act s = raiseFault words32 cause w s) : exec i s = .next (State.faulted cause.code w s) := by
  rw [exec_of_faultGate clear gated, raises, raiseFault_eq]

/-! ### RESET (R294) -/

/-- DATAPATH_RESET leaves the column of R350 that bears its name. -/
theorem opDatapathReset_eq (s : State) : opDatapathReset words32 s = State.restarted s := rfl

/-- RESET leaves the fault state as at power-on beside that. -/
theorem resetEffect_eq (s : State) : resetEffect words32 s = State.afterReset s := by
  rw [resetEffect, opDatapathReset_eq]
  rfl

/-- Settles O13: RESET takes effect without asking the fault gate, which only decides about its fault. -/
theorem resetResult : Obligations.ResetResult := by
  intro x s
  refine ⟨?effect, fun set clear => exec_of_raiseOnly clear (runCommand_reset_reserved set s), fun set fault => ?ignored⟩
  case effect => exact (exec_eq _ s).trans (congrArg _ (resetEffect_eq s))
  case ignored => rw [exec_eq, runCommand_reset_reserved set, raiseOnly, faultGate_of_fault fault]

/-! ### CONFIGURE (R291) -/

theorem F32.not_lt_iff_value_le {a b : F32} (ha : F32.isFinite a = true) (hb : F32.isFinite b = true) :
    F32.lt a b = false ↔ F32.value b ≤ F32.value a := by
  rw [F32.not_lt_iff ha hb, F32.value_le_iff]

/-- The configurations that CONFIGURE accepts, by the number that SPS is. -/
theorem configurationValid_iff_value (rate : Operand) (sps : Word) :
    configurationValid words32 rate sps = true ↔
      rate ≠ 0#24 ∧ F32.isFinite sps = true ∧ 2 ≤ F32.value sps ∧ F32.value sps ≤ 32 := by
  have value_min : F32.value 0x40000000#32 = 2 := by decide +kernel
  have value_max : F32.value 0x42000000#32 = 32 := by decide +kernel
  have unfolded : configurationValid words32 rate sps = true ↔ rate ≠ 0#24 ∧ F32.isFinite sps = true
      ∧ F32.lt sps 0x40000000#32 = false ∧ F32.lt 0x42000000#32 sps = false := by
    simp [configurationValid, binary32, binary32Const, and_assoc]
  rw [unfolded]
  refine and_congr_right fun _ => and_congr_right fun finite => ?_
  rw [F32.not_lt_iff_value_le finite (by decide), F32.not_lt_iff_value_le (by decide) finite, value_min, value_max]

/-- The effect of a CONFIGURE with a rate that is not 0: the gain limits of R153, then the datapath restarts from them. -/
theorem configureEffect_eq {rate : Operand} (nonzero : rate ≠ 0#24) (sps : Word) (s : State) :
    configureEffect words32 rate sps s =
      { State.restarted s with
        configured := true, sps := sps, symbolRate := 0#8 ++ rate
        gainInitial := (gainLimits binary32 sps).initial
        gainMin := (gainLimits binary32 sps).min
        gainMax := (gainLimits binary32 sps).max
        gain := (gainLimits binary32 sps).initial, samplePoint := sps } := by
  rw [configureEffect, opDatapathReset_eq, (symbolRateOf_spec nonzero).1]
  rfl

/-- Settles O14: the two clauses are the two answers of the validity check. -/
theorem configureResult : Obligations.ConfigureResult := by
  intro rate sps s clear
  have valid_iff := configurationValid_iff_value rate sps
  refine ⟨fun nonzero finite low high => ?accepted, fun refused => ?refused⟩
  case accepted =>
    have valid : configurationValid words32 rate sps = true := valid_iff.2 ⟨nonzero, finite, low, high⟩
    have command : configureCommand words32 rate sps s = configureEffect words32 rate sps s := by
      simpa [valid] using configureCommand_cases words32 rate sps s
    rw [exec_of_faultGate clear rfl, command, configureEffect_eq nonzero]
    rfl
  case refused =>
    have invalid : configurationValid words32 rate sps = false := by
      rw [← Bool.not_eq_true, valid_iff]
      rintro ⟨nonzero, finite, low, high⟩
      rcases refused with zero | infinite | below | above
      · exact nonzero zero
      · exact Bool.false_ne_true (infinite.symm.trans finite)
      · exact below.not_ge low
      · exact above.not_ge high
    have raises : configureCommand words32 rate sps s
        = raiseFault words32 .configInvalid (commandWord (.configure rate sps)) s := by
      simpa [invalid] using configureCommand_cases words32 rate sps s
    exact exec_of_raiseFault clear rfl raises

/-! ### READ_REG (R50, R295) -/

/-- The register map is the list of its registers in the order of their addresses, and nothing beyond. -/
theorem regValue_eq_getElem? (a : BitVec 8) (s : State) : regValue words32 a s = (registerValues s)[a.toNat]? := by
  unfold regValue
  rcases lt_or_ge a.toNat 0x1D with implemented | reserved
  · generalize a.toNat = n at implemented
    interval_cases n <;> rfl
  · obtain ⟨k, e⟩ := Nat.exists_eq_add_of_le' reserved
    rw [e]
    rfl

theorem length_registerValues (s : State) : (registerValues s).length = 0x1D := rfl

/-- The words of a RESP record (R121). -/
theorem resp_items (addr : BitVec 8) (v : Word) :
    (Record.resp addr v : Record F32 Word).items words32 = [0x01#8 ++ 0#16 ++ addr, v] := by
  have word : header 0x01#8 (addr.zeroExtend 24) = 0x01#8 ++ 0#16 ++ addr := by
    revert addr
    decide
  exact congrArg (· :: [v]) word

/-- READ_REG of an address with a register answers its value. -/
theorem runCommand_readReg_of_some [DecidableEq α] {addr : BitVec 8} {v : ω} {s : State.Over α ω}
    (register : regValue K addr s = some v) :
    runCommand K (.readReg 0#16 addr) s = State.emit K (.resp addr v) s := by
  simp [runCommand, runReadReg, reservedAddressBitsClear, readRegCommand, register]

/-- READ_REG of an address without one only raises BAD_REGISTER. -/
theorem runCommand_readReg_of_none [DecidableEq α] {addr : BitVec 8} {s : State.Over α ω}
    (unlisted : regValue K addr s = none) :
    runCommand K (.readReg 0#16 addr) s = raiseOnly K .badRegister (commandWord (.readReg 0#16 addr)) s := by
  simp [runCommand, runReadReg, reservedAddressBitsClear, readRegCommand, unlisted]

/-- The command word of READ_REG, field by field (R117). -/
theorem commandWord_readReg (reserved : BitVec 16) (addr : BitVec 8) :
    commandWord (.readReg reserved addr) = 0x05#8 ++ reserved ++ addr := by
  rw [commandWord, opWord, BitVec.append_assoc]
  rfl

/-- Settles O15: an address is implemented where the list of registers has it. -/
theorem readRegResult : Obligations.ReadRegResult := by
  intro a reserved s
  refine ⟨fun implemented => ?implemented, fun beyond clear => ?beyond, fun set clear => ?reserved⟩
  case implemented =>
    have listed : a.toNat < (registerValues s).length := by rw [length_registerValues]; omega
    have register : regValue words32 a s = some ((registerValues s).getD a.toNat 0#32) := by
      rw [regValue_eq_getElem?, List.getElem?_eq_getElem listed, List.getD_eq_getElem _ _ listed]
    rw [exec_eq, runCommand_readReg_of_some register, State.emit, resp_items]
  case beyond =>
    have unlisted : regValue words32 a s = none := by
      rw [regValue_eq_getElem?]
      exact List.getElem?_eq_none (by rw [length_registerValues]; omega)
    rw [← commandWord_readReg]
    exact exec_of_raiseOnly clear (runCommand_readReg_of_none unlisted)
  case reserved =>
    rw [← commandWord_readReg]
    exact exec_of_raiseOnly clear (runCommand_readReg_reserved set a s)

/-! ### FLUSH (R296) -/

/-- Settles O17: the checks of FLUSH in their order, then the framer's state. -/
theorem flushResult : Obligations.FlushResult := by
  intro x s clear
  have takesEffect (configured : s.configured = true) : exec (.flush 0#24) s = .next (flushEffect words32 s) := by
    have command : flushCommand words32 0#24 s = flushEffect words32 s := by
      simpa [configured] using flushCommand_cases words32 0#24 s
    rw [exec_of_faultGate clear rfl, command]
  refine ⟨fun set => exec_of_raiseOnly clear (runCommand_flush_reserved set s), fun unconfigured => ?unconfigured,
    fun configured idle => ?idle, fun configured assembling => ?assembling⟩
  case unconfigured =>
    have raises : flushCommand words32 0#24 s = raiseFault words32 .notConfigured (commandWord (.flush 0#24)) s := by
      simpa [unconfigured] using flushCommand_cases words32 0#24 s
    exact exec_of_raiseFault clear rfl raises
  case idle =>
    have effect : flushEffect words32 s = s := by simpa [idle] using flushEffect_cases words32 s
    rw [takesEffect configured, effect]
  case assembling =>
    have effect : flushEffect words32 s = { opDispatch words32 s with framerState := .idle } := by
      simpa [assembling] using flushEffect_cases words32 s
    rw [takesEffect configured, effect, opDispatch_eq]

/-! ### SAMPLES (R292, R293) -/

theorem F32.value_abs (v : F32) : F32.value (F32.abs v) = |F32.value v| := by
  have positive : F32.sign (F32.abs v) = false := by
    rw [F32.sign_eq, F32.abs_toNat]
    exact decide_eq_false (by omega)
  apply Rat.cast_injective (α := ℝ)
  rw [Rat.cast_abs, F32.coe_value_eq_units, F32.coe_value_eq_units v, positive, F32.abs_toNat, Nat.mod_mod,
    F32.signFactor_false, one_mul, mul_assoc, F32.abs_signFactor_mul (by positivity)]

theorem F32.isFinite_abs (v : F32) : F32.isFinite (F32.abs v) = F32.isFinite v := by
  have field : F32.expField (F32.abs v) = F32.expField v := by
    rw [F32.expField_eq, F32.expField_eq, F32.abs_toNat]
    omega
  rw [F32.isFinite, F32.isFinite, field]

/-- The samples that SAMPLES accepts, by the number that a sample is. -/
theorem acceptedSample_iff (v : Word) :
    acceptedSample v = true ↔ F32.isFinite v = true ∧ |F32.value v| ≤ (2 : ℚ) ^ 20 := by
  have value_max : F32.value 0x49800000#32 = 2 ^ 20 := by decide +kernel
  have unfolded : sampleValid words32 v = true ↔ F32.isFinite v = true ∧ F32.lt 0x49800000#32 (F32.abs v) = false := by
    simp [sampleValid, binary32, binary32Const]
  rw [← sampleValid_words32, unfolded]
  refine and_congr_right fun finite => ?_
  rw [F32.not_lt_iff_value_le (by decide) (by rwa [F32.isFinite_abs]), F32.value_abs, value_max]

/-- A sample is refused where it has no finite value or one above SAMPLE_MAX_ABS in magnitude. -/
theorem acceptedSample_eq_false_iff (v : Word) :
    acceptedSample v = false ↔ F32.isFinite v = false ∨ (2 : ℚ) ^ 20 < |F32.value v| := by
  rw [← Bool.not_eq_true, acceptedSample_iff, not_and_or, Bool.not_eq_true, not_le]

/-- One sample that is refused makes the whole block an invalid one. -/
theorem samplesValid_eq_false {data : List Word} (h : ∃ v ∈ data, acceptedSample v = false) :
    samplesValid words32 data = false := by
  rw [samplesValid, List.all_eq_false]
  obtain ⟨v, mem, refused⟩ := h
  exact ⟨v, mem, by rw [sampleValid_words32, refused]; decide⟩

/-- A SAMPLES with a refused sample only raises SAMPLE_NOT_FINITE. -/
theorem exec_samples_of_refused (tsLo tsHi : Word) {data : List Word} {s : State} (clear : s.fault = false)
    (configured : s.configured = true) (refused : ∃ v ∈ data, acceptedSample v = false) :
    exec (.samples tsLo tsHi data) s = .next (State.faulted 6#8 (0x02#8 ++ BitVec.ofNat 24 data.length) s) := by
  have raises : samplesCommand words32 tsLo tsHi data s
      = raiseFault words32 .sampleNotFinite (commandWord (.samples tsLo tsHi data)) s := by
    simpa [configured, samplesValid_eq_false refused] using samplesCommand_cases words32 tsLo tsHi data s
  exact exec_of_raiseFault clear rfl raises

/-- Settles O18: the checks in the order of R324, then the steps as the command composes them. -/
theorem samplesSteps : Obligations.SamplesSteps := by
  intro tsLo tsHi data s clear
  refine ⟨fun unconfigured => ?unconfigured, exec_samples_of_refused tsLo tsHi clear,
    exec_samples_of_accepted tsLo tsHi clear⟩
  have raises : samplesCommand words32 tsLo tsHi data s
      = raiseFault words32 .notConfigured (commandWord (.samples tsLo tsHi data)) s := by
    simpa [unconfigured] using samplesCommand_cases words32 tsLo tsHi data s
  exact exec_of_raiseFault clear rfl raises

/-- The append of a block takes `r` up by its length, modulo 2^64. -/
theorem histAppendAll_r [DecidableEq α] (vs : List α) (s : State.Over α ω) :
    (State.histAppendAll K vs s).r = s.r + BitVec.ofNat 64 vs.length := by
  induction vs generalizing s with
  | nil => simp [histAppendAll_nil]
  | cons v vs ih =>
    rw [histAppendAll_cons, ih, List.length_cons, Nat.add_comm vs.length 1, BitVec.ofNat_add, ← BitVec.add_assoc]
    rfl

/-- Settles O21: the block is refused by the values of its samples; an accepted one is appended whole, and nothing after its
append writes `r` or the fault state. -/
theorem samplesValidated : Obligations.SamplesValidated := by
  intro tsLo tsHi data s clear configured
  constructor
  · rintro ⟨v, mem, refused⟩
    exact exec_samples_of_refused tsLo tsHi clear configured ⟨v, mem, (acceptedSample_eq_false_iff v).2 refused⟩
  · intro inRange
    have accepted : ∀ v ∈ data, acceptedSample v = true := fun v mem => (acceptedSample_iff v).2 (inRange v mem)
    refine ⟨_, exec_samples_of_accepted tsLo tsHi clear configured accepted, ?fault, ?received⟩
    case fault => rw [(samplesEffect_setup tsLo tsHi data s).fault, clear]
    case received =>
      rw [(samplesEffect_process tsLo tsHi data s).r, histAppendAll_r, (biasedState_history tsLo tsHi data s).2]

end Sys2Proof.Machine
end

section
/-! The fault gate and the order of the checks (R323, R324): what a faulted block still acts on, and which fault a command
of an unfaulted block takes. -/

namespace Sys2Proof.Machine

/-! ### The fault gate (R323) -/

/-- The addresses without a register are those above 0x1C (R50). -/
theorem regValue_eq_none_iff (a : BitVec 8) (s : State) : regValue words32 a s = none ↔ 0x1C < a.toNat := by
  rw [regValue_eq_getElem?, List.getElem?_eq_none_iff, length_registerValues, Nat.succ_le_iff]

/-- A faulted block ignores every command but RESET with operand 0 and READ_REG of an implemented register. -/
theorem exec_of_fault {i : Instr} {s : State} (fault : s.fault = true) (notReset : i ≠ .reset 0#24)
    (notRead : ∀ a : BitVec 8, a.toNat ≤ 0x1C → i ≠ .readReg 0#16 a) : exec i s = .next s := by
  rw [exec_eq]
  refine congrArg _ ?_
  rcases runCommand_cases words32 i s with ⟨rate, sps, rfl⟩ | ⟨tsLo, tsHi, data, rfl⟩ | ⟨x, rfl⟩ | ⟨x, rfl⟩
    | ⟨reserved, a, rfl⟩ | ⟨-, raises | raises⟩
  case inr.inr.inr.inl =>
    rcases runReset_cases words32 x s with ⟨rfl, -⟩ | ⟨-, raises⟩
    · exact absurd rfl notReset
    · exact raises.trans (faultGate_of_fault fault)
  case inr.inr.inr.inr.inl =>
    rcases runReadReg_cases words32 reserved a s with ⟨rfl, v, register, -⟩ | ⟨-, -, raises⟩ | ⟨-, raises⟩
    · have beyond : 0x1C < a.toNat := not_le.1 fun implemented => notRead a implemented rfl
      rw [(regValue_eq_none_iff a s).2 beyond] at register
      cases register
    · exact raises.trans (faultGate_of_fault fault)
    · exact raises.trans (faultGate_of_fault fault)
  case inr.inr.inr.inr.inr.inl | inr.inr.inr.inr.inr.inr => exact raises.trans (faultGate_of_fault fault)
  all_goals exact faultGate_of_fault fault

/-- A command word with its payload at the front of the input is run. -/
theorem step_of_front {s : State} {w : Word} {rest : List Word} (front : s.input = w :: rest)
    (enough : payloadLength w ≤ rest.length) :
    step s = exec (decodeCommand w (rest.take (payloadLength w))) (State.withInput (rest.drop (payloadLength w)) s) := by
  have read := decode_of_fits (List.length_take_of_le enough) (rest.drop (payloadLength w))
  rw [List.take_append_drop, ← front] at read
  exact step_of_command read

/-- The bits [7:0] of a command word are those of its OPERAND. -/
theorem operandOf_low (w : Word) : (operandOf w).extractLsb' 0 8 = w.extractLsb' 0 8 := by
  simp [operandOf]

theorem opcodeOf_readReg (reserved : BitVec 16) (addr : BitVec 8) :
    (opcodeOf (commandWord (.readReg reserved addr))).toNat = 5 := by
  simp [commandWord]

theorem commandWord_readReg_high (reserved : BitVec 16) (addr : BitVec 8) :
    (commandWord (.readReg reserved addr)).extractLsb' 8 16 = reserved := by
  rw [← operandOf_high, commandWord, operandOf_opWord]
  exact BitVec.extractLsb'_append_eq_left

theorem commandWord_readReg_low (reserved : BitVec 16) (addr : BitVec 8) :
    (commandWord (.readReg reserved addr)).extractLsb' 0 8 = addr := by
  rw [← operandOf_low, commandWord, operandOf_opWord]
  exact BitVec.extractLsb'_append_eq_right

/-- Settles O10: the two commands that act are told by their command word, which is the word that was decoded. -/
theorem faultGateHolds : Obligations.FaultGate := by
  intro s w rest fault front enough op addr after
  have run : step s = exec (decodeCommand w (rest.take (payloadLength w))) after := step_of_front front enough
  have word : commandWord (decodeCommand w (rest.take (payloadLength w))) = w :=
    commandWord_decodeCommand (List.length_take_of_le enough)
  rw [run]
  split_ifs with reset read
  case pos =>
    subst reset
    exact (resetResult 0#24 after).1
  case pos =>
    obtain ⟨opcode, clear, implemented⟩ := read
    have decoded : decodeCommand w (rest.take (payloadLength w)) = .readReg 0#16 addr := by
      simp only [decodeCommand, show (opcodeOf w).toNat = 5 from opcode, operandOf_high, operandOf_low, clear, addr]
    rw [decoded]
    exact (readRegResult addr 0#16 after).1 implemented
  case neg =>
    refine exec_of_fault fault (fun isReset => reset ?_) fun a implemented isRead => read ?_
    · rw [← word, isReset]
      rfl
    · rw [isRead] at word
      subst word
      exact ⟨opcodeOf_readReg 0#16 a, commandWord_readReg_high 0#16 a,
        (congrArg BitVec.toNat (commandWord_readReg_low 0#16 a)).trans_le implemented⟩

/-! ### The checks of R324, by command -/

theorem firstFault_of_internal {w : Word} (internal : internalOpcode w = true) (payload : List Word) (s : State) :
    firstFault w payload s = some FaultCause.internalOpcode.code := by
  simp [firstFault, faultChecks, FaultCause.code, internal]

theorem firstFault_of_illegal {w : Word} (internal : internalOpcode w = false) (host : hostOpcode w = false)
    (payload : List Word) (s : State) : firstFault w payload s = some FaultCause.illegalOpcode.code := by
  simp [firstFault, faultChecks, FaultCause.code, internal, host]

/-- The bits [23:0] of a command word, as the checks read them. -/
theorem opWord_low (op : Opcode) (x : Operand) : (opWord op x).extractLsb' 0 24 = x := operandOf_opWord op x

/-- The validity of CONFIGURE at binary32, as a check of R324 has it. -/
theorem configurationValid_words32 (rate : Operand) (sps : Word) :
    configurationValid words32 rate sps = (decide (rate ≠ 0#24) && acceptedSps sps) := by
  rw [Bool.eq_iff_iff, configurationValid_iff, Bool.and_eq_true, acceptedSps, decide_eq_true_iff, decide_eq_true_iff]

/-- The validity of SAMPLES at binary32, as a check of R324 has it. -/
theorem samplesValid_eq_all (data : List Word) : samplesValid words32 data = data.all acceptedSample :=
  congrArg data.all (funext sampleValid_words32)

theorem firstFault_configure (rate : Operand) (sps : Word) (s : State) :
    firstFault (commandWord (.configure rate sps)) (payloadOf (.configure rate sps)) s =
      if configurationValid words32 rate sps then none else some FaultCause.configInvalid.code := by
  rw [configurationValid_words32]
  by_cases zero : rate = 0#24 <;> cases accepted : acceptedSps sps <;>
    simp [firstFault, faultChecks, FaultCause.code, internalOpcode, hostOpcode, commandWord, payloadOf,
      opWord_low, zero, accepted]

theorem firstFault_samples (tsLo tsHi : Word) (data : List Word) (s : State) :
    firstFault (commandWord (.samples tsLo tsHi data)) (payloadOf (.samples tsLo tsHi data)) s =
      if s.configured then
        if samplesValid words32 data then none else some FaultCause.sampleNotFinite.code
      else some FaultCause.notConfigured.code := by
  rw [samplesValid_eq_all, List.all_eq_not_any_not]
  cases configured : s.configured <;> cases refused : data.any (fun v => !acceptedSample v) <;>
    simp [firstFault, faultChecks, FaultCause.code, internalOpcode, hostOpcode, commandWord, payloadOf,
      configured, refused]

theorem firstFault_flush (x : Operand) (s : State) :
    firstFault (commandWord (.flush x)) (payloadOf (.flush x)) s =
      if x = 0#24 then if s.configured then none else some FaultCause.notConfigured.code
      else some FaultCause.reservedNonzero.code := by
  by_cases clear : x = 0#24 <;> cases configured : s.configured <;>
    simp [firstFault, faultChecks, FaultCause.code, internalOpcode, hostOpcode, commandWord, opWord_low,
      clear, configured]

theorem firstFault_reset (x : Operand) (s : State) :
    firstFault (commandWord (.reset x)) (payloadOf (.reset x)) s =
      if x = 0#24 then none else some FaultCause.reservedNonzero.code := by
  by_cases clear : x = 0#24 <;>
    simp [firstFault, faultChecks, FaultCause.code, internalOpcode, hostOpcode, commandWord, opWord_low, clear]

theorem firstFault_readReg (reserved : BitVec 16) (addr : BitVec 8) (s : State) :
    firstFault (commandWord (.readReg reserved addr)) (payloadOf (.readReg reserved addr)) s =
      if reserved = 0#16 then if regValue words32 addr s = none then some FaultCause.badRegister.code else none
      else some FaultCause.reservedNonzero.code := by
  by_cases clear : reserved = 0#16 <;>
    simp [firstFault, faultChecks, FaultCause.code, internalOpcode, hostOpcode, opcodeOf_readReg,
      commandWord_readReg_high, commandWord_readReg_low, regValue_eq_none_iff, clear]

/-! ### The order of the checks (R324) -/

/-- The outcome of R324 for a command: the fault of the first check that applies and no other effect, or no check applies and
the block stays unfaulted. -/
def TakesFirstFault (i : Instr) (s : State) : Prop :=
  (∃ code, firstFault (commandWord i) (payloadOf i) s = some code
    ∧ exec i s = .next (State.faulted code (commandWord i) s))
  ∨ firstFault (commandWord i) (payloadOf i) s = none ∧ ∃ t, exec i s = .next t ∧ t.fault = false

theorem takesFirstFault_configure (rate : Operand) (sps : Word) {s : State} (clear : s.fault = false) :
    TakesFirstFault (.configure rate sps) s := by
  have first := firstFault_configure rate sps s
  rcases configureCommand_cases words32 rate sps s with ⟨valid, effect⟩ | ⟨invalid, raises⟩
  · rw [valid] at first
    exact .inr ⟨first, _, exec_of_faultGate clear rfl, by rw [effect]; exact clear⟩
  · rw [invalid] at first
    exact .inl ⟨_, first, exec_of_raiseFault clear rfl raises⟩

theorem takesFirstFault_samples (tsLo tsHi : Word) (data : List Word) {s : State} (clear : s.fault = false) :
    TakesFirstFault (.samples tsLo tsHi data) s := by
  have first := firstFault_samples tsLo tsHi data s
  rcases samplesCommand_cases words32 tsLo tsHi data s with
    ⟨configured, valid, effect⟩ | ⟨configured, invalid, raises⟩ | ⟨unconfigured, raises⟩
  · rw [configured, valid] at first
    refine .inr ⟨first, _, exec_of_faultGate clear rfl, ?_⟩
    rw [effect, (samplesEffect_setup tsLo tsHi _ s).fault, clear]
  · rw [configured, invalid] at first
    exact .inl ⟨_, first, exec_of_raiseFault clear rfl raises⟩
  · rw [unconfigured] at first
    exact .inl ⟨_, first, exec_of_raiseFault clear rfl raises⟩

theorem takesFirstFault_flush (x : Operand) {s : State} (clear : s.fault = false) : TakesFirstFault (.flush x) s := by
  have first := firstFault_flush x s
  rcases flushCommand_cases words32 x s with ⟨zero, configured, effect⟩ | ⟨zero, unconfigured, raises⟩ | ⟨set, raises⟩
  · rw [if_pos zero, configured] at first
    refine .inr ⟨first, _, exec_of_faultGate clear rfl, ?_⟩
    rw [effect, (flushEffect_setup s).fault, clear]
  · rw [if_pos zero, unconfigured] at first
    exact .inl ⟨_, first, exec_of_raiseFault clear rfl raises⟩
  · rw [if_neg set] at first
    exact .inl ⟨_, first, exec_of_raiseFault clear rfl raises⟩

theorem takesFirstFault_reset (x : Operand) {s : State} (clear : s.fault = false) : TakesFirstFault (.reset x) s := by
  have first := firstFault_reset x s
  rcases runReset_cases words32 x s with ⟨zero, effect⟩ | ⟨set, -⟩
  · rw [if_pos zero] at first
    exact .inr ⟨first, _, (exec_eq _ s).trans (congrArg _ effect), rfl⟩
  · rw [if_neg set] at first
    exact .inl ⟨_, first, exec_of_raiseOnly clear (runCommand_reset_reserved set s)⟩

theorem takesFirstFault_readReg (reserved : BitVec 16) (addr : BitVec 8) {s : State} (clear : s.fault = false) :
    TakesFirstFault (.readReg reserved addr) s := by
  have first := firstFault_readReg reserved addr s
  rcases runReadReg_cases words32 reserved addr s with
    ⟨zero, v, register, effect⟩ | ⟨zero, unlisted, -⟩ | ⟨set, -⟩
  · rw [if_pos zero, register, if_neg (Option.some_ne_none v)] at first
    exact .inr ⟨first, _, (exec_eq _ s).trans (congrArg _ effect), clear⟩
  · subst zero
    rw [if_pos rfl, if_pos unlisted] at first
    exact .inl ⟨_, first, exec_of_raiseOnly clear (runCommand_readReg_of_none unlisted)⟩
  · rw [if_neg set] at first
    exact .inl ⟨_, first, exec_of_raiseOnly clear (runCommand_readReg_reserved set addr s)⟩

/-- The commands of the host's opcodes 0x01 to 0x05 (R112). -/
theorem hostOpcode_cases {i : Instr} (host : hostOpcode (commandWord i) = true) :
    (∃ rate sps, i = .configure rate sps) ∨ (∃ tsLo tsHi data, i = .samples tsLo tsHi data) ∨ (∃ x, i = .flush x)
      ∨ (∃ x, i = .reset x) ∨ ∃ reserved addr, i = .readReg reserved addr := by
  have decoded := decodeCommand_commandWord i
  rw [hostOpcode, decide_eq_true_eq] at host
  obtain opcode | opcode | opcode | opcode | opcode : (opcodeOf (commandWord i)).toNat = 1
      ∨ (opcodeOf (commandWord i)).toNat = 2 ∨ (opcodeOf (commandWord i)).toNat = 3
      ∨ (opcodeOf (commandWord i)).toNat = 4 ∨ (opcodeOf (commandWord i)).toNat = 5 := by omega
  all_goals simp only [decodeCommand, opcode] at decoded
  · exact .inl ⟨_, _, decoded.symm⟩
  · exact .inr (.inl ⟨_, _, _, decoded.symm⟩)
  · exact .inr (.inr (.inl ⟨_, decoded.symm⟩))
  · exact .inr (.inr (.inr (.inl ⟨_, decoded.symm⟩)))
  · exact .inr (.inr (.inr (.inr ⟨_, _, decoded.symm⟩)))

/-- A command of an unfaulted block: the opcode classes of R119 are checked first, then each host command has its own checks. -/
theorem takesFirstFault (i : Instr) {s : State} (clear : s.fault = false) : TakesFirstFault i s := by
  cases internal : internalOpcode (commandWord i)
  case true =>
    exact .inl ⟨_, firstFault_of_internal internal _ s, exec_of_raiseOnly clear (runCommand_of_internal internal s)⟩
  case false =>
    cases host : hostOpcode (commandWord i)
    case false =>
      exact .inl ⟨_, firstFault_of_illegal internal host _ s,
        exec_of_raiseOnly clear (runCommand_of_illegal internal host s)⟩
    case true =>
      rcases hostOpcode_cases host with ⟨rate, sps, rfl⟩ | ⟨tsLo, tsHi, data, rfl⟩ | ⟨x, rfl⟩ | ⟨x, rfl⟩
        | ⟨reserved, addr, rfl⟩
      · exact takesFirstFault_configure rate sps clear
      · exact takesFirstFault_samples tsLo tsHi data clear
      · exact takesFirstFault_flush x clear
      · exact takesFirstFault_reset x clear
      · exact takesFirstFault_readReg reserved addr clear

/-- Settles O11: unfaulted, a command's checks are those of R324 in their order; faulted, only RESET writes the fault state. -/
theorem faultPriority : Obligations.FaultPriority := by
  intro i s _
  refine ⟨fun clear => ?unfaulted, fun fault => ⟨_, exec_eq i s, fun stillFaulted => ?faulted⟩⟩
  case unfaulted =>
    rcases takesFirstFault i clear with ⟨code, first, faults⟩ | ⟨first, unfaulted⟩ <;> rw [first]
    · exact faults
    · exact unfaulted
  case faulted =>
    rcases (runCommand_effect i s).fault_state with ⟨-, code, info⟩ | ⟨clear, -⟩ | ⟨-, clear, -⟩
    · exact ⟨code, info⟩
    · exact absurd (fault.symm.trans clear) (by decide)
    · exact absurd (stillFaulted.symm.trans clear) (by decide)

end Sys2Proof.Machine
end

section
/-! The power-on state (R350): its STATUS (R50), and the invariants of the block in it. -/

namespace Sys2Proof.Machine

/-- At power-on every flag of R48 is clear and there is no fault code, so STATUS is the bit of CONTROL_PATTERN alone (R50). -/
theorem statusWord_powerOn (c : Params) :
    statusWord (State.powerOn c) = if c.controlPattern.isSome then 0x00000020#32 else 0x00000000#32 := by
  have fields : statusWord (State.powerOn c)
      = 0#16 ++ 0#8 ++ 0#2 ++ bitOf c.controlPattern.isSome ++ bitOf false ++ bitOf false ++ bitOf false ++ bitOf false
        ++ bitOf false := rfl
  rw [fields]
  cases c.controlPattern.isSome with
  | false => rfl
  | true => rfl

/-- Settles O22: both columns of R350 are the model's own text, and STATUS is computed from the first. -/
theorem powerOnState : Obligations.PowerOnState :=
  fun c => ⟨rfl, statusWord_powerOn c, opDatapathReset_eq⟩

/-- With legal parameters the empty histories, delay line and assembler of power-on are within their bounds (R5, R350). -/
theorem State.Kept.powerOn {c : Params} (h : c.legal = true) : (State.powerOn c).Kept where
  legal := h
  historyCanonical := powerOn_wf c
  softLength := List.length_replicate
  lagLength := List.length_replicate
  hardLength := List.length_replicate
  delayLength := Nat.zero_le _
  packLength := Nat.zero_le _
  recordingOff _ := ⟨rfl, rfl⟩
  idleEmpty _ := rfl
  assemblerOpen := by
    obtain ⟨-, -, two_le⟩ := Params.bounds_of_legal h
    exact Nat.zero_lt_of_lt two_le
  assemblerEven := rfl
  noOverflow := rfl
  faultClear _ := ⟨rfl, rfl⟩
  faultNamed fault := Bool.noConfusion fault
  rateBelow := Nat.two_pow_pos 24
  configuredRate configured := Bool.noConfusion configured
  configuredSps configured := Bool.noConfusion configured
  unconfigured _ := ⟨rfl, rfl⟩

/-- At power-on no sample has been received. -/
theorem State.HistoryKept.powerOn (c : Params) : (State.powerOn c).HistoryKept :=
  ⟨fun _ mem => absurd mem List.not_mem_nil, le_rfl⟩

/-- The balance is +0.0 at power-on, inside [-π/3, π/3] (R34, R350). -/
theorem balanceKept_powerOn (c : Params) : (State.powerOn c).BalanceKept := by
  change F32.lt 0#32 0xBF860A92#32 = false ∧ F32.lt 0x3F860A92#32 0#32 = false
  decide

/-- The gain limits bind only a configured block, which the power-on state is not (R350). -/
theorem gainKept_powerOn (c : Params) : (State.powerOn c).GainKept :=
  fun configured => Bool.noConfusion configured

/-- The example set of 95_test_vectors.md is in the ranges of R5. -/
theorem Params.examples_legal : Params.examples.legal = true := by decide

/-- Settles O55: the invariants hold at power-on, and the reset state is the power-on state of the legal example set. -/
theorem powerOnKept : Obligations.PowerOnKept := by
  have atPowerOn (c : Params) (h : c.legal = true) : (State.powerOn c).Kept ∧ (State.powerOn c).HistoryKept
      ∧ (State.powerOn c).BalanceKept ∧ (State.powerOn c).GainKept :=
    ⟨.powerOn h, .powerOn c, balanceKept_powerOn c, gainKept_powerOn c⟩
  exact ⟨atPowerOn, atPowerOn Params.examples Params.examples_legal⟩

end Sys2Proof.Machine
end
